-- ==== Sys2Proof/Word.lean ====
section
/-! DEFINITION. The units of data of the PIM link block (spec/00_scope.md R10, R11). -/

namespace Sys2Proof

/-- One byte of a packet buffer (20 R60). -/
abbrev Byte := BitVec 8

/-- A number of microseconds: a timestamp, a duration or a threshold (00 R11). The width `TSW` is a
parameter of the configuration, so a time is a number that the operations reduce modulo 2^`TSW`. -/
abbrev Time := Nat

/-- `HDR_BITS` (00 R7): the width of the length header on the wire. -/
abbrev hdrBits : Nat := 6

/-- `BYTE_BITS` (00 R7): the bits of a data byte. -/
abbrev byteBits : Nat := 8

end Sys2Proof
end

