-- ==== Sys2Proof/Syntax.lean ====
section
/-! DEFINITION. The symbols of the wire (30 R80), the operations of the block and the other rows of the
opcode table as one inductive type (30 R89), their agents and contexts (00 R14, 60 R197), and the host's
actions that are no operation (70 R210, 20 R60). -/

namespace Sys2Proof

/-- The four symbols of the wire alphabet (30 R80). -/
inductive Symbol where
  | zero
  | one
  | preamble
  | invalid
deriving DecidableEq, Repr

/-- The results of `CLASSIFY` (40 R101, 90 C7): `Preamble` is never among them. Also the type of the
parameter `OVERLAP_ZO` (00 R8). -/
inductive BitSymbol where
  | zero
  | one
  | invalid
deriving DecidableEq, Repr

/-- The operand of `INTERVAL` (40 R103): the three symbols that have a nominal interval. -/
inductive TxSymbol where
  | zero
  | one
  | preamble
deriving DecidableEq, Repr

/-- The instructions: one constructor per row of the opcode table. The first 22 are the operations of
30 R89 with the operands of R90; the last five are the wire symbols of R80 and the frame of R82, which
the WIRE agent delivers to the Reader (log 13, 14, 15). -/
inductive Instr where
  | classify (d : Time)
  | ispreamble (d : Time)
  | interval (sym : TxSymbol)
  | rdStart (now : Time)
  | rdStop
  | rdPulse (t : Time)
  | rdHasincoming
  | rdRestore (blankLevel : Bool)
  | rdBlank
  | rdIsblanking
  | rdCansend (now : Time) (silence : Time)
  | rdWatchdog (now : Time)
  | wrStart (now : Time)
  | wrStop
  | wrSend (buffer : List Byte) (length : Nat) (now : Time)
  | wrExpiry (now : Time)
  | lkStart (now : Time)
  | lkStop
  | lkCansend (now : Time)
  | lkSend (buffer : List Byte) (length : Nat) (now : Time)
  | lkService
  | lkRestore
  | symZero
  | symOne
  | symPreamble
  | symInvalid (d : Time)
  | frame (t : Time) (bytes : List Byte)
deriving DecidableEq, Repr

/-- What the world outside the block does to it, other than issuing an operation: power-on (70 R210),
the caller's store into its own outgoing buffer (20 R68, 70 R215), the consumer's load and store of the
receive buffer (20 R67, 70 R216). -/
inductive HostEvent where
  | powerOn
  | callerStore (i : Nat) (v : Byte)
  | consumerLoad (i : Nat)
  | consumerStore (i : Nat) (v : Byte)
deriving DecidableEq, Repr

/-- The agents that cause a step (00 R14). -/
inductive Agent where
  | capture
  | timer
  | task
  | wire
deriving DecidableEq, Repr

/-- The execution context a row of 30 R89 gives an operation. -/
inductive Context where
  | any
  | interrupt
  | task
deriving DecidableEq, Repr

/-- Which agent issues an instruction (00 R14). -/
def Instr.agent : Instr → Agent
  | .rdPulse _ => .capture
  | .wrExpiry _ => .timer
  | .symZero => .wire
  | .symOne => .wire
  | .symPreamble => .wire
  | .symInvalid _ => .wire
  | .frame _ _ => .wire
  | .classify _ => .task
  | .ispreamble _ => .task
  | .interval _ => .task
  | .rdStart _ => .task
  | .rdStop => .task
  | .rdHasincoming => .task
  | .rdRestore _ => .task
  | .rdBlank => .task
  | .rdIsblanking => .task
  | .rdCansend _ _ => .task
  | .rdWatchdog _ => .task
  | .wrStart _ => .task
  | .wrStop => .task
  | .wrSend _ _ _ => .task
  | .lkStart _ => .task
  | .lkStop => .task
  | .lkCansend _ => .task
  | .lkSend _ _ _ => .task
  | .lkService => .task
  | .lkRestore => .task

/-- The context column of 30 R89 (60 R197). A wire symbol and a frame are pulses, so they reach the
block in interrupt context. -/
def Instr.context : Instr → Context
  | .classify _ => .any
  | .ispreamble _ => .any
  | .interval _ => .any
  | i => if i.agent = .task then .task else .interrupt

/-- The mnemonic of the opcode table (30 R89). -/
def Instr.mnemonic : Instr → String
  | .classify _ => "CLASSIFY"
  | .ispreamble _ => "ISPREAMBLE"
  | .interval _ => "INTERVAL"
  | .rdStart _ => "RD.START"
  | .rdStop => "RD.STOP"
  | .rdPulse _ => "RD.PULSE"
  | .rdHasincoming => "RD.HASINCOMING"
  | .rdRestore _ => "RD.RESTORE"
  | .rdBlank => "RD.BLANK"
  | .rdIsblanking => "RD.ISBLANKING"
  | .rdCansend _ _ => "RD.CANSEND"
  | .rdWatchdog _ => "RD.WATCHDOG"
  | .wrStart _ => "WR.START"
  | .wrStop => "WR.STOP"
  | .wrSend _ _ _ => "WR.SEND"
  | .wrExpiry _ => "WR.EXPIRY"
  | .lkStart _ => "LK.START"
  | .lkStop => "LK.STOP"
  | .lkCansend _ => "LK.CANSEND"
  | .lkSend _ _ _ => "LK.SEND"
  | .lkService => "LK.SERVICE"
  | .lkRestore => "LK.RESTORE"
  | .symZero => "SYM.ZERO"
  | .symOne => "SYM.ONE"
  | .symPreamble => "SYM.PREAMBLE"
  | .symInvalid _ => "SYM.INVALID"
  | .frame _ _ => "FRAME"

end Sys2Proof
end

