-- ==== Sys2Proof/Config.lean ====
section
/-! DEFINITION. The configuration parameters (00 R6, R7, R8), their constraints (R9) and the free
values of the model. -/

namespace Sys2Proof

/-- `WD_REF` (00 R8, 92 D7): what the watchdog measures from. -/
inductive WdRef where
  | lastBit
  | packetStart
deriving DecidableEq, Repr

/-- The named parameters of 00 R6 to R8. The spec wants them as arguments of the model: they stand in
`State.cfg`, no operation writes them, and a statement about every state holds for every value of
them. -/
structure Cfg where
  /-- `T_ZERO` -/
  tZero : Time
  /-- `T_ONE` -/
  tOne : Time
  /-- `T_PRE` -/
  tPre : Time
  /-- `TOL` -/
  tol : Time
  /-- `CAPACITY` -/
  capacity : Nat
  /-- `TSW` -/
  tsw : Nat
  /-- `OVERLAP_ZO` -/
  overlapZO : BitSymbol
  /-- `RX_SILENCE` -/
  rxSilence : Time
  /-- `TX_SILENCE` -/
  txSilence : Time
  /-- `WD_TIMEOUT` -/
  wdTimeout : Time
  /-- `WD_REF` -/
  wdRef : WdRef
  /-- `JITTER` -/
  jitter : Time
deriving DecidableEq, Repr

/-- The defaults of 00 R6 to R8. DESIGN CHOICE: the two silence intervals have no default in the spec;
200 is the value its test vectors use (log 5). -/
def Cfg.default : Cfg where
  tZero := 50
  tOne := 75
  tPre := 100
  tol := 14
  capacity := 64
  tsw := 32
  overlapZO := .zero
  rxSilence := 200
  txSilence := 200
  wdTimeout := 30000
  wdRef := .lastBit
  jitter := 0

/-- The constraints a configuration must satisfy (00 R9, items 1 to 4; `TSW` positive by R8). -/
abbrev Cfg.Admitted (c : Cfg) : Prop :=
  (1 ≤ c.capacity ∧ c.capacity ≤ 2 ^ hdrBits) ∧
  (c.tPre + 2 * c.tol < c.rxSilence ∧ c.tPre + 2 * c.tol < c.txSilence) ∧
  (0 < c.tZero ∧ c.tZero < c.tOne ∧ c.tOne < c.tPre ∧ c.tol ≤ c.tZero) ∧
  (0 < c.tsw ∧ c.wdTimeout < 2 ^ c.tsw - 1 ∧ c.rxSilence < 2 ^ c.tsw - 1 ∧
    c.txSilence < 2 ^ c.tsw - 1)

/-- A FREE VALUE: the bit that a header cursor beyond the header selects. 42 R143 selects bit
`HDR_BITS − 1 − wr.bit_cursor`, which does not exist for a cursor of 6 or 7; no run of the protocol
reaches such a cursor, and the spec gives it no bit. The argument is `State.free` (log 11). -/
opaque Config.freeBit : Nat → Bool

/-- A FREE VALUE: a byte that the spec gives no value: one that a consumer loads outside its ownership or
where the packet held has none (93 H5 and U2 'any value'; log 7, 8), and one that the Writer fetches where
`WBUF` has none (20 R64; log 10). The argument is `State.free`. -/
opaque Config.freeByte : Nat → Byte

end Sys2Proof
end

