-- ==== Sys2Proof/Machine/State.lean ====
section
/-! DEFINITION. The state of one device (10 R20 to R45), the reasons a step can stop, reset (10 R43,
70 R210), and the named updates of one field each. -/

namespace Sys2Proof.Machine

open Sys2Proof

/-- The Reader's control state (10 R22). The names are the spec's abbreviations, in the order of its
codes 0 to 7. -/
inductive RdState where
  /-- `Idle` -/
  | idle
  /-- `AwaitingPreambleStart` -/
  | aps
  /-- `AwaitingPreambleEnd` -/
  | ape
  /-- `AwaitingHeaderEnd` -/
  | ahe
  /-- `AwaitingDataBits` -/
  | adb
  /-- `AwaitingConsumption` -/
  | ac
  /-- `Blanked` -/
  | bl
  /-- `BlankedWithPendingPacket` -/
  | blp
deriving DecidableEq, Repr

/-- The Writer's control state (10 R30), in the order of its codes 0 to 2. -/
inductive WrState where
  /-- `Idle` -/
  | idle
  /-- `SendingHeader` -/
  | sh
  /-- `SendingData` -/
  | sd
deriving DecidableEq, Repr

/-- A byte-addressed space (20 R60): the bytes that have a value, as (index, byte) pairs. An index that
is not listed has NO value (log 7). -/
abbrev Memory := List Host.Cell

/-- The Reader's fields (10 R22 to R28). -/
structure Reader where
  state : RdState
  startTs : Time
  lastTs : Time
  byteCursor : BitVec 7
  bitCursor : BitVec 3
  asm : Byte
  length : BitVec 7
deriving DecidableEq, Repr

/-- The Writer's fields (10 R30 to R36). -/
structure Writer where
  state : WrState
  active : Bool
  txPending : Bool
  length : BitVec 7
  byteCursor : BitVec 7
  bitCursor : BitVec 3
  lastCompletionTs : Time
deriving DecidableEq, Repr

/-- The three signal cells (10 R38). -/
structure Signals where
  receivedFlag : Bool
  receivedTs : Time
  receivedLen : BitVec 7
  lostFlag : Bool
  lostTs : Time
  sentFlag : Bool
deriving DecidableEq, Repr

/-- The Timer Service's state (10 R39). -/
structure Timer where
  armed : Bool
  delay : Time
deriving DecidableEq, Repr

/-- The three output signals with their payloads (60 R187). -/
inductive Signal where
  | received (ts : Time) (len : BitVec 7)
  | lost (ts : Time)
  | sent
deriving DecidableEq, Repr

/-- One output of the block (30 R92): what an operation emits, asks of the Timer Service, raises,
delivers to an observer or returns, and the byte a consumer's load finds. -/
inductive Output where
  /-- `! Pulse @t` (42 R149) -/
  | pulse (t : Time)
  /-- `! Timer.scheduleAfter(d)` (60 R193) -/
  | timerSchedule (d : Time)
  /-- `! Timer.cancel()` (60 R193) -/
  | timerCancel
  /-- `! raise …` (60 R188) -/
  | raised (g : Signal)
  /-- `! onPacketReceived / onPacketLost / onPacketSent` (60 R196) -/
  | callback (g : Signal)
  /-- the result of `CLASSIFY` -/
  | retSymbol (s : BitSymbol)
  /-- the result of a `bool` operation -/
  | retBool (b : Bool)
  /-- the result of `INTERVAL` -/
  | retMicros (d : Time)
  /-- the result of `RD.HASINCOMING` -/
  | retIncoming (length : BitVec 7) (present : Bool)
  /-- the result of a send: success is `true` -/
  | retSend (success : Bool)
  /-- the byte a consumer's load finds (20 R61) -/
  | loaded (i : Nat) (v : Byte)
deriving DecidableEq, Repr

/-- One device, its configuration and its surroundings. `cfg`, `trace`, `stim` and `free` are the
MODEL's own (10 R21: parameters, an output trace and inputs are not state of the device; log 1, 5, 11,
16). -/
structure State where
  /-- the configuration parameters; no operation writes them -/
  cfg : Cfg
  /-- the Reader -/
  rd : Reader
  /-- `RBUF` -/
  rbuf : Memory
  /-- the Writer -/
  wr : Writer
  /-- `WBUF`, the caller's outgoing bytes; nothing listed: not bound -/
  wbuf : Memory
  /-- `arb.tx_blank` (10 R37) -/
  txBlank : Bool
  /-- the signal cells -/
  sig : Signals
  /-- the Timer Service -/
  tmr : Timer
  /-- the output trace, oldest first -/
  trace : List Output
  /-- the stimulus stream: the records still to be delivered -/
  stim : List Byte
  /-- how many free values have been drawn -/
  free : Nat
deriving DecidableEq, Repr

/-- Why the machine stops with a fault. Both are accesses of the HOST to an index that does not exist;
20 R64 says such an access has no defined result. No operation of the block faults (00 R16). -/
inductive Fault where
  /-- Raised by a consumer's load or store of `RBUF` at an index of `CAPACITY` or more (20 R60, R64). Safe. -/
  | rbufOutOfRange (i : Nat)
  /-- Raised by a caller's store at an index outside the bound outgoing buffer (20 R62, R64). Safe. -/
  | wbufOutOfRange (i : Nat)
deriving DecidableEq, Repr

/-- Why a step gives no meaning to what it is asked to run. -/
inductive Refusal where
  /-- The instruction has no meaning in this model. Raised by `exec` alone. Safe. -/
  | notModelled (mnemonic : String)
  /-- Raised by `step` for a record whose code names no operation (30 R91). Safe. -/
  | reservedCode (firstByte : Nat)
  /-- Raised by `step` for a record whose operand bytes are not all there, or an operand code that names
  no operand value (log 2). Safe. -/
  | badRecord
  /-- Raised by an accepted `WR.SEND` or `LK.SEND` whose buffer holds fewer bytes than its length:
  20 R64 asks a model to refuse such a launch. Safe. -/
  | shortBuffer
  /-- Raised by `SYM.INVALID d` when `d` lies inside a window, so is no `Invalid` interval (30 R80). Safe. -/
  | notInvalidInterval
  /-- Raised by a `FRAME` of no byte or of more than 2^`HDR_BITS` bytes, which is no frame (30 R82). Safe. -/
  | frameLength
  /-- Raised by the consumer's store to `RBUF` while nobody owns it, in `Idle` and `Blanked` (20 R67: a
  model gives it no meaning). Safe. -/
  | notOwner
  /-- Raised by `step` and by the network for a device whose configuration breaks 00 R9 (93 H11: refuse the
  configuration). Safe. -/
  | configuration
deriving DecidableEq, Repr

/-- The three outcomes of a step of this machine. -/
abbrev Outcome := Host.Outcome State Fault Refusal

/-- Go on with `f` if `o` is a next state; a fault and a refusal stop. -/
def andThen (o : Outcome) (f : State → Outcome) : Outcome :=
  match o with
  | .next s => f s
  | .fault r => .fault r
  | .refused r => .refused r

/-- The device right after reset under the configuration `c` (10 R43, 70 R210). DESIGN CHOICE: `tmr.delay`
is 0 and `WBUF` lists nothing, where the spec says 'unspecified' and 'not bound' (log 6). -/
def State.powerOn (c : Cfg) : State where
  cfg := c
  rd := { state := .idle, startTs := 0, lastTs := 0, byteCursor := 0, bitCursor := 0, asm := 0, length := 0 }
  rbuf := []
  wr := { state := .idle, active := false, txPending := false, length := 0, byteCursor := 0,
          bitCursor := 0, lastCompletionTs := 0 }
  wbuf := []
  txBlank := false
  sig := { receivedFlag := false, receivedTs := 0, receivedLen := 0, lostFlag := false, lostTs := 0,
           sentFlag := false }
  tmr := { armed := false, delay := 0 }
  trace := []
  stim := []
  free := 0

/-- The machine right after reset, with the default configuration (10 R43, 00 R6 to R8). -/
def State.reset : State := State.powerOn Cfg.default

/-- Replace the Reader's fields. -/
def State.setRd (s : State) (r : Reader) : State := { s with rd := r }
/-- Replace the contents of `RBUF`. -/
def State.setRbuf (s : State) (m : Memory) : State := { s with rbuf := m }
/-- Replace the Writer's fields. -/
def State.setWr (s : State) (w : Writer) : State := { s with wr := w }
/-- Replace the contents of `WBUF`. -/
def State.setWbuf (s : State) (m : Memory) : State := { s with wbuf := m }
/-- Replace `arb.tx_blank`. -/
def State.setTxBlank (s : State) (b : Bool) : State := { s with txBlank := b }
/-- Replace the signal cells. -/
def State.setSig (s : State) (g : Signals) : State := { s with sig := g }
/-- Replace the Timer Service's state. -/
def State.setTmr (s : State) (t : Timer) : State := { s with tmr := t }
/-- Replace the stimulus stream. -/
def State.setStim (s : State) (b : List Byte) : State := { s with stim := b }
/-- Replace the counter of free values. -/
def State.setFree (s : State) (n : Nat) : State := { s with free := n }
/-- Append outputs to the trace. -/
def State.emit (s : State) (o : List Output) : State := { s with trace := s.trace ++ o }

end Sys2Proof.Machine
end

