-- ==== Sys2Proof/Machine/Operands.lean ====
section
/-! DEFINITION. Times as operands and their differences (00 R11), and the bits of the fields a
transmission walks through (30 R81, R84, R85). -/

namespace Sys2Proof.Machine

open Sys2Proof

/-- A time operand as the block sees it: a `TSW`-bit reading of the free-running counter (00 R11,
60 R194). DESIGN CHOICE: a larger operand stands for its low `TSW` bits (log 4). -/
def time (c : Cfg) (t : Time) : Time := t % 2 ^ c.tsw

/-- `elapsed(a, b) = (b − a) mod 2^TSW` (00 R11). -/
def elapsed (c : Cfg) (a b : Time) : Time :=
  (b % 2 ^ c.tsw + 2 ^ c.tsw - a % 2 ^ c.tsw) % 2 ^ c.tsw

/-- The reading of the free-running counter that an instruction is given (60 R194), as the host holds it,
before any reduction to `TSW` bits: the operands `t` and `now`. A frame is given the time of its first pulse
alone and a wire symbol none: where their other pulses stand is THE MODEL'S CHOICE, in `span` for one device
and in `readingOn` for a network (log 20). -/
def reading : Instr → Option Time
  | .rdStart now => some now
  | .rdPulse t => some t
  | .rdCansend now _ => some now
  | .rdWatchdog now => some now
  | .wrStart now => some now
  | .wrSend _ _ now => some now
  | .wrExpiry now => some now
  | .lkStart now => some now
  | .lkCansend now => some now
  | .lkSend _ _ now => some now
  | .frame t _ => some t
  | .classify _ => none
  | .ispreamble _ => none
  | .interval _ => none
  | .rdStop => none
  | .rdHasincoming => none
  | .rdRestore _ => none
  | .rdBlank => none
  | .rdIsblanking => none
  | .wrStop => none
  | .lkStop => none
  | .lkService => none
  | .lkRestore => none
  | .symZero => none
  | .symOne => none
  | .symPreamble => none
  | .symInvalid _ => none

/-- `bit(s)` (30 R81): a classified interval has a bit value unless it is `Invalid`. -/
def bitOf : BitSymbol → Option Bool
  | .zero => some false
  | .one => some true
  | .invalid => none

/-- `sym(b)` (30 R81). -/
def symOf (b : Bool) : TxSymbol := if b then .one else .zero

/-- The 6-bit header value `(length − 1)[5:0]` of a 7-bit length (30 R84, 42 R143). THE MODEL'S CHOICE for a
length of 0, which no run reaches: the subtraction wraps, so the value is 63 (00 R15 item 3 gives none;
log 29). -/
def headerOf (length : BitVec 7) : BitVec 6 := (length - 1).setWidth 6

/-- The bit of the header that the cursor selects: bit `HDR_BITS − 1 − cursor` (42 R143). A cursor of 6 or
7 selects no bit of the header; `free` then stands for the open value (log 11). -/
def headerBit (h : BitVec 6) (cursor : BitVec 3) (free : Bool) : Bool :=
  if cursor.toNat < hdrBits then h.getLsbD (hdrBits - 1 - cursor.toNat) else free

/-- The bit of a data byte that the cursor selects: bit `7 − cursor` (42 R144). -/
def dataBit (v : Byte) (cursor : BitVec 3) : Bool := v.getLsbD (byteBits - 1 - cursor.toNat)

/-- The bits of a field in wire order, the most significant first (20 R63). -/
def bitsMsbFirst {n : Nat} (v : BitVec n) : List Bool :=
  (List.range n).map fun j => v.getLsbD (n - 1 - j)

end Sys2Proof.Machine
end

