-- ==== Sys2Proof/Machine/Flags.lean ====
section
/-! DEFINITION. The flags of the block: the three signal cells (10 R38, 60 R188, R189), and the window
flags of the classifier (40 R100). -/

namespace Sys2Proof.Machine

open Sys2Proof

/-- What `raise` writes in the signal cells (60 R188): the payload and the flag of the one cell. The flag
is not read first, so a second raise of a kind overwrites the payload of the first. -/
def Signals.record (c : Signals) (g : Signal) : Signals :=
  match g with
  | .received ts len => { c with receivedFlag := true, receivedTs := ts, receivedLen := len }
  | .lost ts => { c with lostFlag := true, lostTs := ts }
  | .sent => { c with sentFlag := true }

/-- What consuming a signal writes (60 R189): its flag becomes 0, its payload stays. -/
def Signals.clear (c : Signals) (g : Signal) : Signals :=
  match g with
  | .received _ _ => { c with receivedFlag := false }
  | .lost _ => { c with lostFlag := false }
  | .sent => { c with sentFlag := false }

/-- The three flags cleared, the payloads kept (43 R164 step 4). -/
def Signals.clearAll (c : Signals) : Signals :=
  { c with receivedFlag := false, lostFlag := false, sentFlag := false }

/-- A duration strictly inside an open window (40 R100: both comparisons strict). -/
def insideWindow (lo hi d : Time) : Bool := decide (lo < d) && decide (d < hi)

/-- `inZero(d)` with `Z_LO = T_ZERO − TOL`, `Z_HI = T_ZERO + TOL` (40 R100). -/
def inZero (c : Cfg) (d : Time) : Bool := insideWindow (c.tZero - c.tol) (c.tZero + c.tol) d

/-- `inOne(d)` with `O_LO = T_ONE − TOL`, `O_HI = T_ONE + TOL` (40 R100). -/
def inOne (c : Cfg) (d : Time) : Bool := insideWindow (c.tOne - c.tol) (c.tOne + c.tol) d

/-- `inPre(d)` with `P_LO = T_PRE − TOL`, `P_HI = T_PRE + TOL` (40 R100). -/
def inPre (c : Cfg) (d : Time) : Bool := insideWindow (c.tPre - c.tol) (c.tPre + c.tol) d

end Sys2Proof.Machine
end

