-- ==== Sys2Proof/Machine/Ops.lean ====
section
/-! DEFINITION. The shared operations: the two byte spaces (20 R60 to R64), raising and consuming a signal
(60 R188, R189: what the block has in place of taking an exception and returning from one), the Timer
Service (60 R193), the outgoing pulse (42 R149), the assembly step and the resynchronisation (41 R116,
R117). -/

namespace Sys2Proof.Machine

open Sys2Proof

/-! ## Memory -/

/-- The canonical form: indices strictly rise. An unlisted index has no value, so no entry can repeat
what an unlisted index reads as. -/
abbrev Memory.wf (m : Memory) : Prop := (m.map Prod.fst).Pairwise (· < ·)

/-- The byte at an index, if it has a value (20 R61, R62). -/
def Memory.read (m : Memory) (i : Nat) : Option Byte :=
  match m with
  | [] => none
  | (j, v) :: rest => if j = i then some v else Memory.read rest i

/-- The space with the byte at one index replaced, in canonical form. -/
def Memory.write (m : Memory) (i : Nat) (v : Byte) : Memory :=
  match m with
  | [] => [(i, v)]
  | (j, w) :: rest =>
    if i < j then (i, v) :: (j, w) :: rest
    else if i = j then (i, v) :: rest
    else (j, w) :: Memory.write rest i v

/-- The space that holds the given bytes at the indices from `i` on. -/
def Memory.ofBytes (i : Nat) (bytes : List Byte) : Memory :=
  match bytes with
  | [] => []
  | b :: rest => (i, b) :: Memory.ofBytes (i + 1) rest

/-- `MemWrite(RBUF, i, 1, v)` (20 R61): there are `CAPACITY` bytes. DESIGN CHOICE: at an index where no
byte exists, which no run reaches, nothing is stored and the operation goes on (00 R16, 20 R64; log 10). -/
def storeRbuf (i : Nat) (v : Byte) (s : State) : State :=
  if i < s.cfg.capacity then s.setRbuf (s.rbuf.write i v) else s

/-- Draw a free value: the counter advances. -/
def draw (s : State) : State := s.setFree (s.free + 1)

/-! ## Raising and consuming a signal -/

/-- `raise g` (60 R188): the signal cell is written and the operation goes on. -/
def raise (g : Signal) (s : State) : State := (s.setSig (s.sig.record g)).emit [.raised g]

/-- Consuming a signal (60 R189): the observer is called with the payload, then the flag is cleared. -/
def consume (g : Signal) (s : State) : State := (s.emit [.callback g]).setSig (s.sig.clear g)

/-! ## Timer Service and pulse -/

/-- `Timer.scheduleAfter(d)` (10 R39, 60 R193). -/
def scheduleAfter (d : Time) (s : State) : State :=
  (s.setTmr { armed := true, delay := d }).emit [.timerSchedule d]

/-- `Timer.cancel()` (10 R39, 60 R193). -/
def cancelTimer (s : State) : State :=
  (s.setTmr { s.tmr with armed := false }).emit [.timerCancel]

/-- The delivery of an expiry: the one-shot has fired (10 R39). -/
def fireTimer (s : State) : State := s.setTmr { s.tmr with armed := false }

/-- `emit Pulse` in an operation with operand `now` (42 R149). -/
def emitPulse (now : Time) (s : State) : State := s.emit [.pulse (time s.cfg now)]

/-! ## The Reader's two helpers -/

/-- `accumulate(b)` (41 R116). -/
def accumulate (asm : Byte) (b : Bool) : Byte := (asm <<< 1) ||| (if b then 1 else 0)

/-- `resync(t)` (41 R117). -/
def resync (t : Time) (s : State) : State :=
  s.setRd { s.rd with startTs := time s.cfg t, lastTs := time s.cfg t, state := .ape }

end Sys2Proof.Machine
end

