-- ==== Sys2Proof/Machine/Codec.lean ====
section
/-! DEFINITION. CODEC, the interval classifier (spec/40_codec.md): the functions the Reader and the Writer
use, and the three operations. -/

namespace Sys2Proof.Machine

open Sys2Proof

/-- `CLASSIFY(d)` (40 R101). -/
def classify (c : Cfg) (d : Time) : BitSymbol :=
  match inZero c d, inOne c d with
  | true, false => .zero
  | false, true => .one
  | true, true => c.overlapZO
  | false, false => .invalid

/-- `ISPREAMBLE(d)` (40 R102). -/
def isPreamble (c : Cfg) (d : Time) : Bool := inPre c d

/-- `INTERVAL(sym)` (40 R103): the nominal interval a transmitter schedules. -/
def interval (c : Cfg) (sym : TxSymbol) : Time :=
  match sym with
  | .zero => c.tZero
  | .one => c.tOne
  | .preamble => c.tPre

/-- An interval that matches no window: the wire symbol `Invalid` (30 R80). -/
def matchesNoWindow (c : Cfg) (d : Time) : Bool := !inZero c d && !inOne c d && !inPre c d

/-- `CLASSIFY d` (40 R101). -/
def execClassify (d : Time) (s : State) : Outcome :=
  .next (s.emit [.retSymbol (classify s.cfg (time s.cfg d))])

/-- `ISPREAMBLE d` (40 R102). -/
def execIspreamble (d : Time) (s : State) : Outcome :=
  .next (s.emit [.retBool (isPreamble s.cfg (time s.cfg d))])

/-- `INTERVAL sym` (40 R103). -/
def execInterval (sym : TxSymbol) (s : State) : Outcome :=
  .next (s.emit [.retMicros (interval s.cfg sym)])

end Sys2Proof.Machine
end

