-- ==== Sys2Proof/Machine/Reader.lean ====
section
/-! DEFINITION. READER, the PacketReader state machine (spec/41_reader.md). -/

namespace Sys2Proof.Machine

open Sys2Proof

/-! ## The pulse event (41 R110 to R117) -/

/-- `RD.PULSE` in `AwaitingPreambleStart` (41 R111). -/
def pulseAps (t : Time) (s : State) : State :=
  s.setRd { s.rd with startTs := time s.cfg t, lastTs := time s.cfg t, state := .ape }

/-- `RD.PULSE` in `AwaitingPreambleEnd` (41 R112). -/
def pulseApe (t : Time) (s : State) : State :=
  if isPreamble s.cfg (elapsed s.cfg s.rd.lastTs t) then
    s.setRd { s.rd with byteCursor := 0, bitCursor := 0, asm := 0, lastTs := time s.cfg t, state := .ahe }
  else resync t s

/-- A header bit `b` accepted (41 R113): the sixth gives the length, which must be within `CAPACITY`. -/
def acceptHeaderBit (b : Bool) (t : Time) (s : State) : State :=
  let a := accumulate s.rd.asm b
  if s.rd.bitCursor.toNat + 1 = hdrBits then
    let len : BitVec 7 := (a.setWidth 6).setWidth 7 + 1
    if s.cfg.capacity < len.toNat then resync t s
    else s.setRd { s.rd with length := len, bitCursor := 0, asm := 0, lastTs := time s.cfg t, state := .adb }
  else s.setRd { s.rd with asm := a, bitCursor := s.rd.bitCursor + 1, lastTs := time s.cfg t }

/-- `RD.PULSE` in `AwaitingHeaderEnd` (41 R113). -/
def pulseAhe (t : Time) (s : State) : State :=
  match bitOf (classify s.cfg (elapsed s.cfg s.rd.lastTs t)) with
  | none => resync t s
  | some b => acceptHeaderBit b t s

/-- The eighth bit of a byte accepted, the byte already stored (41 R114). -/
def finishByte (t : Time) (s : State) : State :=
  if s.rd.byteCursor.toNat + 1 = s.rd.length.toNat then
    raise (.received s.rd.startTs s.rd.length)
      (s.setRd { s.rd with byteCursor := s.rd.byteCursor + 1, bitCursor := 0, asm := 0,
                           lastTs := time s.cfg t, state := .ac })
  else
    s.setRd { s.rd with byteCursor := s.rd.byteCursor + 1, bitCursor := 0, asm := 0,
                        lastTs := time s.cfg t }

/-- A data bit `b` accepted (41 R114). -/
def acceptDataBit (b : Bool) (t : Time) (s : State) : State :=
  let a := accumulate s.rd.asm b
  if s.rd.bitCursor.toNat + 1 = byteBits then finishByte t (storeRbuf s.rd.byteCursor.toNat a s)
  else s.setRd { s.rd with asm := a, bitCursor := s.rd.bitCursor + 1, lastTs := time s.cfg t }

/-- `RD.PULSE` in `AwaitingDataBits` (41 R114): an `Invalid` interval raises `Lost` with the start
timestamp of before the resynchronisation. -/
def pulseAdb (t : Time) (s : State) : State :=
  match bitOf (classify s.cfg (elapsed s.cfg s.rd.lastTs t)) with
  | none => resync t (raise (.lost s.rd.startTs) s)
  | some b => acceptDataBit b t s

/-- A pulse edge reported to the Reader (41 R110): the dispatch on `rd.state`; in the four states of R115
nothing happens. -/
def pulse (t : Time) (s : State) : State :=
  match s.rd.state with
  | .aps => pulseAps t s
  | .ape => pulseApe t s
  | .ahe => pulseAhe t s
  | .adb => pulseAdb t s
  | .idle => s
  | .ac => s
  | .bl => s
  | .blp => s

/-- `RD.PULSE t` (41 R110). -/
def execRdPulse (t : Time) (s : State) : Outcome := .next (pulse t s)

/-! ## Consumer-facing operations (41 R118 to R123) -/

/-- `RD.HASINCOMING` (41 R118). -/
def execRdHasincoming (s : State) : Outcome :=
  .next (s.emit [match s.rd.state with
    | .ac => .retIncoming s.rd.length true
    | .blp => .retIncoming s.rd.length true
    | _ => .retIncoming 0 false])

/-- The table of `RD.RESTORE` (41 R119). -/
def restoreNext (blankLevel : Bool) (st : RdState) : RdState :=
  match st, blankLevel with
  | .ac, false => .aps
  | .ac, true => .bl
  | .bl, false => .aps
  | .bl, true => .bl
  | .blp, false => .ac
  | .blp, true => .bl
  | st, _ => st

/-- The effect of `RD.RESTORE` (41 R119). -/
def restore (blankLevel : Bool) (s : State) : State :=
  s.setRd { s.rd with state := restoreNext blankLevel s.rd.state }

/-- `RD.RESTORE blank_level` (41 R119). -/
def execRdRestore (blankLevel : Bool) (s : State) : Outcome := .next (restore blankLevel s)

/-- The case table of `RD.BLANK` (41 R120). -/
def blankNext (st : RdState) : RdState :=
  match st with
  | .aps => .bl
  | .ape => .bl
  | .ahe => .bl
  | .adb => .bl
  | .ac => .blp
  | .bl => .bl
  | .blp => .blp
  | .idle => .idle

/-- The effect of `RD.BLANK` (41 R120). -/
def blank (s : State) : State := s.setRd { s.rd with state := blankNext s.rd.state }

/-- `RD.BLANK` (41 R120). -/
def execRdBlank (s : State) : Outcome := .next (blank s)

/-- The answer of `RD.ISBLANKING` (41 R123). -/
def isBlanking (s : State) : Bool := s.rd.state == .bl || s.rd.state == .blp

/-- `RD.ISBLANKING` (41 R123). -/
def execRdIsblanking (s : State) : Outcome := .next (s.emit [.retBool (isBlanking s)])

/-- The answer of `RD.CANSEND` (41 R121): not mid-packet, and the silence strictly exceeded. -/
def readerCanSend (now silence : Time) (s : State) : Bool :=
  s.rd.state != .ahe && s.rd.state != .adb && decide (silence < elapsed s.cfg s.rd.lastTs now)

/-- `RD.CANSEND now silence` (41 R121). -/
def execRdCansend (now silence : Time) (s : State) : Outcome :=
  .next (s.emit [.retBool (readerCanSend now (time s.cfg silence) s)])

/-- What the watchdog measures from (41 R122, `WD_REF`). -/
def watchdogRef (s : State) : Time :=
  match s.cfg.wdRef with
  | .lastBit => s.rd.lastTs
  | .packetStart => s.rd.startTs

/-- `RD.WATCHDOG now` (41 R122). -/
def execRdWatchdog (now : Time) (s : State) : Outcome :=
  match s.rd.state with
  | .adb =>
    if s.cfg.wdTimeout < elapsed s.cfg (watchdogRef s) now then
      .next ((raise (.lost s.rd.startTs) s).setRd { s.rd with state := .aps })
    else .next s
  | _ => .next s

/-! ## Start and stop (41 R124, R125) -/

/-- The effect of `RD.START` (41 R124). -/
def readerStart (now : Time) (s : State) : State :=
  match s.rd.state with
  | .idle => s.setRd { s.rd with lastTs := time s.cfg now, state := .aps }
  | _ => s

/-- `RD.START now` (41 R124). -/
def execRdStart (now : Time) (s : State) : Outcome := .next (readerStart now s)

/-- The effect of `RD.STOP` (41 R125). -/
def readerStop (s : State) : State := s.setRd { s.rd with state := .idle }

/-- `RD.STOP` (41 R125). -/
def execRdStop (s : State) : Outcome := .next (readerStop s)

end Sys2Proof.Machine
end

