-- ==== Sys2Proof/Machine/Writer.lean ====
section
/-! DEFINITION. WRITER, the PacketWriter state machine (spec/42_writer.md). -/

namespace Sys2Proof.Machine

open Sys2Proof

/-! ## Starting a send (42 R140) -/

/-- The acceptance test of a send (42 R140, 43 R161 step 1): the Writer is started, the length is within
`1..CAPACITY`, no send is active. -/
def sendAcceptable (length : Nat) (s : State) : Bool :=
  s.wr.active && decide (1 ≤ length) && decide (length ≤ s.cfg.capacity) && !s.wr.txPending

/-- What an accepted send does (42 R140): bind `WBUF`, reset the cursors, emit the first pulse, schedule
the preamble. -/
def acceptSend (buffer : List Byte) (length : Nat) (now : Time) (s : State) : State :=
  scheduleAfter (interval s.cfg .preamble) (emitPulse now
    ((s.setWbuf (Memory.ofBytes 0 buffer)).setWr
      { s.wr with length := BitVec.ofNat 7 length, byteCursor := 0, bitCursor := 0, txPending := true,
                  state := .sh }))

/-- `WR.SEND buffer length now` (42 R140). A buffer with fewer bytes than an acceptable length is no
well-formed launch (20 R64, log 9). -/
def execWrSend (buffer : List Byte) (length : Nat) (now : Time) (s : State) : Outcome :=
  if sendAcceptable length s then
    if length ≤ buffer.length then .next ((acceptSend buffer length now s).emit [.retSend true])
    else .refused .shortBuffer
  else .next (s.emit [.retSend false])

/-! ## The timer-expiry event (42 R141 to R145) -/

/-- The header bit the Writer schedules next (42 R143). -/
def nextHeaderBit (s : State) : Bool :=
  headerBit (headerOf s.wr.length) s.wr.bitCursor (Config.freeBit s.free)

/-- Advance the counter of free values if the header cursor selects no bit (log 11). -/
def drawIfBeyondHeader (s : State) : State :=
  if s.wr.bitCursor.toNat < hdrBits then s else draw s

/-- `WR.EXPIRY` in `SendingHeader`, after the pulse (42 R143). -/
def expirySh (s : State) : State :=
  (scheduleAfter (interval s.cfg (symOf (nextHeaderBit s))) (drawIfBeyondHeader s)).setWr
    (if s.wr.bitCursor.toNat + 1 = hdrBits then { s.wr with bitCursor := 0, state := .sd }
     else { s.wr with bitCursor := s.wr.bitCursor + 1 })

/-- The Writer's fields after a data bit is scheduled (42 R144). -/
def advanceData (w : Writer) : Writer :=
  if w.bitCursor.toNat + 1 = byteBits then
    { w with bitCursor := 0, byteCursor := w.byteCursor + 1,
             state := if w.byteCursor.toNat + 1 = w.length.toNat then .idle else w.state }
  else { w with bitCursor := w.bitCursor + 1 }

/-- `MemRead(WBUF, i, 1)` (20 R62): the byte as it is now. Where the bound buffer has no such byte, which no
run reaches, the byte is a free value (00 R16, 20 R64; log 10). -/
def fetchWbuf (i : Nat) (s : State) : Byte := (s.wbuf.read i).getD (Config.freeByte s.free)

/-- Advance the counter of free values if `WBUF` has no byte at the index (log 10). -/
def drawIfAbsent (i : Nat) (s : State) : State := if (s.wbuf.read i).isNone then draw s else s

/-- `WR.EXPIRY` in `SendingData`, after the pulse (42 R144): the byte is read live (20 R72). -/
def expirySd (s : State) : State :=
  let v := fetchWbuf s.wr.byteCursor.toNat s
  (scheduleAfter (interval s.cfg (symOf (dataBit v s.wr.bitCursor)))
    (drawIfAbsent s.wr.byteCursor.toNat s)).setWr (advanceData s.wr)

/-- `WR.EXPIRY` in `Idle` with a send pending, after the pulse: completion (42 R145). -/
def expiryIdle (now : Time) (s : State) : State :=
  cancelTimer ((raise .sent s).setWr { s.wr with lastCompletionTs := time s.cfg now, txPending := false })

/-- A timer expiry delivered to the Writer (42 R141): the gate, then the pulse first (R142). -/
def expiry (now : Time) (s : State) : State :=
  if s.wr.active && s.wr.txPending then
    let p := emitPulse now (fireTimer s)
    match s.wr.state with
    | .sh => expirySh p
    | .sd => expirySd p
    | .idle => expiryIdle now p
  else fireTimer s

/-- `WR.EXPIRY now` (42 R141). -/
def execWrExpiry (now : Time) (s : State) : Outcome := .next (expiry now s)

/-! ## Start and stop (42 R146, R147) -/

/-- The effect of `WR.START` (42 R146). -/
def writerStart (now : Time) (s : State) : State :=
  if s.wr.active then s
  else s.setWr { s.wr with active := true, state := .idle, txPending := false,
                           lastCompletionTs := time s.cfg now }

/-- `WR.START now` (42 R146). -/
def execWrStart (now : Time) (s : State) : Outcome := .next (writerStart now s)

/-- The effect of `WR.STOP` (42 R147). -/
def writerStop (s : State) : State :=
  cancelTimer (s.setWr { s.wr with active := false, state := .idle, txPending := false })

/-- `WR.STOP` (42 R147). -/
def execWrStop (s : State) : Outcome := .next (writerStop s)

end Sys2Proof.Machine
end

