-- ==== Sys2Proof/Machine/Arbiter.lean ====
section
/-! DEFINITION. ARBITER, the half-duplex policy and the driver-facing operations (spec/43_arbiter.md). -/

namespace Sys2Proof.Machine

open Sys2Proof

/-- The link is started: the Writer active and the Reader not `Idle` (43 R160, R164). -/
def linkStarted (s : State) : Bool := s.wr.active && s.rd.state != .idle

/-- The answer of `LK.CANSEND` (43 R160). -/
def linkCanSend (now : Time) (s : State) : Bool :=
  linkStarted s && !isBlanking s && readerCanSend now s.cfg.rxSilence s &&
    decide (s.cfg.txSilence < elapsed s.cfg s.wr.lastCompletionTs now)

/-- `LK.CANSEND now` (43 R160). -/
def execLkCansend (now : Time) (s : State) : Outcome := .next (s.emit [.retBool (linkCanSend now s)])

/-- `LK.SEND buffer length now` (43 R161): the Writer's acceptance test first, then blank, then send. -/
def execLkSend (buffer : List Byte) (length : Nat) (now : Time) (s : State) : Outcome :=
  if sendAcceptable length s then
    if length ≤ buffer.length then
      .next ((acceptSend buffer length now (blank (s.setTxBlank true))).emit [.retSend true])
    else .refused .shortBuffer
  else .next (s.emit [.retSend false])

/-- `LK.SERVICE` step 1: the lost signal (43 R162). -/
def serviceLost (s : State) : State :=
  if s.sig.lostFlag then consume (.lost s.sig.lostTs) s else s

/-- `LK.SERVICE` step 2: the received signal (43 R162). -/
def serviceReceived (s : State) : State :=
  if s.sig.receivedFlag then consume (.received s.sig.receivedTs s.sig.receivedLen) s else s

/-- The end of blanking, unless a new send is in flight (43 R162 step 3, item iii). -/
def endBlanking (s : State) : State :=
  if s.wr.txPending then s else restore false (s.setTxBlank false)

/-- `LK.SERVICE` step 3: the sent signal (43 R162). The restore precedes the callback. -/
def serviceSent (s : State) : State :=
  if s.sig.sentFlag then consume .sent (endBlanking s) else s

/-- `LK.SERVICE` (43 R162): lost, then received, then sent. -/
def execLkService (s : State) : Outcome := .next (serviceSent (serviceReceived (serviceLost s)))

/-- `LK.RESTORE` (43 R163). -/
def execLkRestore (s : State) : Outcome := .next (restore s.txBlank s)

/-- `LK.START now` (43 R164). -/
def execLkStart (now : Time) (s : State) : Outcome :=
  if linkStarted s then .next s
  else
    let p := (writerStart now (readerStart now s)).setTxBlank false
    .next (p.setSig p.sig.clearAll)

/-- `LK.STOP` (43 R165). -/
def execLkStop (s : State) : Outcome := .next ((readerStop (writerStop s)).setTxBlank false)

end Sys2Proof.Machine
end

