-- ==== Sys2Proof/Machine/Wire.lean ====
section
/-! DEFINITION. The wire format as stimuli of the Reader (30 R80 to R88): the four wire symbols and the
frame of the opcode table, with the shorthands `FEED` and `RUNTX` of 30 R93. -/

namespace Sys2Proof.Machine

open Sys2Proof

/-- A wire symbol reaches the Reader as the pulse that closes an interval of `d` microseconds, measured as
the Reader measures it: from `rd.last_ts` (10 R24, log 13). -/
def closeInterval (d : Time) (s : State) : State := pulse (s.rd.lastTs + d) s

/-- `SYM.ZERO` (30 R80): the interval `T_ZERO`. -/
def execSymZero (s : State) : Outcome := .next (closeInterval (interval s.cfg .zero) s)

/-- `SYM.ONE` (30 R80): the interval `T_ONE`. -/
def execSymOne (s : State) : Outcome := .next (closeInterval (interval s.cfg .one) s)

/-- `SYM.PREAMBLE` (30 R80): the interval `T_PRE`. -/
def execSymPreamble (s : State) : Outcome := .next (closeInterval (interval s.cfg .preamble) s)

/-- `SYM.INVALID d` (30 R80): any interval `d` that matches no window; what the Reader does with it is
30 R88 (log 14). -/
def execSymInvalid (d : Time) (s : State) : Outcome :=
  if matchesNoWindow s.cfg (time s.cfg d) then .next (closeInterval (time s.cfg d) s)
  else .refused .notInvalidInterval

/-- `FEED` (30 R93): a pulse at `t`, then one after each gap. -/
def feed (t : Time) (gaps : List Time) (s : State) : State :=
  match gaps with
  | [] => pulse t s
  | g :: rest => feed (t + g) rest (pulse t s)

/-- The nominal intervals of a bit sequence (30 R81, R82). -/
def bitGaps (c : Cfg) (bits : List Bool) : List Time := bits.map fun b => interval c (symOf b)

/-- The bits of a frame after its preamble: the 6-bit header, then the bytes in order, each most
significant bit first (30 R82, R84, R85). -/
def frameBits (bytes : List Byte) : List Bool :=
  bitsMsbFirst (headerOf (BitVec.ofNat 7 bytes.length)) ++ bytes.flatMap bitsMsbFirst

/-- The `8·L + 7` intervals of a frame in time order (30 R82). -/
def frameGaps (c : Cfg) (bytes : List Byte) : List Time :=
  interval c .preamble :: bitGaps c (frameBits bytes)

/-- `FRAME t bytes` (30 R82): the `8·L + 8` pulses of the frame of `bytes`, the first at `t`, reach the
Reader with nominal intervals and nothing between them (log 15). -/
def execFrame (t : Time) (bytes : List Byte) (s : State) : Outcome :=
  if 1 ≤ bytes.length ∧ bytes.length ≤ 2 ^ hdrBits then .next (feed t (frameGaps s.cfg bytes) s)
  else .refused .frameLength

/-- `RUNTX` (30 R93): up to `n` expiries, each delivered exactly when the armed timer asks for it, `now`
being the time of the operation that armed it. -/
def runTx (n : Nat) (now : Time) (s : State) : State :=
  match n with
  | 0 => s
  | n + 1 =>
    if s.tmr.armed then runTx n (now + s.tmr.delay) (expiry (now + s.tmr.delay) s) else s

end Sys2Proof.Machine
end

