-- ==== Sys2Proof/Machine/Dispatch.lean ====
section
/-! DEFINITION. One arm per instruction: which meaning it has. -/

namespace Sys2Proof.Machine

open Sys2Proof

def exec (i : Instr) (s : State) : Host.Outcome State Fault Refusal :=
  match i with
  | .classify d => Sys2Proof.Machine.execClassify d s
  | .ispreamble d => Sys2Proof.Machine.execIspreamble d s
  | .interval sym => Sys2Proof.Machine.execInterval sym s
  | .rdStart now => Sys2Proof.Machine.execRdStart now s
  | .rdStop => Sys2Proof.Machine.execRdStop s
  | .rdPulse t => Sys2Proof.Machine.execRdPulse t s
  | .rdHasincoming => Sys2Proof.Machine.execRdHasincoming s
  | .rdRestore blankLevel => Sys2Proof.Machine.execRdRestore blankLevel s
  | .rdBlank => Sys2Proof.Machine.execRdBlank s
  | .rdIsblanking => Sys2Proof.Machine.execRdIsblanking s
  | .rdCansend now silence => Sys2Proof.Machine.execRdCansend now silence s
  | .rdWatchdog now => Sys2Proof.Machine.execRdWatchdog now s
  | .wrStart now => Sys2Proof.Machine.execWrStart now s
  | .wrStop => Sys2Proof.Machine.execWrStop s
  | .wrSend buffer length now => Sys2Proof.Machine.execWrSend buffer length now s
  | .wrExpiry now => Sys2Proof.Machine.execWrExpiry now s
  | .lkStart now => Sys2Proof.Machine.execLkStart now s
  | .lkStop => Sys2Proof.Machine.execLkStop s
  | .lkCansend now => Sys2Proof.Machine.execLkCansend now s
  | .lkSend buffer length now => Sys2Proof.Machine.execLkSend buffer length now s
  | .lkService => Sys2Proof.Machine.execLkService s
  | .lkRestore => Sys2Proof.Machine.execLkRestore s
  | .symZero => Sys2Proof.Machine.execSymZero s
  | .symOne => Sys2Proof.Machine.execSymOne s
  | .symPreamble => Sys2Proof.Machine.execSymPreamble s
  | .symInvalid d => Sys2Proof.Machine.execSymInvalid d s
  | .frame t bytes => Sys2Proof.Machine.execFrame t bytes s

end Sys2Proof.Machine
end

