-- ==== Sys2Proof/WellFormed.lean ====
section
/-! DEFINITION. When an instruction is well formed: its operands are values of the operand formats of
30 R90 that a record of the stimulus stream can carry (log 2), a send comes with as many bytes as its
length (20 R64), and a frame has 1 to 2^`HDR_BITS` bytes (30 R82, R84). -/

namespace Sys2Proof

/-- The bound of a time or length operand in a record: 8 bytes (log 2). -/
abbrev operandBound : Nat := 2 ^ 64

/-- The most bytes a buffer operand carries in a record: a one-byte count (log 2). -/
abbrev bufferBound : Nat := 255

/-- The check of a send's operands. -/
def sendOperandsOk (buffer : List Byte) (length : Nat) (now : Time) : Bool :=
  decide (buffer.length ≤ bufferBound) && decide (length ≤ buffer.length) && decide (now < operandBound)

/-- The well-formed instructions. -/
def Instr.wellFormed : Instr → Bool
  | .classify d => decide (d < operandBound)
  | .ispreamble d => decide (d < operandBound)
  | .interval _ => true
  | .rdStart now => decide (now < operandBound)
  | .rdStop => true
  | .rdPulse t => decide (t < operandBound)
  | .rdHasincoming => true
  | .rdRestore _ => true
  | .rdBlank => true
  | .rdIsblanking => true
  | .rdCansend now silence => decide (now < operandBound) && decide (silence < operandBound)
  | .rdWatchdog now => decide (now < operandBound)
  | .wrStart now => decide (now < operandBound)
  | .wrStop => true
  | .wrSend buffer length now => sendOperandsOk buffer length now
  | .wrExpiry now => decide (now < operandBound)
  | .lkStart now => decide (now < operandBound)
  | .lkStop => true
  | .lkCansend now => decide (now < operandBound)
  | .lkSend buffer length now => sendOperandsOk buffer length now
  | .lkService => true
  | .lkRestore => true
  | .symZero => true
  | .symOne => true
  | .symPreamble => true
  | .symInvalid d => decide (d < operandBound)
  | .frame t bytes => decide (t < operandBound) && decide (1 ≤ bytes.length) &&
      decide (bytes.length ≤ 2 ^ hdrBits)

/-- The host records a stream can carry: an index in 8 bytes. -/
def HostEvent.wellFormed : HostEvent → Bool
  | .powerOn => true
  | .callerStore i _ => decide (i < operandBound)
  | .consumerLoad i => decide (i < operandBound)
  | .consumerStore i _ => decide (i < operandBound)

end Sys2Proof
end

