-- ==== Sys2Proof/Decode.lean ====
section
/-! DEFINITION. The stimulus records: decoder, then encoder. 30 R89 gives an operation a 6-bit code and
R90 its operands as named fields with no binary encoding; the record around them is the model's own
(DESIGN CHOICE, log 2). The first byte of a record holds its format in bits 7..6 and a code in bits 5..0:
format 0 is `OP6` with the operation's code (R89), format 1 is `INTERVAL` with the symbol's code (R90),
format 2 is `FRAME` with the 6-bit header value `L − 1` (R84), format 3 is a host record. Operands follow,
each number with its least significant byte first. -/

namespace Sys2Proof

/-- The bytes of a time, length or index operand. -/
abbrev operandBytes : Nat := 8

/-- The number whose bytes are given, the least significant first. -/
def leNat : List Byte → Nat
  | [] => 0
  | b :: rest => b.toNat + 256 * leNat rest

/-- The `k` low bytes of a number, the least significant first. -/
def leBytes : Nat → Nat → List Byte
  | 0, _ => []
  | k + 1, n => BitVec.ofNat 8 n :: leBytes k (n / 256)

/-- The first `k` bytes of a stream and what follows them, if there are that many. -/
def takeBytes : Nat → List Byte → Option (List Byte × List Byte)
  | 0, bs => some ([], bs)
  | _ + 1, [] => none
  | k + 1, b :: bs =>
    match takeBytes k bs with
    | none => none
    | some (xs, rest) => some (b :: xs, rest)

/-- What the front of a stimulus stream reads as. -/
inductive Decoded where
  /-- an instruction, and the stream after it -/
  | instr (i : Instr) (rest : List Byte)
  /-- an action of the host, and the stream after it -/
  | host (h : HostEvent) (rest : List Byte)
  /-- a first byte that names no operation, symbol or host record (30 R91) -/
  | reserved (firstByte : Nat)
  /-- an operand that is cut short or is no operand value -/
  | malformed
deriving DecidableEq, Repr

/-- Read a number operand of 8 bytes and go on with it. -/
def withNum (bs : List Byte) (k : Nat → List Byte → Decoded) : Decoded :=
  match takeBytes operandBytes bs with
  | none => .malformed
  | some (xs, rest) => k (leNat xs) rest

/-- Read a one-byte operand and go on with it. -/
def withByte (bs : List Byte) (k : Byte → List Byte → Decoded) : Decoded :=
  match bs with
  | [] => .malformed
  | b :: rest => k b rest

/-- Read a counted list of bytes and go on with it. -/
def withBuffer (bs : List Byte) (k : List Byte → List Byte → Decoded) : Decoded :=
  withByte bs fun n rest =>
    match takeBytes n.toNat rest with
    | none => .malformed
    | some (xs, rest') => k xs rest'

/-- The operand of `INTERVAL` (30 R90: Zero 0, One 1, Preamble 2); no other code is an operand value. -/
def withTxSymbol (bs : List Byte) (k : TxSymbol → List Byte → Decoded) : Decoded :=
  withByte bs fun b rest =>
    match b.toNat with
    | 0 => k .zero rest
    | 1 => k .one rest
    | 2 => k .preamble rest
    | _ => .malformed

/-- The one-bit operand `blank_level` (30 R90). -/
def withBit (bs : List Byte) (k : Bool → List Byte → Decoded) : Decoded :=
  withByte bs fun b rest =>
    match b.toNat with
    | 0 => k false rest
    | 1 => k true rest
    | _ => .malformed

/-- An `OP6` record: the operation codes of 30 R89. -/
def decodeOp (code : Nat) (bs : List Byte) : Decoded :=
  match code with
  | 0x00 => withNum bs fun d r => .instr (.classify d) r
  | 0x01 => withNum bs fun d r => .instr (.ispreamble d) r
  | 0x02 => withTxSymbol bs fun sym r => .instr (.interval sym) r
  | 0x10 => withNum bs fun now r => .instr (.rdStart now) r
  | 0x11 => .instr .rdStop bs
  | 0x12 => withNum bs fun t r => .instr (.rdPulse t) r
  | 0x13 => .instr .rdHasincoming bs
  | 0x14 => withBit bs fun b r => .instr (.rdRestore b) r
  | 0x15 => .instr .rdBlank bs
  | 0x16 => .instr .rdIsblanking bs
  | 0x17 => withNum bs fun now r => withNum r fun silence r' => .instr (.rdCansend now silence) r'
  | 0x18 => withNum bs fun now r => .instr (.rdWatchdog now) r
  | 0x20 => withNum bs fun now r => .instr (.wrStart now) r
  | 0x21 => .instr .wrStop bs
  | 0x22 => withNum bs fun len r => withNum r fun now r' => withBuffer r' fun buf r'' =>
      .instr (.wrSend buf len now) r''
  | 0x23 => withNum bs fun now r => .instr (.wrExpiry now) r
  | 0x30 => withNum bs fun now r => .instr (.lkStart now) r
  | 0x31 => .instr .lkStop bs
  | 0x32 => withNum bs fun now r => .instr (.lkCansend now) r
  | 0x33 => withNum bs fun len r => withNum r fun now r' => withBuffer r' fun buf r'' =>
      .instr (.lkSend buf len now) r''
  | 0x34 => .instr .lkService bs
  | 0x35 => .instr .lkRestore bs
  | code => .reserved code

/-- An `INTERVAL` record: the symbol codes of 30 R90. -/
def decodeSymbol (code : Nat) (bs : List Byte) : Decoded :=
  match code with
  | 0 => .instr .symZero bs
  | 1 => .instr .symOne bs
  | 2 => .instr .symPreamble bs
  | 3 => withNum bs fun d r => .instr (.symInvalid d) r
  | code => .reserved (0x40 + code)

/-- A `FRAME` record: header value `h`, the time of the first pulse, `h + 1` bytes (30 R84). -/
def decodeFrame (h : Nat) (bs : List Byte) : Decoded :=
  withNum bs fun t r =>
    match takeBytes (h + 1) r with
    | none => .malformed
    | some (bytes, r') => .instr (.frame t bytes) r'

/-- A host record. -/
def decodeHost (code : Nat) (bs : List Byte) : Decoded :=
  match code with
  | 0 => .host .powerOn bs
  | 1 => withNum bs fun i r => withByte r fun v r' => .host (.callerStore i v) r'
  | 2 => withNum bs fun i r => .host (.consumerLoad i) r
  | 3 => withNum bs fun i r => withByte r fun v r' => .host (.consumerStore i v) r'
  | code => .reserved (0xC0 + code)

/-- The decoder, total on any bytes. -/
def decode (bs : List Byte) : Decoded :=
  match bs with
  | [] => .malformed
  | b :: rest =>
    match b.toNat / 64 with
    | 0 => decodeOp (b.toNat % 64) rest
    | 1 => decodeSymbol (b.toNat % 64) rest
    | 2 => decodeFrame (b.toNat % 64) rest
    | _ => decodeHost (b.toNat % 64) rest

/-! ## The encoder -/

/-- A number operand. -/
def encodeNum (n : Nat) : List Byte := leBytes operandBytes n

/-- The operand of `INTERVAL` (30 R90). -/
def encodeTxSymbol : TxSymbol → Byte
  | .zero => 0
  | .one => 1
  | .preamble => 2

/-- A counted list of bytes. -/
def encodeBuffer (bytes : List Byte) : List Byte := BitVec.ofNat 8 bytes.length :: bytes

/-- The record of an instruction. -/
def encode : Instr → List Byte
  | .classify d => 0x00#8 :: encodeNum d
  | .ispreamble d => 0x01#8 :: encodeNum d
  | .interval sym => [0x02#8, encodeTxSymbol sym]
  | .rdStart now => 0x10#8 :: encodeNum now
  | .rdStop => [0x11#8]
  | .rdPulse t => 0x12#8 :: encodeNum t
  | .rdHasincoming => [0x13#8]
  | .rdRestore b => [0x14#8, if b then 1#8 else 0#8]
  | .rdBlank => [0x15#8]
  | .rdIsblanking => [0x16#8]
  | .rdCansend now silence => 0x17#8 :: (encodeNum now ++ encodeNum silence)
  | .rdWatchdog now => 0x18#8 :: encodeNum now
  | .wrStart now => 0x20#8 :: encodeNum now
  | .wrStop => [0x21#8]
  | .wrSend buf len now => 0x22#8 :: (encodeNum len ++ encodeNum now ++ encodeBuffer buf)
  | .wrExpiry now => 0x23#8 :: encodeNum now
  | .lkStart now => 0x30#8 :: encodeNum now
  | .lkStop => [0x31#8]
  | .lkCansend now => 0x32#8 :: encodeNum now
  | .lkSend buf len now => 0x33#8 :: (encodeNum len ++ encodeNum now ++ encodeBuffer buf)
  | .lkService => [0x34#8]
  | .lkRestore => [0x35#8]
  | .symZero => [0x40#8]
  | .symOne => [0x41#8]
  | .symPreamble => [0x42#8]
  | .symInvalid d => 0x43#8 :: encodeNum d
  | .frame t bytes => BitVec.ofNat 8 (0x80 + (bytes.length - 1)) :: (encodeNum t ++ bytes)

/-- The record of a host action. -/
def encodeHost : HostEvent → List Byte
  | .powerOn => [0xC0#8]
  | .callerStore i v => 0xC1#8 :: (encodeNum i ++ [v])
  | .consumerLoad i => 0xC2#8 :: encodeNum i
  | .consumerStore i v => 0xC3#8 :: (encodeNum i ++ [v])

/-! ## The words of the opcode table -/

/-- The most bytes a record has: a send with a buffer of 255 bytes. -/
abbrev longestRecord : Nat := 273

/-- The record whose low `nbits` bits are `w` and whose other bits are 0. The table keys its `OP6` rows and
its `INTERVAL` rows by the same small numbers; a row of at most 2 bits is read as an `INTERVAL` row, every
other as an `OP6` row (log 3). -/
def tableRecord (nbits w : Nat) : List Byte :=
  (if nbits ≤ 2 then [BitVec.ofNat 8 (0x40 + w % 4)] else leBytes ((nbits + 7) / 8) w) ++
    List.replicate longestRecord 0#8

/-- The instruction the decoder reads from a word of the opcode table. -/
def decodeTableWord (nbits w : Nat) : Option Instr :=
  match decode (tableRecord nbits w) with
  | .instr i _ => some i
  | .host _ _ => none
  | .reserved _ => none
  | .malformed => none

end Sys2Proof
end

