-- ==== Sys2Proof/Machine/Host.lean ====
section
/-! DEFINITION. What the host does to a device other than issuing an operation (70 R210, R215, R216;
log 8, 19), and what the front of the stimulus stream asks for (log 1). -/

namespace Sys2Proof.Machine

open Sys2Proof

/-- Power-on (70 R210): every field of the device takes its reset value under the same configuration. The
environment's own records (the trace, the stimuli, the free values drawn) go on (log 19). -/
def hostPowerOn (s : State) : State :=
  (((State.powerOn s.cfg).setStim s.stim).setFree s.free).emit s.trace

/-- The caller stores into the bound outgoing buffer (20 R68, 70 R215): every later fetch sees the new
byte. -/
def hostCallerStore (i : Nat) (v : Byte) (s : State) : Outcome :=
  match s.wbuf.read i with
  | none => .fault (.wbufOutOfRange i)
  | some _ => .next (s.setWbuf (s.wbuf.write i v))

/-- The consumer owns `RBUF` in `AwaitingConsumption` and `BlankedWithPendingPacket` (20 R67). -/
def consumerOwns (s : State) : Bool := s.rd.state == .ac || s.rd.state == .blp

/-- Nobody may write `RBUF` in `Idle` and `Blanked` (20 R67). -/
def nobodyOwns (s : State) : Bool := s.rd.state == .idle || s.rd.state == .bl

/-- The byte of the packet held at an index, if it has one (20 R61, R67). -/
def packetByte (i : Nat) (s : State) : Option Byte :=
  if consumerOwns s && decide (i < s.rd.length.toNat) then s.rbuf.read i else none

/-- The consumer loads a byte of `RBUF`: a byte of the packet it holds (20 R61, R67). Outside its ownership
(70 R216, 93 H5: a byte of an earlier or a partial packet, 'any value') and where the packet held has no
byte (93 U2) the byte is a free value (log 7, 8). -/
def hostConsumerLoad (i : Nat) (s : State) : Outcome :=
  if i < s.cfg.capacity then
    match packetByte i s with
    | some v => .next (s.emit [.loaded i v])
    | none => .next (draw (s.emit [.loaded i (Config.freeByte s.free)]))
  else .fault (.rbufOutOfRange i)

/-- The consumer stores into `RBUF`. While it owns the buffer that is its right (20 R60). While the Reader
decodes it is the race of 70 R216 and 93 H4, in which the store serialised last stands. In `Idle` and
`Blanked` it is refused (20 R67; log 8). -/
def hostConsumerStore (i : Nat) (v : Byte) (s : State) : Outcome :=
  if nobodyOwns s then .refused .notOwner
  else if i < s.cfg.capacity then .next (storeRbuf i v s)
  else .fault (.rbufOutOfRange i)

/-- The meaning of a host action. -/
def hostStep (h : HostEvent) (s : State) : Outcome :=
  match h with
  | .powerOn => .next (hostPowerOn s)
  | .callerStore i v => hostCallerStore i v s
  | .consumerLoad i => hostConsumerLoad i s
  | .consumerStore i v => hostConsumerStore i v s

/-- What the front of the stimulus stream is. -/
def fetch (s : State) : Decoded := decode s.stim

/-- A device runs only under a configuration that 00 R9 admits; every other is refused (93 H11). The block
itself checks nothing (70 R230), so the check stands around its operations and not in them (log 27). -/
def underAdmitted (c : Cfg) (o : Outcome) : Outcome := if c.Admitted then o else .refused .configuration

end Sys2Proof.Machine
end

