-- ==== Sys2Proof/Machine/Step.lean ====
section
/-! DEFINITION. One step of the machine: the record at the front of the stimulus stream (log 1). -/

namespace Sys2Proof.Machine

open Sys2Proof

/-- One step. With no stimulus nothing happens (10 R43, 00 R5: the block acts only when an event or a call
reaches it); a code that names no operation is refused (30 R91), and so is a configuration that
00 R9 does not admit (93 H11). -/
def step (s : State) : Host.Outcome State Fault Refusal :=
  underAdmitted s.cfg
    (if s.stim.isEmpty then .next s
     else
      match fetch s with
      | .instr i rest => exec i (s.setStim rest)
      | .host h rest => hostStep h (s.setStim rest)
      | .reserved b => .refused (.reservedCode b)
      | .malformed => .refused .badRecord)

/-- The state with one word of the opcode table at the front of the stimulus stream (log 1, 3). -/
def State.withFetchWord (s : State) (nbits w : Nat) : State := s.setStim (tableRecord nbits w)

end Sys2Proof.Machine
end

