-- ==== Sys2Proof/Machine/Network.lean ====
section
/-! DEFINITION. Several devices on one wire (43 R168, R169): every pulse any of them emits reaches the Reader
of every one of them, the emitter's included, with its emission time and no latency. Times on the wire are
the host's own readings, not yet reduced to any device's `TSW` bits (60 R194).

A pulse on the wire waits at each device until time has passed it, or until the environment has the device
hear it. So every device hears its pulses in order of time (43 R169), and what happens at one instant happens
in either order (60 R190; log 23). -/

namespace Sys2Proof.Machine

open Sys2Proof

/-- What a capture hardware makes of a pulse that it cannot tell from the last one (43 R169 admits one event
and two). -/
inductive Capture where
  /-- two events: this pulse is an event of its own -/
  | apart
  /-- one event: this pulse is lost in the last one; `rearm` says whether the next pulse is measured from
  this one or from the event reported -/
  | merged (rearm : Bool)
deriving DecidableEq, Repr

/-- A device with its capture hardware. THE MODEL'S CHOICES (43 R169 is silent; log 23): each device has a
resolution of its own and captures of its own, so that one may merge two pulses that another sees apart. -/
structure Node where
  /-- the device -/
  device : State
  /-- two pulses closer together than this cannot be told apart; two of the same instant never can -/
  resolution : Time
  /-- where the capture hardware measures the next pulse from -/
  lastCapture : Option Time
  /-- the FREE outcomes of the coincident pulses to come, next first -/
  captures : List Capture
  /-- the pulses on the line that the device has not heard yet, in order of time -/
  line : List Time
deriving DecidableEq, Repr

/-- The devices on a wire. -/
structure Net where
  /-- the devices with their capture hardware -/
  nodes : List Node
  /-- the latest reading at which anything happened -/
  clock : Time
deriving DecidableEq, Repr

/-- The three outcomes of an action of the network. -/
abbrev NetOutcome := Host.Outcome Net Fault Refusal

/-- The device's capture hardware cannot tell a pulse at `t` from the last one: they are of one instant or
closer together than it resolves, on its own `TSW`-bit counter (43 R169, 00 R11). -/
def coincides (m : Node) (t : Time) : Bool :=
  match m.lastCapture with
  | none => false
  | some p =>
    decide (elapsed m.device.cfg p t = 0) || decide (elapsed m.device.cfg p t < m.resolution)

/-- A pulse at `t` is merged into the device's last event: it cannot be told apart, and the next free
outcome says one event. -/
def merges (m : Node) (t : Time) : Bool :=
  coincides m t && match m.captures with
    | .merged _ :: _ => true
    | .apart :: _ => false
    | [] => false

/-- The capture hardware after a pulse at `t`. THE MODEL'S CHOICE (43 R169 is silent; log 28): whether a
merged pulse moves the point the next one is measured from is free. With no outcome left there are two
events. -/
def captureAfter (t : Time) (m : Node) : Node :=
  if coincides m t then
    match m.captures with
    | .merged false :: rest => { m with captures := rest }
    | .merged true :: rest => { m with captures := rest, lastCapture := some t }
    | .apart :: rest => { m with captures := rest, lastCapture := some t }
    | [] => { m with lastCapture := some t }
  else { m with lastCapture := some t }

/-- A device hears a pulse at `t`: one `RD.PULSE t`, or nothing if its capture hardware merges it. THE
MODEL'S CHOICE (43 R169 is silent; log 28): a merged event keeps the time of its first pulse. -/
def Node.hear (t : Time) (m : Node) : Node :=
  { captureAfter t m with device := if merges m t then m.device else pulse t m.device }

/-- A pulse at `t` among those on the line, after every one that is not later. -/
def insertTime (t : Time) (line : List Time) : List Time :=
  match line with
  | [] => [t]
  | p :: rest => if p ≤ t then p :: insertTime t rest else t :: p :: rest

/-- A pulse at `t` comes onto the line of one device. -/
def Node.post (t : Time) (m : Node) : Node := { m with line := insertTime t m.line }

/-- Time passes to `t` at a device: it hears every pulse on its line that lies before. -/
def Node.hearBefore (t : Time) (m : Node) : Node :=
  (m.line.takeWhile fun p => decide (p < t)).foldl (fun m p => m.hear p)
    { m with line := m.line.dropWhile fun p => decide (p < t) }

/-- A device hears the first pulse on its line, if the clock has reached it. -/
def Node.hearNext (clock : Time) (m : Node) : Node :=
  match m.line with
  | [] => m
  | p :: rest => if p ≤ clock then { m with line := rest }.hear p else m

/-- A pulse comes onto the wire at `t`, emitted by a device or noise: every device will hear it (43 R169). -/
def Net.post (t : Time) (n : Net) : Net := { n with nodes := n.nodes.map (Node.post t) }

/-- Time passes to `t`. With `t` behind the clock nothing happens. -/
def Net.advance (t : Time) (n : Net) : Net :=
  { nodes := n.nodes.map (Node.hearBefore t), clock := max n.clock t }

/-- Device `k` hears the next pulse that is due at it. With it the environment chooses the order of what
happens at one instant (60 R190). -/
def Net.deliver (k : Nat) (n : Net) : Net := { n with nodes := n.nodes.modify k (Node.hearNext n.clock) }

/-- The pulses a step of a device emitted. -/
def pulsesEmitted (before after : State) : Nat :=
  (after.trace.drop before.trace.length).countP fun o => match o with
    | .pulse _ => true
    | _ => false

/-- The wire carries `j` pulses emitted at `t`. -/
def Net.carry (j : Nat) (t : Time) (n : Net) : Net :=
  match j with
  | 0 => n
  | j + 1 => Net.carry j t (n.post t)

/-- A network runs only if 00 R9 admits the configuration of every device on it (93 H11; log 27). -/
def Net.underAdmitted (n : Net) (o : NetOutcome) : NetOutcome :=
  if ∀ m ∈ n.nodes, m.device.cfg.Admitted then o else .refused .configuration

/-- Noise: a pulse with no emitter (43 R169). -/
def Net.noise (t : Time) (n : Net) : NetOutcome := n.underAdmitted (.next ((n.advance t).post t))

/-- Where on the host's clock a pulse stands that comes `d` after the last one the Reader processed: the next
reading at which the counter shows `rd.last_ts + d`. THE MODEL'S CHOICE (log 20). -/
def nextReading (clock d : Time) (s : State) : Time := clock + elapsed s.cfg clock (s.rd.lastTs + d)

/-- The reading at which an instruction of a device happens, of a frame the first pulse's: its own, a wire
symbol's by `nextReading`, and of an instruction that is given none the clock's. -/
def readingOn (clock : Time) (i : Instr) (s : State) : Time :=
  match i with
  | .symZero => nextReading clock (interval s.cfg .zero) s
  | .symOne => nextReading clock (interval s.cfg .one) s
  | .symPreamble => nextReading clock (interval s.cfg .preamble) s
  | .symInvalid d => nextReading clock (time s.cfg d) s
  | i => (reading i).getD clock

/-- The times of the pulses that a frame from `t` puts on a line, after the first. -/
def laterPulses (t : Time) (gaps : List Time) : List Time :=
  match gaps with
  | [] => []
  | g :: rest => (t + g) :: laterPulses (t + g) rest

/-- What an instruction that runs at `t` leaves: the device after it, and on the wire what it emitted. A wire
symbol and a frame are pulses on this device's line alone, each at its own time; the symbol's is heard at once
(log 13, 15). THE MODEL'S CHOICE (43 R169 is silent; log 31): an `RD.PULSE` or a wire symbol that a device is
given directly is an event its capture hardware has already reported. It is not merged into an earlier pulse,
and `lastCapture` stays, so no pulse on the line is merged into it. -/
def Net.land (k : Nat) (i : Instr) (t : Time) (m : Node) (s : State) (n : Net) : Net :=
  let put (m' : Node) : Net := { n with nodes := n.nodes.set k m' }
  match i with
  | .symZero => put { m with device := pulse t m.device }
  | .symOne => put { m with device := pulse t m.device }
  | .symPreamble => put { m with device := pulse t m.device }
  | .symInvalid _ => put { m with device := pulse t m.device }
  | .frame _ bytes =>
    put ((t :: laterPulses t (frameGaps m.device.cfg bytes)).foldl (fun m p => m.post p) m)
  | _ => Net.carry (pulsesEmitted m.device s) t (put { m with device := s })

/-- Device `k` runs `i` at the reading `t`, which the clock has reached or passed. -/
def Net.run (k : Nat) (i : Instr) (t : Time) (n : Net) : NetOutcome :=
  match n.nodes[k]? with
  | none => .next n
  | some m =>
    match exec i m.device with
    | .fault r => .fault r
    | .refused r => .refused r
    | .next s => .next (n.land k i t m s)

/-- Device `k` runs `i`. Time passes to its reading first. A reading behind the clock breaks 60 R194 and is
defined all the same (60 R195, 93 H9): the instruction runs with it. A number with no device does nothing. -/
def Net.act (k : Nat) (i : Instr) (n : Net) : NetOutcome :=
  n.underAdmitted (match n.nodes[k]? with
    | none => .next n
    | some m =>
      let t := readingOn n.clock i m.device
      (n.advance t).run k i t)

end Sys2Proof.Machine
end

