-- ==== Sys2Proof/Safety.lean ====
section
/-! DEFINITION. What counts as a safe run, in the terms the claims use: the invariants of 10 R44, the form
of the state that every step keeps, the errors of 60 R180, the obligations of the host (spec/70, spec/93 H1
to H14), and the next-state tables that 41 R126 and 42 R150 give as reading aids. -/

namespace Sys2Proof.Machine

open Sys2Proof

/-! ## The form of the state -/

/-- Every timestamp is a `TSW`-bit value (00 R11, 10 R23, R24, R36, R38). -/
abbrev TimesFit (s : State) : Prop :=
  s.rd.startTs < 2 ^ s.cfg.tsw ∧ s.rd.lastTs < 2 ^ s.cfg.tsw ∧ s.wr.lastCompletionTs < 2 ^ s.cfg.tsw ∧
  s.sig.receivedTs < 2 ^ s.cfg.tsw ∧ s.sig.lostTs < 2 ^ s.cfg.tsw

/-- Both spaces are in canonical form, and `RBUF` holds no byte beyond `CAPACITY` (20 R60). -/
abbrev BuffersFit (s : State) : Prop :=
  s.rbuf.wf ∧ s.wbuf.wf ∧ ∀ x ∈ s.rbuf, x.1 < s.cfg.capacity

/-- An armed timer was asked for one of the three delays the block requests (60 R193). -/
abbrev DelayFits (s : State) : Prop :=
  s.tmr.armed = true → s.tmr.delay = s.cfg.tZero ∨ s.tmr.delay = s.cfg.tOne ∨ s.tmr.delay = s.cfg.tPre

/-- The form that every step keeps. -/
abbrev StateFits (s : State) : Prop := TimesFit s ∧ BuffersFit s ∧ DelayFits s

/-! ## The invariants of a device driven through the Arbiter (10 R44) -/

/-- 10 R44, items 1 to 7 in order. -/
abbrev LinkInvariants (s : State) : Prop :=
  (s.rd.state = .idle ↔ s.wr.active = false) ∧
  (s.txBlank = true → s.rd.state = .bl ∨ s.rd.state = .blp) ∧
  (s.wr.txPending = true → s.txBlank = true ∧ s.wr.active = true) ∧
  (s.wr.state = .sh ∨ s.wr.state = .sd → s.wr.txPending = true) ∧
  (s.wr.txPending = true ↔ s.tmr.armed = true) ∧
  ((s.rd.state = .adb → 1 ≤ s.rd.length.toNat ∧ s.rd.length.toNat ≤ s.cfg.capacity ∧
      s.rd.byteCursor.toNat < s.rd.length.toNat) ∧
   (s.rd.state = .ac ∨ s.rd.state = .blp → s.rd.byteCursor = s.rd.length)) ∧
  (s.wr.state = .sd → s.wr.byteCursor.toNat < s.wr.length.toNat)

/-- What else holds then: the cursors of a header (10 R29, R34), the capacity (00 R9), and that the caller
supplied every byte of the send in flight (20 R64). -/
abbrev LinkSupport (s : State) : Prop :=
  (1 ≤ s.cfg.capacity ∧ s.cfg.capacity ≤ 2 ^ hdrBits) ∧
  (s.rd.state = .ahe → s.rd.byteCursor = 0 ∧ s.rd.bitCursor.toNat < hdrBits) ∧
  (s.wr.state = .sh → s.wr.byteCursor = 0 ∧ s.wr.bitCursor.toNat < hdrBits ∧ 1 ≤ s.wr.length.toNat) ∧
  (s.wr.txPending = true → ∀ i < s.wr.length.toNat, s.wbuf.read i ≠ none)

/-- The invariant of a device that a host drives through the Arbiter. -/
abbrev LinkInv (s : State) : Prop := LinkInvariants s ∧ LinkSupport s

/-- The instructions of a host that follows the Arbiter protocol (10 R44): the `LK.*` operations, the polls,
the two events (wire symbols and frames are pulse events), and the queries that write nothing. -/
def inProtocol (i : Instr) : Bool :=
  match i with
  | .classify _ => true
  | .ispreamble _ => true
  | .interval _ => true
  | .rdStart _ => false
  | .rdStop => false
  | .rdPulse _ => true
  | .rdHasincoming => true
  | .rdRestore _ => false
  | .rdBlank => false
  | .rdIsblanking => true
  | .rdCansend _ _ => true
  | .rdWatchdog _ => true
  | .wrStart _ => false
  | .wrStop => false
  | .wrSend _ _ _ => false
  | .wrExpiry _ => true
  | .lkStart _ => true
  | .lkStop => true
  | .lkCansend _ => true
  | .lkSend _ _ _ => true
  | .lkService => true
  | .lkRestore => true
  | .symZero => true
  | .symOne => true
  | .symPreamble => true
  | .symInvalid _ => true
  | .frame _ _ => true

/-! ## Errors (60 R180) -/

/-- The four error conditions. -/
inductive LinkError where
  /-- `E_INVALID_INTERVAL` -/
  | invalidInterval
  /-- `E_OVERSIZED_LENGTH` -/
  | oversizedLength
  /-- `E_STUCK_PACKET` -/
  | stuckPacket
  /-- `E_SEND_MISUSE` -/
  | sendMisuse
deriving DecidableEq, Repr

/-- The error a pulse at `t` makes the Reader detect (60 R180, rows 1 to 4; R191 item 1: the interval is
judged before the length). -/
def pulseError (t : Time) (s : State) : Option LinkError :=
  let d := elapsed s.cfg s.rd.lastTs t
  match s.rd.state with
  | .ape => if isPreamble s.cfg d then none else some .invalidInterval
  | .ahe =>
    match bitOf (classify s.cfg d) with
    | none => some .invalidInterval
    | some b =>
      if s.rd.bitCursor.toNat + 1 = hdrBits ∧
          s.cfg.capacity < ((accumulate s.rd.asm b).setWidth 6).toNat + 1 then some .oversizedLength
      else none
  | .adb => if classify s.cfg d = .invalid then some .invalidInterval else none
  | _ => none

/-- The error an operation detects (60 R180). -/
def errorOf (i : Instr) (s : State) : Option LinkError :=
  match i with
  | .rdPulse t => pulseError t s
  | .rdWatchdog now =>
    if s.rd.state = .adb ∧ s.cfg.wdTimeout < elapsed s.cfg (watchdogRef s) now then some .stuckPacket
    else none
  | .wrSend _ length _ => if sendAcceptable length s then none else some .sendMisuse
  | .lkSend _ length _ => if sendAcceptable length s then none else some .sendMisuse
  | _ => none

/-! ## The host's obligations -/

/-- The Timer Service keeps its contract (42 R149, 60 R193): an expiry armed at `armedAt` is delivered at
`now = armedAt + delay + e` with `|e| ≤ JITTER`, on the `TSW`-bit counter (00 R11): `now` lies no more than
`JITTER` after or before the time asked for. -/
abbrev ExpiryOnTime (s : State) (armedAt now : Time) : Prop :=
  s.tmr.armed = true ∧
    (elapsed s.cfg (armedAt + s.tmr.delay) now ≤ s.cfg.jitter ∨
     elapsed s.cfg now (armedAt + s.tmr.delay) ≤ s.cfg.jitter)

/-- Expiries at the given times, one after another. -/
def expiries (ts : List Time) (s : State) : State :=
  match ts with
  | [] => s
  | t :: rest => expiries rest (expiry t s)

/-- Every one of those expiries keeps the contract, the first armed at `armedAt` and each later one at the
time of the one before it. THE MODEL'S CHOICE (log 30): that time is the actual one of the pulse before, as the
contract of 60 R193 has it, so an interval is off by its own `e` alone, by no more than `JITTER`; the last
sentence of 42 R149 and 70 R229 speak of `e_{k+1} − e_k`, which is up to twice that. -/
def ExpiriesOnTime (armedAt : Time) (ts : List Time) (s : State) : Prop :=
  match ts with
  | [] => True
  | t :: rest => ExpiryOnTime s armedAt t ∧ ExpiriesOnTime t rest (expiry t s)

/-- The codec of a configuration reads every nominal interval that is off by no more than `JITTER` (40 R107,
42 R149). THE MODEL'S CHOICE (log 30) is that an interval is off by no more than `JITTER`, and not by twice as
much. -/
abbrev JitterTolerated (c : Cfg) : Prop :=
  (∀ g, c.tZero ≤ g + c.jitter → g ≤ c.tZero + c.jitter → classify c g = .zero) ∧
  (∀ g, c.tOne ≤ g + c.jitter → g ≤ c.tOne + c.jitter → classify c g = .one) ∧
  (∀ g, c.tPre ≤ g + c.jitter → g ≤ c.tPre + c.jitter → isPreamble c g = true) ∧
  c.tZero + c.jitter < 2 ^ c.tsw ∧ c.tOne + c.jitter < 2 ^ c.tsw ∧ c.tPre + c.jitter < 2 ^ c.tsw

/-- The host's own readings of the counter, not reduced to `TSW` bits (60 R194): the latest it gave the
device, and those behind the device's three stamps. -/
structure Readings where
  latest : Time
  start : Time
  last : Time
  completion : Time
deriving DecidableEq, Repr

/-- The device's stamps are those readings modulo 2^`TSW`. -/
abbrev StampsRead (g : Readings) (s : State) : Prop :=
  time s.cfg g.start = s.rd.startTs ∧ time s.cfg g.last = s.rd.lastTs ∧
  time s.cfg g.completion = s.wr.lastCompletionTs

/-- The earlier readings whose difference to its operand an instruction computes (00 R11, 60 R194). -/
def comparedReadings (i : Instr) (s : State) (g : Readings) : List Time :=
  let interval := match s.rd.state with
    | .ape => [g.last]
    | .ahe => [g.last]
    | .adb => [g.last]
    | _ => []
  match i with
  | .rdPulse _ => interval
  | .frame _ _ => interval
  | .symZero => interval
  | .symOne => interval
  | .symPreamble => interval
  | .symInvalid _ => interval
  | .rdCansend _ _ => [g.last]
  | .rdWatchdog _ =>
    match s.rd.state, s.cfg.wdRef with
    | .adb, .lastBit => [g.last]
    | .adb, .packetStart => [g.start]
    | _, _ => []
  | .lkCansend _ => [g.last, g.completion]
  | _ => []

/-- The readings at which the first and the last thing of an instruction happen. THE MODEL'S CHOICE (log 20):
the pulse of a wire symbol stands its interval after the reading behind `rd.last_ts`, and the pulses of a frame
stand one interval after another. -/
def span (g : Readings) (i : Instr) (s : State) : Option (Time × Time) :=
  match i with
  | .symZero => some (g.last + s.cfg.tZero, g.last + s.cfg.tZero)
  | .symOne => some (g.last + s.cfg.tOne, g.last + s.cfg.tOne)
  | .symPreamble => some (g.last + s.cfg.tPre, g.last + s.cfg.tPre)
  | .symInvalid d => some (g.last + time s.cfg d, g.last + time s.cfg d)
  | .frame t bytes => some (t, t + (frameGaps s.cfg bytes).sum)
  | i => (reading i).map fun t => (t, t)

/-- The environment's clock keeps 60 R194 (92 D25; 93 H9; 70 R226) at one instruction: its first reading is not
before the latest one, and fewer than 2^`TSW` microseconds lie between it and each reading it is compared
with. -/
abbrev OnTheClock (g : Readings) (i : Instr) (s : State) : Prop :=
  ∀ first last, span g i s = some (first, last) →
    g.latest ≤ first ∧ ∀ r ∈ comparedReadings i s g, r ≤ first ∧ first < r + 2 ^ s.cfg.tsw

/-- The host's readings after a pulse at `t`: a Reader that decodes writes `rd.last_ts`, and `rd.start_ts` in
the steps that lead to `AwaitingPreambleEnd` (41 R111 to R115, R117). -/
def Readings.hear (t : Time) (g : Readings) (s : State) : Readings :=
  let start := if (pulse t s).rd.state = .ape then t else g.start
  match s.rd.state with
  | .aps => { g with latest := t, last := t, start := start }
  | .ape => { g with latest := t, last := t, start := start }
  | .ahe => { g with latest := t, last := t, start := start }
  | .adb => { g with latest := t, last := t, start := start }
  | _ => { g with latest := t }

/-- The host's readings after a pulse at `t` and one after each gap. -/
def Readings.feed (t : Time) (gaps : List Time) (g : Readings) (s : State) : Readings :=
  match gaps with
  | [] => g.hear t s
  | d :: rest => Readings.feed (t + d) rest (g.hear t s) (pulse t s)

/-- The host's readings after an instruction: those behind the stamps that it writes are its own, whatever
value the stamps had, and the others stay. -/
def Readings.after (g : Readings) (i : Instr) (s : State) : Readings :=
  match i with
  | .rdPulse t => g.hear t s
  | .symZero => g.hear (g.last + s.cfg.tZero) s
  | .symOne => g.hear (g.last + s.cfg.tOne) s
  | .symPreamble => g.hear (g.last + s.cfg.tPre) s
  | .symInvalid d => g.hear (g.last + time s.cfg d) s
  | .frame t bytes => g.feed t (frameGaps s.cfg bytes) s
  | .rdStart now => { g with latest := now, last := if s.rd.state = .idle then now else g.last }
  | .wrStart now => { g with latest := now, completion := if s.wr.active then g.completion else now }
  | .lkStart now =>
    { g with latest := now, last := if s.rd.state = .idle then now else g.last,
             completion := if s.wr.active then g.completion else now }
  | .wrExpiry now =>
    { g with latest := now,
             completion := if s.wr.active && s.wr.txPending && s.wr.state == .idle then now
                           else g.completion }
  | i => { g with latest := (reading i).getD g.latest }

/-- The environment's clock keeps 60 R194 over a sequence of instructions. -/
def ClockKept (g : Readings) (is : List Instr) (s : State) : Prop :=
  match is with
  | [] => True
  | i :: rest => OnTheClock g i s ∧ ∀ u, exec i s = .next u → ClockKept (g.after i s) rest u

/-- A host action that keeps the buffer discipline (20 R67, R68; 93 H3, H4, H5): the caller leaves `WBUF`
alone during a send, the consumer touches `RBUF` only while it owns it and reads the packet alone. -/
def disciplined (h : HostEvent) (s : State) : Bool :=
  match h with
  | .powerOn => true
  | .callerStore _ _ => !s.wr.txPending
  | .consumerLoad i => consumerOwns s && decide (i < s.rd.length.toNat)
  | .consumerStore _ _ => consumerOwns s

/-- The codec of a configuration reads what it writes (40 R107): needed for any round trip, and true of the
default parameters under every `OVERLAP_ZO`. -/
abbrev CodecRoundTrips (c : Cfg) : Prop :=
  classify c c.tZero = .zero ∧ classify c c.tOne = .one ∧ isPreamble c c.tPre = true ∧
    c.tZero < 2 ^ c.tsw ∧ c.tOne < 2 ^ c.tsw ∧ c.tPre < 2 ^ c.tsw

/-- The Reader is decoding (10 R22). -/
abbrev Decoding (s : State) : Prop :=
  s.rd.state = .aps ∨ s.rd.state = .ape ∨ s.rd.state = .ahe ∨ s.rd.state = .adb

/-! ## Runs and what they put on the wire -/

/-- Instructions one after another, stopping at the first fault or refusal. -/
def runInstrs (is : List Instr) (s : State) : Outcome :=
  match is with
  | [] => .next s
  | i :: rest => andThen (exec i s) (runInstrs rest)

/-- The times of the pulses in a list of outputs. -/
def pulsesIn (os : List Output) : List Time :=
  os.filterMap fun o => match o with
    | .pulse t => some t
    | _ => none

/-- The delays asked of the Timer Service in a list of outputs. -/
def delaysIn (os : List Output) : List Time :=
  os.filterMap fun o => match o with
    | .timerSchedule d => some d
    | _ => none

/-- The callbacks delivered in a list of outputs. -/
def callbacksIn (os : List Output) : List Signal :=
  os.filterMap fun o => match o with
    | .callback g => some g
    | _ => none

/-- The times of a train of pulses: the first at `t`, then one after each gap, each a `TSW`-bit time. -/
def pulseTimes (c : Cfg) (t : Time) (gaps : List Time) : List Time :=
  time c t :: match gaps with
    | [] => []
    | g :: rest => pulseTimes c (t + g) rest

/-! ## The properties that 41 R127 states of the Reader

They add no behaviour (41 R127): they are what the operations of Machine/Reader.lean do. The statements are
about these definitions. -/

/-- A packet of `bytes` that started at `t` was received: what holds of the state `u` that a Reader in `s` comes
to, and what is as it was. -/
abbrev PacketReceived (t : Time) (bytes : List Byte) (s u : State) : Prop :=
  u.rd.state = .ac ∧ u.rd.startTs = t ∧ u.rd.length.toNat = bytes.length ∧
  (∀ i, i < bytes.length → u.rbuf.read i = bytes[i]?) ∧
  (∀ i, bytes.length ≤ i → u.rbuf.read i = s.rbuf.read i) ∧
  u.sig.receivedFlag = true ∧ u.sig.receivedTs = t ∧ u.sig.receivedLen = u.rd.length ∧
  u.wr = s.wr ∧ u.wbuf = s.wbuf ∧ u.tmr = s.tmr ∧ u.txBlank = s.txBlank

/-- The gaps after a frame's first pulse are read as the frame of `bytes`: the first is a preamble, and every
later one is classified as its bit (40 R107). -/
abbrev ReadAsFrame (c : Cfg) (preamble : Time) (gaps : List Time) (bytes : List Byte) : Prop :=
  (preamble < 2 ^ c.tsw ∧ isPreamble c preamble = true) ∧
  List.Forall₂ (fun g b => g < 2 ^ c.tsw ∧ classify c g = if b then .one else .zero) gaps (frameBits bytes)

/-- 41 R127 item 1: the pulses of a frame of 1 to `CAPACITY` bytes from `t`, with any gaps that are read as it
and nothing between them, give the Reader its bytes and its length. -/
abbrev RoundTrip (t : Time) (bytes : List Byte) (s : State) : Prop :=
  1 ≤ bytes.length → bytes.length ≤ s.cfg.capacity →
  ∀ (preamble : Time) (gaps : List Time), ReadAsFrame s.cfg preamble gaps bytes →
    ∃ u, runInstrs ((pulseTimes s.cfg t (preamble :: gaps)).map Instr.rdPulse) s = .next u ∧
      PacketReceived t bytes s u

/-- 41 R127 item 2: `restore()` with no packet pending leaves a decoding Reader as it was. -/
abbrev RestoreIsIdle (s : State) : Prop :=
  Decoding s → ∀ blankLevel, exec (.rdRestore blankLevel) s = .next s

/-- 41 R127 item 3: the pulse that completes an oversized header raises nothing, and is the candidate of a new
preamble. -/
abbrev OversizedIsSilent (t : Time) (s : State) : Prop :=
  pulseError t s = some .oversizedLength →
  ∃ u, exec (.rdPulse t) s = .next u ∧ u.sig = s.sig ∧ u.trace = s.trace ∧ u.rd.state = .ape ∧
    u.rd.startTs = time s.cfg t ∧ u.rd.lastTs = time s.cfg t

/-- 41 R127 item 4: an `Invalid` interval in the data raises one `Lost`, with the packet's start, in the header
nothing; the Reader decodes on. -/
abbrev InvalidLosesOnce (t : Time) (s : State) : Prop :=
  classify s.cfg (elapsed s.cfg s.rd.lastTs t) = .invalid →
  (s.rd.state = .adb → ∃ u, exec (.rdPulse t) s = .next u ∧
    u.trace = s.trace ++ [.raised (.lost s.rd.startTs)] ∧ Decoding u) ∧
  (s.rd.state = .ahe → ∃ u, exec (.rdPulse t) s = .next u ∧ u.trace = s.trace ∧ u.sig = s.sig ∧ Decoding u)

/-- 41 R127 item 5: a pulse takes a decoding Reader to a decoding state or to `AwaitingConsumption`, and from
every decoding state some pulses lead to `AwaitingConsumption`. -/
abbrev NeverStuck (s : State) : Prop :=
  Decoding s →
  (∀ t u, exec (.rdPulse t) s = .next u → Decoding u ∨ u.rd.state = .ac) ∧
  ∃ ts u, runInstrs (List.map Instr.rdPulse ts) s = .next u ∧ u.rd.state = .ac

/-! ## The next-state tables of the spec -/

/-- The columns of 41 R126 after `RD.PULSE`. -/
inductive ReaderColumn where
  | restore0
  | restore1
  | blank
  | start
  | stop
deriving DecidableEq, Repr

/-- The rows of 41 R126 in those columns; `none` is the table's dash. -/
def readerTable (col : ReaderColumn) (st : RdState) : Option RdState :=
  match col, st with
  | .restore0, .ac => some .aps
  | .restore0, .bl => some .aps
  | .restore0, .blp => some .ac
  | .restore0, _ => none
  | .restore1, .ac => some .bl
  | .restore1, .blp => some .bl
  | .restore1, _ => none
  | .blank, .aps => some .bl
  | .blank, .ape => some .bl
  | .blank, .ahe => some .bl
  | .blank, .adb => some .bl
  | .blank, .ac => some .blp
  | .blank, _ => none
  | .start, .idle => some .aps
  | .start, _ => none
  | .stop, .idle => none
  | .stop, _ => some .idle

/-- The operation of a column. -/
def readerColumnInstr (col : ReaderColumn) (now : Time) : Instr :=
  match col with
  | .restore0 => .rdRestore false
  | .restore1 => .rdRestore true
  | .blank => .rdBlank
  | .start => .rdStart now
  | .stop => .rdStop

end Sys2Proof.Machine
end

