-- ==== Sys2Proof/Certificates/Slice0/Obligations.lean ====
section
/-! DEFINITION. The statements for the provers. Each docstring names the rule it formalises. -/

open Sys2Proof Sys2Proof.Machine

/-! ## CODEC -/

/-- 40 R101 with the windows of R100: `CLASSIFY d` returns by its two open windows, with `OVERLAP_ZO` for a
duration inside both, and changes nothing else. -/
def Obligations.ClassifyFollowsItsWindows : Prop :=
  ∀ (d : Time) (s : State), d < 2 ^ s.cfg.tsw →
    let z := s.cfg.tZero - s.cfg.tol < d ∧ d < s.cfg.tZero + s.cfg.tol
    let o := s.cfg.tOne - s.cfg.tol < d ∧ d < s.cfg.tOne + s.cfg.tol
    ∃ r : BitSymbol, exec (.classify d) s = .next { s with trace := s.trace ++ [.retSymbol r] } ∧
      (z → ¬ o → r = .zero) ∧ (o → ¬ z → r = .one) ∧ (z → o → r = s.cfg.overlapZO) ∧
      (¬ z → ¬ o → r = .invalid)

/-- 40 R102, R103: `ISPREAMBLE d` answers whether `d` lies strictly inside the preamble window;
`INTERVAL sym` answers the nominal interval. Neither changes anything else. -/
def Obligations.IsPreambleAndIntervalAnswer : Prop :=
  ∀ (d : Time) (s : State),
    (d < 2 ^ s.cfg.tsw → exec (.ispreamble d) s = .next { s with trace := s.trace ++
      [.retBool (decide (s.cfg.tPre - s.cfg.tol < d ∧ d < s.cfg.tPre + s.cfg.tol))] }) ∧
    exec (.interval .zero) s = .next { s with trace := s.trace ++ [.retMicros s.cfg.tZero] } ∧
    exec (.interval .one) s = .next { s with trace := s.trace ++ [.retMicros s.cfg.tOne] } ∧
    exec (.interval .preamble) s = .next { s with trace := s.trace ++ [.retMicros s.cfg.tPre] }

/-- 40 R106: the complete classification of every duration under the default literals, for every value of
`OVERLAP_ZO`. -/
def Obligations.ClassificationTable : Prop :=
  ∀ (c : Cfg) (d : Time), c.tZero = 50 → c.tOne = 75 → c.tPre = 100 → c.tol = 14 →
    let row := (inZero c d, inOne c d, inPre c d, classify c d, isPreamble c d)
    (d ≤ 36 → row = (false, false, false, .invalid, false)) ∧
    (37 ≤ d → d ≤ 61 → row = (true, false, false, .zero, false)) ∧
    (62 ≤ d → d ≤ 63 → row = (true, true, false, c.overlapZO, false)) ∧
    (64 ≤ d → d ≤ 86 → row = (false, true, false, .one, false)) ∧
    (87 ≤ d → d ≤ 88 → row = (false, true, true, .one, true)) ∧
    (89 ≤ d → d ≤ 113 → row = (false, false, true, .invalid, true)) ∧
    (114 ≤ d → row = (false, false, false, .invalid, false))

/-- 40 R107: the codec round trip and the margins, for every value of `OVERLAP_ZO`, with the default
literals; with `OVERLAP_ZO` = Zero the range of `Zero` widens. -/
def Obligations.CodecRoundTripAndMargins : Prop :=
  ∀ (c : Cfg) (e : Int), c.tZero = 50 → c.tOne = 75 → c.tPre = 100 → c.tol = 14 →
    (classify c (interval c .zero) = .zero ∧ classify c (interval c .one) = .one ∧
      isPreamble c (interval c .preamble) = true) ∧
    (-13 ≤ e → e ≤ 11 → classify c ((50 + e).toNat) = .zero) ∧
    (-11 ≤ e → e ≤ 13 → classify c ((75 + e).toNat) = .one) ∧
    (-13 ≤ e → e ≤ 13 → isPreamble c ((100 + e).toNat) = true) ∧
    (c.overlapZO = .zero → -13 ≤ e → e ≤ 13 → classify c ((50 + e).toNat) = .zero)

/-! ## READER: the pulse event -/

/-- 00 R11, 60 R194: `elapsed(a, b) = (b − a) mod 2^TSW` on `TSW`-bit times, across the wrap too. It is the
true difference of two readings of the counter that lie fewer than 2^`TSW` apart; so, of a host whose clock
keeps 60 R194 at an instruction (92 D25), every difference the instruction computes is the true one, and
the stamps it leaves are again those of the host's readings. Where the pulses of a wire symbol and of a frame
stand on that clock is THE MODEL'S CHOICE (log 20). -/
def Obligations.ElapsedIsModularDifference : Prop :=
  (∀ (c : Cfg) (a b : Time), a < 2 ^ c.tsw → b < 2 ^ c.tsw →
    elapsed c a b = if a ≤ b then b - a else b + 2 ^ c.tsw - a) ∧
  (∀ (c : Cfg) (a b : Time), a ≤ b → b < a + 2 ^ c.tsw → elapsed c (time c a) (time c b) = b - a) ∧
  ∀ (g : Readings) (i : Instr) (first last : Time) (s : State),
    StampsRead g s → OnTheClock g i s → span g i s = some (first, last) →
    (g.last ∈ comparedReadings i s g → elapsed s.cfg s.rd.lastTs first = first - g.last) ∧
    (g.start ∈ comparedReadings i s g → elapsed s.cfg s.rd.startTs first = first - g.start) ∧
    (g.completion ∈ comparedReadings i s g →
      elapsed s.cfg s.wr.lastCompletionTs first = first - g.completion) ∧
    ∀ u, exec i s = .next u → StampsRead (g.after i s) u

/-- 41 R111: a pulse in `AwaitingPreambleStart` is the start candidate; nothing else changes. -/
def Obligations.PulseOpensACandidate : Prop :=
  ∀ (t : Time) (s : State), s.rd.state = .aps → t < 2 ^ s.cfg.tsw →
    exec (.rdPulse t) s = .next { s with rd := { s.rd with startTs := t, lastTs := t, state := .ape } }

/-- 41 R112: in `AwaitingPreambleEnd` a preamble interval opens the header, any other makes the pulse the
new candidate; nothing else changes, no signal is raised. -/
def Obligations.PulseEndsThePreamble : Prop :=
  ∀ (t : Time) (s : State), s.rd.state = .ape → t < 2 ^ s.cfg.tsw →
    (isPreamble s.cfg (elapsed s.cfg s.rd.lastTs t) = true →
      exec (.rdPulse t) s = .next { s with rd := { s.rd with
        byteCursor := 0, bitCursor := 0, asm := 0, lastTs := t, state := .ahe } }) ∧
    (isPreamble s.cfg (elapsed s.cfg s.rd.lastTs t) = false →
      exec (.rdPulse t) s = .next { s with rd := { s.rd with startTs := t, lastTs := t, state := .ape } })

/-- 41 R113: a pulse in `AwaitingHeaderEnd`: resynchronise on `Invalid`; assemble a bit; on the sixth take
the length, and resynchronise if it exceeds `CAPACITY`. No signal on any path, nothing else changes. -/
def Obligations.PulseInTheHeader : Prop :=
  ∀ (t : Time) (s : State), s.rd.state = .ahe → t < 2 ^ s.cfg.tsw →
    (classify s.cfg (elapsed s.cfg s.rd.lastTs t) = .invalid →
      exec (.rdPulse t) s = .next { s with rd := { s.rd with startTs := t, lastTs := t, state := .ape } }) ∧
    ∀ b : Bool, classify s.cfg (elapsed s.cfg s.rd.lastTs t) = (if b then .one else .zero) →
      (s.rd.bitCursor.toNat < 5 →
        exec (.rdPulse t) s = .next { s with rd := { s.rd with
          asm := accumulate s.rd.asm b, bitCursor := s.rd.bitCursor + 1, lastTs := t } }) ∧
      (s.rd.bitCursor.toNat = 5 → (accumulate s.rd.asm b).toNat % 64 + 1 ≤ s.cfg.capacity →
        exec (.rdPulse t) s = .next { s with rd := { s.rd with
          length := BitVec.ofNat 7 ((accumulate s.rd.asm b).toNat % 64 + 1),
          bitCursor := 0, asm := 0, lastTs := t, state := .adb } }) ∧
      (s.rd.bitCursor.toNat = 5 → s.cfg.capacity < (accumulate s.rd.asm b).toNat % 64 + 1 →
        exec (.rdPulse t) s =
          .next { s with rd := { s.rd with startTs := t, lastTs := t, state := .ape } })

/-- 41 R114: a pulse in `AwaitingDataBits`: `Lost` with the old start timestamp and resynchronisation on
`Invalid`; assemble a bit; on the eighth store the byte at `rd.byte_cursor`, and no other byte; on the last
byte `Received`. Nothing else changes. The index stored to is within `CAPACITY` (20 R61). -/
def Obligations.PulseInTheData : Prop :=
  ∀ (t : Time) (s : State), s.rd.state = .adb → t < 2 ^ s.cfg.tsw →
    (classify s.cfg (elapsed s.cfg s.rd.lastTs t) = .invalid →
      exec (.rdPulse t) s = .next { s with
        rd := { s.rd with startTs := t, lastTs := t, state := .ape }
        sig := { s.sig with lostFlag := true, lostTs := s.rd.startTs }
        trace := s.trace ++ [.raised (.lost s.rd.startTs)] }) ∧
    ∀ b : Bool, classify s.cfg (elapsed s.cfg s.rd.lastTs t) = (if b then .one else .zero) →
      (s.rd.bitCursor.toNat < 7 →
        exec (.rdPulse t) s = .next { s with rd := { s.rd with
          asm := accumulate s.rd.asm b, bitCursor := s.rd.bitCursor + 1, lastTs := t } }) ∧
      (s.rd.bitCursor.toNat = 7 → s.rd.byteCursor.toNat < s.cfg.capacity → ∃ m : Memory,
        m.read s.rd.byteCursor.toNat = some (accumulate s.rd.asm b) ∧
        (∀ i, i ≠ s.rd.byteCursor.toNat → m.read i = s.rbuf.read i) ∧
        (s.rd.byteCursor.toNat + 1 ≠ s.rd.length.toNat →
          exec (.rdPulse t) s = .next { s with
            rbuf := m
            rd := { s.rd with byteCursor := s.rd.byteCursor + 1, bitCursor := 0, asm := 0, lastTs := t } }) ∧
        (s.rd.byteCursor.toNat + 1 = s.rd.length.toNat →
          exec (.rdPulse t) s = .next { s with
            rbuf := m
            rd := { s.rd with byteCursor := s.rd.byteCursor + 1, bitCursor := 0, asm := 0, lastTs := t,
                              state := .ac }
            sig := { s.sig with receivedFlag := true, receivedTs := s.rd.startTs,
                                receivedLen := s.rd.length }
            trace := s.trace ++ [.raised (.received s.rd.startTs s.rd.length)] }))

/-- 41 R115: a pulse in `Idle`, `AwaitingConsumption`, `Blanked` or `BlankedWithPendingPacket` changes
nothing, whatever its time. -/
def Obligations.PulseIgnoredUnlessDecoding : Prop :=
  ∀ (t : Time) (s : State),
    s.rd.state = .idle ∨ s.rd.state = .ac ∨ s.rd.state = .bl ∨ s.rd.state = .blp →
    exec (.rdPulse t) s = .next s

/-- 41 R116: the assembly step shifts the bit in at the least significant end; after up to 8 bits from 0 the
register reads them most significant first. -/
def Obligations.AssemblyReadsMsbFirst : Prop :=
  (∀ (a : Byte) (b : Bool), (accumulate a b).toNat = (2 * a.toNat + b.toNat) % 2 ^ 8) ∧
  ∀ bits : List Bool, bits.length ≤ 8 →
    (bits.foldl accumulate 0).toNat = bits.foldl (fun n b => 2 * n + b.toNat) 0

/-! ## READER: consumer-facing operations, start and stop -/

/-- 41 R118, R121, R123: what the Reader's queries answer; none changes anything else. -/
def Obligations.ReaderQueriesAnswer : Prop :=
  ∀ (now silence : Time) (s : State),
    (s.rd.state = .ac ∨ s.rd.state = .blp → exec .rdHasincoming s =
      .next { s with trace := s.trace ++ [.retIncoming s.rd.length true] }) ∧
    (s.rd.state ≠ .ac → s.rd.state ≠ .blp → exec .rdHasincoming s =
      .next { s with trace := s.trace ++ [.retIncoming 0 false] }) ∧
    exec .rdIsblanking s = .next { s with trace := s.trace ++
      [.retBool (decide (s.rd.state = .bl ∨ s.rd.state = .blp))] } ∧
    (now < 2 ^ s.cfg.tsw → silence < 2 ^ s.cfg.tsw → exec (.rdCansend now silence) s =
      .next { s with trace := s.trace ++ [.retBool (decide (s.rd.state ≠ .ahe ∧ s.rd.state ≠ .adb ∧
        silence < elapsed s.cfg s.rd.lastTs now))] })

/-- 41 R119, R120: the tables of `RD.RESTORE` and `RD.BLANK`; no other field is written. So `restore()` with no
packet pending leaves a decoding Reader as it was (41 R127 item 2). -/
def Obligations.RestoreAndBlankFollowTheirTables : Prop :=
  ∀ (s : State) (st : RdState),
    (st = (match s.rd.state with
      | .ac => .aps | .bl => .aps | .blp => .ac
      | .idle => .idle | .aps => .aps | .ape => .ape | .ahe => .ahe | .adb => .adb) →
      exec (.rdRestore false) s = .next { s with rd := { s.rd with state := st } }) ∧
    (st = (match s.rd.state with
      | .ac => .bl | .bl => .bl | .blp => .bl
      | .idle => .idle | .aps => .aps | .ape => .ape | .ahe => .ahe | .adb => .adb) →
      exec (.rdRestore true) s = .next { s with rd := { s.rd with state := st } }) ∧
    (st = (match s.rd.state with
      | .aps => .bl | .ape => .bl | .ahe => .bl | .adb => .bl
      | .ac => .blp | .bl => .bl | .blp => .blp | .idle => .idle) →
      exec .rdBlank s = .next { s with rd := { s.rd with state := st } }) ∧
    RestoreIsIdle s

/-- 41 R122: the watchdog acts in `AwaitingDataBits` alone, when more than `WD_TIMEOUT` has passed since its
reference: `Lost` with the start timestamp, and back to `AwaitingPreambleStart`. -/
def Obligations.WatchdogEndsAStuckPacket : Prop :=
  ∀ (now : Time) (s : State), now < 2 ^ s.cfg.tsw →
    let ref := if s.cfg.wdRef = .lastBit then s.rd.lastTs else s.rd.startTs
    (s.rd.state = .adb → s.cfg.wdTimeout < elapsed s.cfg ref now →
      exec (.rdWatchdog now) s = .next { s with
        rd := { s.rd with state := .aps }
        sig := { s.sig with lostFlag := true, lostTs := s.rd.startTs }
        trace := s.trace ++ [.raised (.lost s.rd.startTs)] }) ∧
    (¬ (s.rd.state = .adb ∧ s.cfg.wdTimeout < elapsed s.cfg ref now) →
      exec (.rdWatchdog now) s = .next s)

/-- 41 R124, R125: start revives a stopped Reader and re-bases its last pulse; stop forces `Idle`. Nothing
else changes. -/
def Obligations.ReaderStartAndStop : Prop :=
  ∀ (now : Time) (s : State),
    (s.rd.state = .idle → now < 2 ^ s.cfg.tsw →
      exec (.rdStart now) s = .next { s with rd := { s.rd with lastTs := now, state := .aps } }) ∧
    (s.rd.state ≠ .idle → exec (.rdStart now) s = .next s) ∧
    exec .rdStop s = .next { s with rd := { s.rd with state := .idle } }

/-- 41 R126: the next-state table of the Reader, for the columns `RD.RESTORE`, `RD.BLANK`, `RD.START` and
`RD.STOP`, and the states a pulse or a watchdog poll can lead to from each state. -/
def Obligations.ReaderNextStateTable : Prop :=
  (∀ (col : ReaderColumn) (now : Time) (s : State), ∃ u,
    exec (readerColumnInstr col now) s = .next u ∧
      u.rd.state = (readerTable col s.rd.state).getD s.rd.state) ∧
  ∀ (now : Time) (s u : State), exec (.rdPulse now) s = .next u ∨ exec (.rdWatchdog now) s = .next u →
    (u.rd.state = s.rd.state ∨
      (s.rd.state = .aps ∧ u.rd.state = .ape) ∨ (s.rd.state = .ape ∧ u.rd.state = .ahe) ∨
      (s.rd.state = .ahe ∧ (u.rd.state = .ape ∨ u.rd.state = .adb)) ∨
      (s.rd.state = .adb ∧ (u.rd.state = .ape ∨ u.rd.state = .ac ∨ u.rd.state = .aps)))

/-! ## WRITER -/

/-- 42 R140: an accepted `WR.SEND` binds `WBUF`, resets the cursors, emits the first pulse, schedules the
preamble and answers success; a rejected one answers failure and writes nothing. -/
def Obligations.WriterSend : Prop :=
  ∀ (buffer : List Byte) (length : Nat) (now : Time) (s : State), now < 2 ^ s.cfg.tsw →
    (s.wr.active = true → 1 ≤ length → length ≤ s.cfg.capacity → s.wr.txPending = false →
      length ≤ buffer.length → ∃ m : Memory,
      (∀ i, m.read i = buffer[i]?) ∧
      exec (.wrSend buffer length now) s = .next { s with
        wbuf := m
        wr := { s.wr with length := BitVec.ofNat 7 length, byteCursor := 0, bitCursor := 0,
                          txPending := true, state := .sh }
        tmr := { armed := true, delay := s.cfg.tPre }
        trace := s.trace ++ [.pulse now, .timerSchedule s.cfg.tPre, .retSend true] }) ∧
    (s.wr.active = false ∨ length < 1 ∨ s.cfg.capacity < length ∨ s.wr.txPending = true →
      exec (.wrSend buffer length now) s = .next { s with trace := s.trace ++ [.retSend false] })

/-- 42 R141, the gate: an expiry on a stopped Writer or with no send in flight does nothing but clear the
one-shot (10 R39). -/
def Obligations.StrayExpiryDoesNothing : Prop :=
  ∀ (now : Time) (s : State), s.wr.active = false ∨ s.wr.txPending = false →
    exec (.wrExpiry now) s = .next { s with tmr := { s.tmr with armed := false } }

/-- 42 R142: every expiry past the gate first emits one pulse, at its own time, before anything else it
outputs, and emits no other. -/
def Obligations.ExpiryEmitsItsPulseFirst : Prop :=
  ∀ (now : Time) (s u : State), s.wr.active = true → s.wr.txPending = true → now < 2 ^ s.cfg.tsw →
    exec (.wrExpiry now) s = .next u →
    ∃ rest, u.trace = s.trace ++ .pulse now :: rest ∧ pulsesIn rest = []

/-- 42 R143: in `SendingHeader` the next delay is the interval of header bit `5 − wr.bit_cursor` of
`wr.length − 1`; the cursor advances, and after the sixth bit the state is `SendingData`. Nothing else
changes. -/
def Obligations.ExpirySchedulesAHeaderBit : Prop :=
  ∀ (now : Time) (s : State), s.wr.active = true → s.wr.txPending = true → s.wr.state = .sh →
    1 ≤ s.wr.length.toNat → s.wr.bitCursor.toNat < 6 → now < 2 ^ s.cfg.tsw →
    let delay := if (s.wr.length - 1).toNat.testBit (5 - s.wr.bitCursor.toNat) then s.cfg.tOne
                 else s.cfg.tZero
    exec (.wrExpiry now) s = .next { s with
      tmr := { armed := true, delay := delay }
      trace := s.trace ++ [.pulse now, .timerSchedule delay]
      wr := if s.wr.bitCursor.toNat = 5 then { s.wr with bitCursor := 0, state := .sd }
            else { s.wr with bitCursor := s.wr.bitCursor + 1 } }

/-- 42 R144: in `SendingData` the next delay is the interval of bit `7 − wr.bit_cursor` of
`WBUF[wr.byte_cursor]`, read now; after eight bits the byte cursor advances, and past the last byte the
state is `Idle` with the send still pending. Nothing else changes. -/
def Obligations.ExpirySchedulesADataBit : Prop :=
  ∀ (now : Time) (s : State) (v : Byte), s.wr.active = true → s.wr.txPending = true → s.wr.state = .sd →
    s.wbuf.read s.wr.byteCursor.toNat = some v → now < 2 ^ s.cfg.tsw →
    let delay := if v.toNat.testBit (7 - s.wr.bitCursor.toNat) then s.cfg.tOne else s.cfg.tZero
    exec (.wrExpiry now) s = .next { s with
      tmr := { armed := true, delay := delay }
      trace := s.trace ++ [.pulse now, .timerSchedule delay]
      wr := if s.wr.bitCursor.toNat = 7 then
              { s.wr with bitCursor := 0, byteCursor := s.wr.byteCursor + 1,
                          state := if s.wr.byteCursor.toNat + 1 = s.wr.length.toNat then .idle else .sd }
            else { s.wr with bitCursor := s.wr.bitCursor + 1 } }

/-- 42 R145: in `Idle` with a send pending the expiry emits the last pulse, raises `Sent`, records the
completion time, ends the send and cancels the timer. Nothing else changes. -/
def Obligations.ExpiryCompletesTheSend : Prop :=
  ∀ (now : Time) (s : State), s.wr.active = true → s.wr.txPending = true → s.wr.state = .idle →
    now < 2 ^ s.cfg.tsw →
    exec (.wrExpiry now) s = .next { s with
      sig := { s.sig with sentFlag := true }
      wr := { s.wr with lastCompletionTs := now, txPending := false }
      tmr := { s.tmr with armed := false }
      trace := s.trace ++ [.pulse now, .raised .sent, .timerCancel] }

/-- 42 R146, R147: start activates a stopped Writer, idle, and re-bases its completion time; stop makes it
inactive and idle, abandons the send and cancels the timer, with no signal. Nothing else changes. -/
def Obligations.WriterStartAndStop : Prop :=
  ∀ (now : Time) (s : State),
    (s.wr.active = false → now < 2 ^ s.cfg.tsw → exec (.wrStart now) s = .next { s with
      wr := { s.wr with active := true, state := .idle, txPending := false, lastCompletionTs := now } }) ∧
    (s.wr.active = true → exec (.wrStart now) s = .next s) ∧
    exec .wrStop s = .next { s with
      wr := { s.wr with active := false, state := .idle, txPending := false }
      tmr := { s.tmr with armed := false }
      trace := s.trace ++ [.timerCancel] }

/-- THE MODEL'S CHOICE (log 11, 12, 29), in states no run of the protocol reaches. With a header cursor of 6 or
7 the Writer runs, with a delay that is the interval of one bit or of the other, draws a free value and
advances its 3-bit cursor; the Reader assembles the bit and advances its own. With a length of 0 the Writer
sends the header value 63, six One intervals. -/
def Obligations.HeaderStatesOutOfRange : Prop :=
  ∀ (now : Time) (s : State), now < 2 ^ s.cfg.tsw →
    (s.wr.active = true → s.wr.txPending = true → s.wr.state = .sh → 6 ≤ s.wr.bitCursor.toNat →
      ∃ b : Bool, exec (.wrExpiry now) s = .next { s with
        tmr := { armed := true, delay := if b then s.cfg.tOne else s.cfg.tZero }
        trace := s.trace ++ [.pulse now, .timerSchedule (if b then s.cfg.tOne else s.cfg.tZero)]
        free := s.free + 1
        wr := { s.wr with bitCursor := s.wr.bitCursor + 1 } }) ∧
    (s.wr.active = true → s.wr.txPending = true → s.wr.state = .sh → s.wr.bitCursor.toNat < 6 →
      s.wr.length = 0 →
      exec (.wrExpiry now) s = .next { s with
        tmr := { armed := true, delay := s.cfg.tOne }
        trace := s.trace ++ [.pulse now, .timerSchedule s.cfg.tOne]
        wr := if s.wr.bitCursor.toNat = 5 then { s.wr with bitCursor := 0, state := .sd }
              else { s.wr with bitCursor := s.wr.bitCursor + 1 } }) ∧
    (∀ b : Bool, s.rd.state = .ahe → 6 ≤ s.rd.bitCursor.toNat →
      classify s.cfg (elapsed s.cfg s.rd.lastTs now) = (if b then .one else .zero) →
      exec (.rdPulse now) s = .next { s with rd := { s.rd with
        asm := accumulate s.rd.asm b, bitCursor := s.rd.bitCursor + 1, lastTs := now } })

/-- THE MODEL'S CHOICE (log 10), in states no run of the protocol reaches; 00 R16 wants each operation there
too, and 20 R64 gives the access no result. The data bit that completes a byte at an index of `CAPACITY` or
more stores nothing and goes on as any other; the expiry that fetches a byte the caller did not supply goes
on with a free byte, so with the interval of one bit or of the other. -/
def Obligations.AbsentBytesDoNotStop : Prop :=
  ∀ (now : Time) (s : State), now < 2 ^ s.cfg.tsw →
    (∀ b : Bool, s.rd.state = .adb → s.rd.bitCursor.toNat = 7 → s.cfg.capacity ≤ s.rd.byteCursor.toNat →
      classify s.cfg (elapsed s.cfg s.rd.lastTs now) = (if b then .one else .zero) →
      (s.rd.byteCursor.toNat + 1 ≠ s.rd.length.toNat →
        exec (.rdPulse now) s = .next { s with rd := { s.rd with
          byteCursor := s.rd.byteCursor + 1, bitCursor := 0, asm := 0, lastTs := now } }) ∧
      (s.rd.byteCursor.toNat + 1 = s.rd.length.toNat →
        exec (.rdPulse now) s = .next { s with
          rd := { s.rd with byteCursor := s.rd.byteCursor + 1, bitCursor := 0, asm := 0, lastTs := now,
                            state := .ac }
          sig := { s.sig with receivedFlag := true, receivedTs := s.rd.startTs,
                              receivedLen := s.rd.length }
          trace := s.trace ++ [.raised (.received s.rd.startTs s.rd.length)] })) ∧
    (s.wr.active = true → s.wr.txPending = true → s.wr.state = .sd →
      s.wbuf.read s.wr.byteCursor.toNat = none → ∃ b : Bool,
      exec (.wrExpiry now) s = .next { s with
        tmr := { armed := true, delay := if b then s.cfg.tOne else s.cfg.tZero }
        trace := s.trace ++ [.pulse now, .timerSchedule (if b then s.cfg.tOne else s.cfg.tZero)]
        free := s.free + 1
        wr := if s.wr.bitCursor.toNat = 7 then
                { s.wr with bitCursor := 0, byteCursor := s.wr.byteCursor + 1,
                            state := if s.wr.byteCursor.toNat + 1 = s.wr.length.toNat then .idle else .sd }
              else { s.wr with bitCursor := s.wr.bitCursor + 1 } })

/-! ## ARBITER and signals -/

/-- 43 R160: the answer of `LK.CANSEND`, which changes nothing else. -/
def Obligations.LinkCanSendAnswers : Prop :=
  ∀ (now : Time) (s : State), now < 2 ^ s.cfg.tsw →
    exec (.lkCansend now) s = .next { s with trace := s.trace ++ [.retBool (decide
      ((s.wr.active = true ∧ s.rd.state ≠ .idle) ∧
       (s.rd.state ≠ .bl ∧ s.rd.state ≠ .blp) ∧
       (s.rd.state ≠ .ahe ∧ s.rd.state ≠ .adb ∧ s.cfg.rxSilence < elapsed s.cfg s.rd.lastTs now) ∧
       s.cfg.txSilence < elapsed s.cfg s.wr.lastCompletionTs now))] }

/-- 43 R161: an accepted `LK.SEND` holds the Reader blanked and sends, as one step; a rejected one changes
nothing, the Reader included. -/
def Obligations.LinkSend : Prop :=
  ∀ (buffer : List Byte) (length : Nat) (now : Time) (s : State), now < 2 ^ s.cfg.tsw →
    (s.wr.active = true → 1 ≤ length → length ≤ s.cfg.capacity → s.wr.txPending = false →
      length ≤ buffer.length → ∃ m : Memory,
      (∀ i, m.read i = buffer[i]?) ∧
      exec (.lkSend buffer length now) s = .next { s with
        txBlank := true
        rd := { s.rd with state := match s.rd.state with
                | .idle => .idle | .ac => .blp | .blp => .blp | .bl => .bl
                | .aps => .bl | .ape => .bl | .ahe => .bl | .adb => .bl }
        wbuf := m
        wr := { s.wr with length := BitVec.ofNat 7 length, byteCursor := 0, bitCursor := 0,
                          txPending := true, state := .sh }
        tmr := { armed := true, delay := s.cfg.tPre }
        trace := s.trace ++ [.pulse now, .timerSchedule s.cfg.tPre, .retSend true] }) ∧
    (s.wr.active = false ∨ length < 1 ∨ s.cfg.capacity < length ∨ s.wr.txPending = true →
      exec (.lkSend buffer length now) s = .next { s with trace := s.trace ++ [.retSend false] })

/-- 43 R162: `LK.SERVICE` delivers each set signal with its payload and clears its flag, lost then received
then sent; with the sent signal, and only if no new send is in flight, it ends blanking and restores the
Reader. Nothing else changes. -/
def Obligations.ServiceDeliversPendingSignals : Prop :=
  ∀ s : State, ∃ u, exec .lkService s = .next u ∧
    u.sig = { s.sig with receivedFlag := false, lostFlag := false, sentFlag := false } ∧
    u.trace = s.trace ++
      ((if s.sig.lostFlag then [.callback (.lost s.sig.lostTs)] else []) ++
       ((if s.sig.receivedFlag then [.callback (.received s.sig.receivedTs s.sig.receivedLen)] else []) ++
        (if s.sig.sentFlag then [.callback .sent] else []))) ∧
    (s.sig.sentFlag = true → s.wr.txPending = false → u.txBlank = false ∧
      u.rd = { s.rd with state := match s.rd.state with
                | .ac => .aps | .bl => .aps | .blp => .ac
                | .idle => .idle | .aps => .aps | .ape => .ape | .ahe => .ahe | .adb => .adb }) ∧
    (s.sig.sentFlag = false ∨ s.wr.txPending = true → u.txBlank = s.txBlank ∧ u.rd = s.rd) ∧
    u.cfg = s.cfg ∧ u.rbuf = s.rbuf ∧ u.wr = s.wr ∧ u.wbuf = s.wbuf ∧ u.tmr = s.tmr ∧
    u.stim = s.stim ∧ u.free = s.free

/-- 43 R163, R164, R165: the consumer's release through the link, and the driver's start and stop. -/
def Obligations.LinkRestoreStartStop : Prop :=
  ∀ (now : Time) (s : State),
    (s.txBlank = false → exec .lkRestore s = exec (.rdRestore false) s) ∧
    (s.txBlank = true → exec .lkRestore s = exec (.rdRestore true) s) ∧
    (∃ st, exec .lkRestore s = .next { s with rd := { s.rd with state := st } }) ∧
    (s.wr.active = true → s.rd.state ≠ .idle → exec (.lkStart now) s = .next s) ∧
    (s.wr.active = false ∨ s.rd.state = .idle → now < 2 ^ s.cfg.tsw →
      exec (.lkStart now) s = .next { s with
        rd := if s.rd.state = .idle then { s.rd with lastTs := now, state := .aps } else s.rd
        wr := if s.wr.active = false then
                { s.wr with active := true, state := .idle, txPending := false, lastCompletionTs := now }
              else s.wr
        txBlank := false
        sig := { s.sig with receivedFlag := false, lostFlag := false, sentFlag := false } }) ∧
    exec .lkStop s = .next { s with
      wr := { s.wr with active := false, state := .idle, txPending := false }
      tmr := { s.tmr with armed := false }
      rd := { s.rd with state := .idle }
      txBlank := false
      trace := s.trace ++ [.timerCancel] }

/-- 60 R188: raising a signal writes its payload and its flag, whatever the flag was, and nothing else of the
device; a second raise of a kind overwrites the payload. -/
def Obligations.RaiseRecordsOneSignal : Prop :=
  ∀ (s : State) (ts ts' : Time) (len len' : BitVec 7),
    raise (.received ts len) s = { s with
      sig := { s.sig with receivedFlag := true, receivedTs := ts, receivedLen := len }
      trace := s.trace ++ [.raised (.received ts len)] } ∧
    raise (.lost ts) s = { s with
      sig := { s.sig with lostFlag := true, lostTs := ts }, trace := s.trace ++ [.raised (.lost ts)] } ∧
    raise .sent s = { s with
      sig := { s.sig with sentFlag := true }, trace := s.trace ++ [.raised .sent] } ∧
    (raise (.lost ts') (raise (.lost ts) s)).sig = (raise (.lost ts') s).sig ∧
    (raise (.received ts' len') (raise (.received ts len) s)).sig = (raise (.received ts' len') s).sig

/-- 60 R180 to R184, R191 items 1 to 3: no error stops the machine or diverts it. An `E_INVALID_INTERVAL`
resynchronises, with `Lost` in the data alone; an `E_OVERSIZED_LENGTH` resynchronises silently; an
`E_STUCK_PACKET` raises `Lost` and awaits a preamble; an `E_SEND_MISUSE` is a failure result and nothing
else. `Lost` carries the packet's start timestamp, once (41 R127 items 3 and 4). -/
def Obligations.ErrorsAreHandledInPlace : Prop :=
  (∀ (i : Instr) (e : LinkError) (s : State), errorOf i s = some e → ∃ u, exec i s = .next u ∧
    u.rbuf = s.rbuf ∧ u.rd.length = s.rd.length ∧ u.wr = s.wr ∧ u.wbuf = s.wbuf ∧ u.tmr = s.tmr ∧
    u.txBlank = s.txBlank ∧
    match e with
    | .sendMisuse => u.rd = s.rd ∧ u.sig = s.sig ∧ u.trace = s.trace ++ [.retSend false]
    | .stuckPacket => u.rd.state = .aps ∧ u.sig = { s.sig with lostFlag := true, lostTs := s.rd.startTs } ∧
        u.trace = s.trace ++ [.raised (.lost s.rd.startTs)]
    | .oversizedLength => u.rd.state = .ape ∧ u.rd.startTs = u.rd.lastTs ∧ u.sig = s.sig ∧
        u.trace = s.trace
    | .invalidInterval => u.rd.state = .ape ∧ u.rd.startTs = u.rd.lastTs ∧
        (s.rd.state = .adb → u.sig = { s.sig with lostFlag := true, lostTs := s.rd.startTs } ∧
          u.trace = s.trace ++ [.raised (.lost s.rd.startTs)]) ∧
        (s.rd.state ≠ .adb → u.sig = s.sig ∧ u.trace = s.trace)) ∧
  ∀ (t : Time) (s : State), OversizedIsSilent t s ∧ InvalidLosesOnce t s

/-- 60 R189: each raise is delivered at most once. After a service, a second service delivers nothing and
changes nothing. -/
def Obligations.SecondServiceDeliversNothing : Prop :=
  ∀ s u : State, exec .lkService s = .next u → exec .lkService u = .next u

/-- 70 R221: two packets lost in a row with no service between them are delivered as one `onPacketLost`, with
the payload of the later. Here the first loss is already pending and the second is an `Invalid` data
interval. -/
def Obligations.LossesCoalesceUntilServiced : Prop :=
  ∀ (t : Time) (s u w : State), s.rd.state = .adb → s.sig.lostFlag = true →
    classify s.cfg (elapsed s.cfg s.rd.lastTs t) = .invalid →
    exec (.rdPulse t) s = .next u → exec .lkService u = .next w →
    ((callbacksIn (w.trace.drop u.trace.length)).filter
      fun g => match g with | .lost _ => true | _ => false) = [.lost s.rd.startTs]

/-- 43 R166: the Reader is blanked before the first outgoing pulse. After an accepted `LK.SEND` every pulse,
the block's own first pulse among them, is ignored by the Reader. -/
def Obligations.OwnPulsesAreNotHeard : Prop :=
  ∀ (buffer : List Byte) (length : Nat) (now t : Time) (s u : State),
    exec (.lkSend buffer length now) s = .next u → u.wr.txPending = true → s.wr.txPending = false →
    exec (.rdPulse t) u = .next u

/-- 43 R169: an accepted `LK.SEND` on a wire on which no pulse is under way. Once time has passed its reading
the sender has heard its own first pulse and is not changed by it, and every other device is what `RD.PULSE`
at that time makes of it, or, where its capture hardware cannot tell the pulse from the last one and reports
one event, is as it was. So it is for a reading behind the clock too (60 R195). And pulses wait on the line of
each device in order of time, and are heard in that order: as time passes to `t` a device hears all that lie
before `t`, the earliest first, and keeps the others; where the environment has it hear the next one that is
due, it hears the earliest alone. A pulse that comes onto a line behind one already heard is heard after it
(log 20). THE MODEL'S CHOICES: when a device's hardware merges two pulses (log 23), that a merged event keeps
its first pulse's time, so that the device is as it was (log 28), and that a pulse waits on a line until time
has passed it (log 23). -/
def Obligations.FirstPulseReachesEveryDevice : Prop :=
  (∀ (buffer : List Byte) (length : Nat) (now later : Time) (k : Nat) (n : Net) (m : Node) (u : State),
    n.nodes[k]? = some m → exec (.lkSend buffer length now) m.device = .next u →
    u.wr.txPending = true → m.device.wr.txPending = false → now < later →
    (∀ x ∈ n.nodes, x.device.cfg.Admitted ∧ x.line = []) →
    ∃ n', Net.act k (.lkSend buffer length now) n = .next n' ∧
      (n'.advance later).nodes.length = n.nodes.length ∧
      ((n'.advance later).nodes[k]?).map Node.device = some u ∧
      ∀ (j : Nat) (x : Node), j ≠ k → n.nodes[j]? = some x → ∃ y, (n'.advance later).nodes[j]? = some y ∧
        (coincides x now = false ∨ x.captures = [] ∨ x.captures.head? = some .apart →
          exec (.rdPulse now) x.device = .next y.device) ∧
        (∀ rearm, coincides x now = true → x.captures.head? = some (.merged rearm) →
          y.device = x.device)) ∧
  (∀ (n : Net), (∀ x ∈ n.nodes, x.line.Pairwise (· ≤ ·)) →
    (∀ (k : Nat) (i : Instr) (n' : Net), Net.act k i n = .next n' →
      ∀ x ∈ n'.nodes, x.line.Pairwise (· ≤ ·)) ∧
    (∀ (t : Time) (n' : Net), n.noise t = .next n' → ∀ x ∈ n'.nodes, x.line.Pairwise (· ≤ ·)) ∧
    (∀ k : Nat, ∀ x ∈ (n.deliver k).nodes, x.line.Pairwise (· ≤ ·)) ∧
    ∀ t : Time, ∀ x ∈ (n.advance t).nodes, x.line.Pairwise (· ≤ ·)) ∧
  ∀ m : Node, m.line.Pairwise (· ≤ ·) →
    (∀ t : Time, (m.hearBefore t).line = m.line.filter (fun p => decide (t ≤ p)) ∧
      (m.hearBefore t).device =
        ((m.line.filter fun p => decide (p < t)).foldl (fun x p => x.hear p) m).device) ∧
    ∀ (clock p : Time) (rest : List Time), m.line = p :: rest →
      (p ≤ clock → (m.hearNext clock).line = rest ∧ (m.hearNext clock).device = (m.hear p).device) ∧
      (clock < p → m.hearNext clock = m)

/-! ## WIRE: symbols and frames -/

/-- 30 R80, R81, R84, R85; THE MODEL'S CHOICE (log 13) is where the interval starts. `SYM.ZERO` and `SYM.ONE`
are the pulse that closes their nominal interval. In a field that is not yet complete they shift their bit
into the assembly register and advance the bit cursor; nothing else changes. -/
def Obligations.WireBitsAreAssembled : Prop :=
  ∀ s : State,
    exec .symZero s = exec (.rdPulse (s.rd.lastTs + s.cfg.tZero)) s ∧
    exec .symOne s = exec (.rdPulse (s.rd.lastTs + s.cfg.tOne)) s ∧
    (CodecRoundTrips s.cfg →
      (s.rd.state = .ahe ∧ s.rd.bitCursor.toNat < 5) ∨ (s.rd.state = .adb ∧ s.rd.bitCursor.toNat < 7) →
      exec .symZero s = .next { s with rd := { s.rd with
        asm := accumulate s.rd.asm false, bitCursor := s.rd.bitCursor + 1,
        lastTs := (s.rd.lastTs + s.cfg.tZero) % 2 ^ s.cfg.tsw } } ∧
      exec .symOne s = .next { s with rd := { s.rd with
        asm := accumulate s.rd.asm true, bitCursor := s.rd.bitCursor + 1,
        lastTs := (s.rd.lastTs + s.cfg.tOne) % 2 ^ s.cfg.tsw } })

/-- 30 R80, R88; THE MODEL'S CHOICE (log 13, 14) is how a symbol is delivered. `SYM.PREAMBLE` and
`SYM.INVALID d` are the pulse that closes their interval. After a start candidate `SYM.PREAMBLE` opens the
header. `SYM.INVALID d` resynchronises, in the header silently and in the data with `Lost`. -/
def Obligations.WirePreambleAndInvalid : Prop :=
  ∀ (d : Time) (s : State), d < 2 ^ s.cfg.tsw →
    exec .symPreamble s = exec (.rdPulse (s.rd.lastTs + s.cfg.tPre)) s ∧
    (CodecRoundTrips s.cfg → s.rd.state = .ape →
      exec .symPreamble s = .next { s with rd := { s.rd with
        byteCursor := 0, bitCursor := 0, asm := 0,
        lastTs := (s.rd.lastTs + s.cfg.tPre) % 2 ^ s.cfg.tsw, state := .ahe } }) ∧
    (matchesNoWindow s.cfg d = true →
      let t := (s.rd.lastTs + d) % 2 ^ s.cfg.tsw
      exec (.symInvalid d) s = exec (.rdPulse (s.rd.lastTs + d)) s ∧
      (s.rd.state = .ahe ∨ s.rd.state = .ape →
        exec (.symInvalid d) s =
          .next { s with rd := { s.rd with startTs := t, lastTs := t, state := .ape } }) ∧
      (s.rd.state = .adb →
        exec (.symInvalid d) s = .next { s with
          rd := { s.rd with startTs := t, lastTs := t, state := .ape }
          sig := { s.sig with lostFlag := true, lostTs := s.rd.startTs }
          trace := s.trace ++ [.raised (.lost s.rd.startTs)] }))

/-- 20 R64 (a launch with a buffer shorter than its length) and THE MODEL'S CHOICE (log 9, 14, 15): what is
refused by name, for `WR.SEND`, `LK.SEND`, a `SYM.INVALID` whose duration lies in a window, and a `FRAME` of
no byte or of more than 64. -/
def Obligations.IllFormedRequestsAreRefused : Prop :=
  ∀ (d t : Time) (length : Nat) (bytes : List Byte) (s : State),
    (s.wr.active = true → 1 ≤ length → length ≤ s.cfg.capacity → s.wr.txPending = false →
      bytes.length < length →
      exec (.wrSend bytes length t) s = .refused .shortBuffer ∧
      exec (.lkSend bytes length t) s = .refused .shortBuffer) ∧
    (d < 2 ^ s.cfg.tsw → inZero s.cfg d = true ∨ inOne s.cfg d = true ∨ inPre s.cfg d = true →
      exec (.symInvalid d) s = .refused .notInvalidInterval) ∧
    (bytes.length = 0 ∨ 64 < bytes.length → exec (.frame t bytes) s = .refused .frameLength)

/-- 41 R127 items 1 and 5, R128, 40 R107, 30 R82; THE MODEL'S CHOICE (log 15) is to deliver a frame in one
step. A frame of 1 to `CAPACITY` bytes is received, byte for byte, by a Reader that awaits a preamble; also by
one in any decoding state, if the line was quiet long enough before it that the gap to its first pulse matches
no window. `Received` carries the time of the first pulse and the length. The same holds of any train of
pulses whose first gap is a preamble and whose later gaps are each read as their bit. So a decoding Reader is
never stuck. In the four states that ignore pulses a frame leaves no trace (70 R224). -/
def Obligations.FrameIsReceived : Prop :=
  (∀ (t : Time) (bytes : List Byte) (s : State), t < 2 ^ s.cfg.tsw → s.cfg.capacity ≤ 64 →
    s.rd.state = .aps ∨ (Decoding s ∧ matchesNoWindow s.cfg (elapsed s.cfg s.rd.lastTs t) = true) →
    RoundTrip t bytes s ∧
    (CodecRoundTrips s.cfg → 1 ≤ bytes.length → bytes.length ≤ s.cfg.capacity →
      ∃ u, exec (.frame t bytes) s = .next u ∧ PacketReceived t bytes s u)) ∧
  (∀ s : State, CodecRoundTrips s.cfg → 1 ≤ s.cfg.capacity → s.cfg.capacity ≤ 64 → NeverStuck s) ∧
  ∀ (t : Time) (bytes : List Byte) (s : State), 1 ≤ bytes.length → bytes.length ≤ 64 →
    s.rd.state = .idle ∨ s.rd.state = .ac ∨ s.rd.state = .bl ∨ s.rd.state = .blp →
    exec (.frame t bytes) s = .next s

/-- 60 R182, 41 R127 item 3, 70 R235, and log 15 (THE MODEL'S CHOICE). A frame longer than the receiver's `CAPACITY` leaves no trace: no
signal, nothing stored, and the Reader ready for a new preamble, its last pulse the candidate. The premise
on the nominal bit intervals keeps them from being taken for a preamble. -/
def Obligations.OversizedFrameIsDroppedSilently : Prop :=
  ∀ (t : Time) (bytes : List Byte) (s : State), CodecRoundTrips s.cfg →
    isPreamble s.cfg s.cfg.tZero = false → isPreamble s.cfg s.cfg.tOne = false →
    s.rd.state = .aps → s.cfg.capacity < bytes.length → bytes.length ≤ 64 →
    ∃ u, exec (.frame t bytes) s = .next u ∧ u.rd.state = .ape ∧ u.rd.startTs = u.rd.lastTs ∧
      u.rd.length = s.rd.length ∧ u.sig = s.sig ∧ u.trace = s.trace ∧ u.rbuf = s.rbuf

/-- 42 R148: an accepted send, with every expiry delivered when it was asked for, puts the frame of its bytes
on the wire: the `8·L + 8` pulses and the `8·L + 7` delays of 30 R82 and no other, then `Sent`, and the
Writer idle with the timer disarmed. -/
def Obligations.SendPutsItsFrameOnTheWire : Prop :=
  ∀ (buffer : List Byte) (length : Nat) (now : Time) (s : State),
    s.wr.active = true → s.wr.txPending = false → 1 ≤ length → length ≤ s.cfg.capacity →
    s.cfg.capacity ≤ 64 → length ≤ buffer.length →
    ∃ w, exec (.wrSend buffer length now) s = .next w ∧ let u := runTx (8 * length + 7) now w
      pulsesIn (u.trace.drop s.trace.length) =
        pulseTimes s.cfg now (frameGaps s.cfg (buffer.take length)) ∧
      delaysIn (u.trace.drop s.trace.length) = frameGaps s.cfg (buffer.take length) ∧
      u.wr.state = .idle ∧ u.wr.txPending = false ∧ u.tmr.armed = false ∧ u.sig.sentFlag = true ∧
      u.rd = s.rd ∧ u.rbuf = s.rbuf

/-- 41 R127 item 1: a packet sent by one device and received by another of the same configuration: the
Reader, fed exactly the pulses the Writer emitted, ends with the packet's bytes and length. So it is when
every expiry is delivered when it was asked for, and so it is when each is off by no more than `JITTER`
(42 R149), if the codec reads an interval that is off by so much (40 R107). THE MODEL'S CHOICE (log 30) is that
an interval is off by the `e` of its own expiry alone. -/
def Obligations.SentPacketIsReceived : Prop :=
  ∀ (buffer : List Byte) (length : Nat) (now : Time) (s r : State),
    s.wr.active = true → s.wr.txPending = false → 1 ≤ length → length ≤ s.cfg.capacity →
    s.cfg.capacity ≤ 64 → length ≤ buffer.length → r.cfg = s.cfg → r.rd.state = .aps →
    ∃ w, exec (.wrSend buffer length now) s = .next w ∧
      let arrives (u : State) : Prop := ∃ v,
        runInstrs ((pulsesIn (u.trace.drop s.trace.length)).map Instr.rdPulse) r = .next v ∧
        v.rd.state = .ac ∧ v.rd.length.toNat = length ∧
        (∀ i, i < length → v.rbuf.read i = buffer[i]?) ∧ v.sig.receivedFlag = true
      (CodecRoundTrips s.cfg → arrives (runTx (8 * length + 7) now w)) ∧
      ∀ ts : List Time, JitterTolerated s.cfg → ts.length = 8 * length + 7 →
        ExpiriesOnTime now ts w → arrives (expiries ts w)

/-! ## The whole machine -/

/-- 10 R20, R41: who may write what. An instruction that is no Reader operation and no `LK.*` composite
leaves the Reader and `RBUF` alone; one that is no Writer operation and no composite leaves the Writer,
`WBUF` and the timer alone; only the composites write `arb.tx_blank`. A wire symbol or frame is a Reader
operation. -/
def Obligations.UnitsWriteTheirOwnFields : Prop :=
  ∀ (i : Instr) (s u : State), exec i s = .next u →
    ((match i with
      | .classify _ | .ispreamble _ | .interval _ | .wrStart _ | .wrStop | .wrSend _ _ _ | .wrExpiry _
      | .lkCansend _ | .rdHasincoming | .rdIsblanking | .rdCansend _ _ => true
      | _ => false) = true → u.rd = s.rd ∧ u.rbuf = s.rbuf) ∧
    ((match i with
      | .wrStart _ | .wrStop | .wrSend _ _ _ | .wrExpiry _ | .lkStart _ | .lkStop | .lkSend _ _ _ => true
      | _ => false) = false → u.wr = s.wr ∧ u.wbuf = s.wbuf ∧ u.tmr = s.tmr) ∧
    ((match i with
      | .lkStart _ | .lkStop | .lkSend _ _ _ | .lkService => true
      | _ => false) = false → u.txBlank = s.txBlank)

/-- 10 R22, 90 C5: a Reader that is not `Idle` becomes so by `RD.STOP` or `LK.STOP` alone; a stopped one
leaves `Idle` by `RD.START` or `LK.START` alone. -/
def Obligations.IdleIsEnteredByStopAlone : Prop :=
  ∀ (i : Instr) (s u : State), exec i s = .next u →
    (s.rd.state ≠ .idle → u.rd.state = .idle → i = .rdStop ∨ i = .lkStop) ∧
    (s.rd.state = .idle → u.rd.state ≠ .idle → ∃ now, i = .rdStart now ∨ i = .lkStart now)

/-- 10 R38, 60 R189: a signal flag that is set is cleared by `LK.SERVICE` or `LK.START` alone. -/
def Obligations.FlagsAreClearedByTaskAlone : Prop :=
  ∀ (i : Instr) (s u : State), exec i s = .next u → i ≠ .lkService → (∀ now, i ≠ .lkStart now) →
    (s.sig.receivedFlag = true → u.sig.receivedFlag = true) ∧
    (s.sig.lostFlag = true → u.sig.lostFlag = true) ∧
    (s.sig.sentFlag = true → u.sig.sentFlag = true)

/-- 20 R61: the block stores to `RBUF` in one case alone: a pulse (an event, or a wire symbol that is a valid
interval) that closes the eighth bit of a byte, and then at `rd.byte_cursor`, within `CAPACITY`. A frame is a
sequence of pulses. -/
def Obligations.OnlyACompletedByteIsStored : Prop :=
  ∀ (i : Instr) (s u : State), exec i s = .next u → (∀ t bytes, i ≠ .frame t bytes) →
    ∀ k, u.rbuf.read k ≠ s.rbuf.read k →
      ((∃ t, i = .rdPulse t) ∨ i = .symZero ∨ i = .symOne ∨ i = .symPreamble) ∧
      s.rd.state = .adb ∧ s.rd.bitCursor.toNat = 7 ∧ k = s.rd.byteCursor.toNat ∧ k < s.cfg.capacity

/-- 40 R105, 10 R21: no step changes the configuration, and the trace only grows. -/
def Obligations.ConfigurationIsFixed : Prop :=
  ∀ s u : State, step s = .next u → u.cfg = s.cfg ∧ ∃ os, u.trace = s.trace ++ os

/-- THE MODEL'S CHOICE (log 4): a time operand counts by its low `TSW` bits. -/
def Obligations.OperandsCountModuloTheCounter : Prop :=
  ∀ (t d : Time) (buffer : List Byte) (length : Nat) (s : State),
    exec (.classify t) s = exec (.classify (t % 2 ^ s.cfg.tsw)) s ∧
    exec (.ispreamble t) s = exec (.ispreamble (t % 2 ^ s.cfg.tsw)) s ∧
    exec (.rdPulse t) s = exec (.rdPulse (t % 2 ^ s.cfg.tsw)) s ∧
    exec (.rdStart t) s = exec (.rdStart (t % 2 ^ s.cfg.tsw)) s ∧
    exec (.rdCansend t d) s = exec (.rdCansend (t % 2 ^ s.cfg.tsw) (d % 2 ^ s.cfg.tsw)) s ∧
    exec (.rdWatchdog t) s = exec (.rdWatchdog (t % 2 ^ s.cfg.tsw)) s ∧
    exec (.wrStart t) s = exec (.wrStart (t % 2 ^ s.cfg.tsw)) s ∧
    exec (.wrExpiry t) s = exec (.wrExpiry (t % 2 ^ s.cfg.tsw)) s ∧
    exec (.wrSend buffer length t) s = exec (.wrSend buffer length (t % 2 ^ s.cfg.tsw)) s ∧
    exec (.lkStart t) s = exec (.lkStart (t % 2 ^ s.cfg.tsw)) s ∧
    exec (.lkCansend t) s = exec (.lkCansend (t % 2 ^ s.cfg.tsw)) s ∧
    exec (.lkSend buffer length t) s = exec (.lkSend buffer length (t % 2 ^ s.cfg.tsw)) s ∧
    exec (.symInvalid t) s = exec (.symInvalid (t % 2 ^ s.cfg.tsw)) s ∧
    exec (.frame t buffer) s = exec (.frame (t % 2 ^ s.cfg.tsw) buffer) s

/-! ## Reset, steps, records -/

/-- 70 R210: what reset leaves, for every configuration: both control states `Idle`, every flag and bit 0,
every timestamp, cursor, length and the assembly register 0, the timer disarmed. -/
def Obligations.ResetLeavesTheDeviceStopped : Prop :=
  State.reset = State.powerOn Cfg.default ∧
  ∀ c : Cfg, let s := State.powerOn c
    s.cfg = c ∧ s.rd.state = .idle ∧ s.wr.state = .idle ∧ s.wr.active = false ∧ s.wr.txPending = false ∧
    s.txBlank = false ∧
    (s.sig.receivedFlag = false ∧ s.sig.lostFlag = false ∧ s.sig.sentFlag = false) ∧
    (s.rd.startTs = 0 ∧ s.rd.lastTs = 0 ∧ s.wr.lastCompletionTs = 0 ∧ s.sig.receivedTs = 0 ∧
      s.sig.lostTs = 0) ∧
    (s.rd.byteCursor = 0 ∧ s.rd.bitCursor = 0 ∧ s.wr.byteCursor = 0 ∧ s.wr.bitCursor = 0) ∧
    (s.rd.length = 0 ∧ s.wr.length = 0 ∧ s.sig.receivedLen = 0) ∧ s.rd.asm = 0 ∧ s.tmr.armed = false

/-- 70 R211: after reset pulses and expiries are ignored, sends fail, the queries answer no, and no other task
operation but the starts and stops changes anything. -/
def Obligations.AfterResetNothingHappens : Prop :=
  ∀ (c : Cfg) (t : Time) (b : Bool) (buffer : List Byte) (length : Nat), let s := State.powerOn c
    exec (.rdPulse t) s = .next s ∧ exec (.wrExpiry t) s = .next s ∧
    exec (.wrSend buffer length t) s = .next { s with trace := [.retSend false] } ∧
    exec (.lkSend buffer length t) s = .next { s with trace := [.retSend false] } ∧
    exec (.lkCansend t) s = .next { s with trace := [.retBool false] } ∧
    exec .rdHasincoming s = .next { s with trace := [.retIncoming 0 false] } ∧
    exec .rdIsblanking s = .next { s with trace := [.retBool false] } ∧
    exec (.rdWatchdog t) s = .next s ∧ exec .rdBlank s = .next s ∧ exec (.rdRestore b) s = .next s ∧
    exec .lkRestore s = .next s ∧ exec .lkService s = .next s

/-- 70 R213: stop then start, from any state: the Reader awaits a preamble, the Writer is active and idle, no
signal is pending, nothing is blanked, both silences count from `now`, and the other fields, the cursors and
both buffers among them, are as they were. -/
def Obligations.RestartReinitialises : Prop :=
  ∀ (now : Time) (s : State), now < 2 ^ s.cfg.tsw →
    runInstrs [.lkStop, .lkStart now] s = .next { s with
      rd := { s.rd with state := .aps, lastTs := now }
      wr := { s.wr with active := true, state := .idle, txPending := false, lastCompletionTs := now }
      txBlank := false
      sig := { s.sig with receivedFlag := false, lostFlag := false, sentFlag := false }
      tmr := { s.tmr with armed := false }
      trace := s.trace ++ [.timerCancel] }

/-- A step runs the decoded instruction. THE MODEL'S CHOICE (log 1, 2) is the stimulus stream. Under a
configuration that 00 R9 admits: when the front of the stream decodes to `i`, the step is `exec i` on the
state with that record taken off; a host record runs its action; a code that names nothing and a cut-off
record are refused; with no stimulus nothing happens. Every other configuration is refused (93 H11). -/
def Obligations.StepRunsTheDecodedInstruction : Prop :=
  ∀ (s : State) (rest : List Byte),
    (s.cfg.Admitted →
      (∀ i : Instr, decode s.stim = .instr i rest → step s = exec i { s with stim := rest }) ∧
      (∀ h : HostEvent, decode s.stim = .host h rest → step s = hostStep h { s with stim := rest }) ∧
      (∀ b, decode s.stim = .reserved b → step s = .refused (.reservedCode b)) ∧
      (s.stim ≠ [] → decode s.stim = .malformed → step s = .refused .badRecord) ∧
      (s.stim = [] → step s = .next s)) ∧
    (¬ s.cfg.Admitted → step s = .refused .configuration)

/-- 30 R91, in the records of log 2 (THE MODEL'S CHOICE): the unlisted codes name no operation: the decoder
refuses them, whatever follows, and the step is a refusal. -/
def Obligations.UnlistedCodesAreRefused : Prop :=
  ∀ (w : Nat) (rest : List Byte) (s : State),
    (0x03 ≤ w ∧ w ≤ 0x0F) ∨ (0x19 ≤ w ∧ w ≤ 0x1F) ∨ (0x24 ≤ w ∧ w ≤ 0x2F) ∨ (0x36 ≤ w ∧ w ≤ 0x3F) →
    decode (BitVec.ofNat 8 w :: rest) = .reserved w ∧
    (s.cfg.Admitted → step { s with stim := BitVec.ofNat 8 w :: rest } = .refused (.reservedCode w))

/-- 30 R89, in the records of log 2 (THE MODEL'S CHOICE): a few records written out from the table of codes
decode to their operations. -/
def Obligations.WrittenRecordsDecode : Prop :=
  decode [0x00#8, 75#8, 0, 0, 0, 0, 0, 0, 0] = .instr (.classify 75) [] ∧
  decode [0x12#8, 0x4C#8, 0x04#8, 0, 0, 0, 0, 0, 0] = .instr (.rdPulse 1100) [] ∧
  decode [0x23#8, 0x4C#8, 0x04#8, 0, 0, 0, 0, 0, 0, 0x34#8] = .instr (.wrExpiry 1100) [0x34#8] ∧
  decode [0x34#8] = .instr .lkService [] ∧
  decode [0x42#8] = .instr .symPreamble []

/-- Decode and encode agree; the records are THE MODEL'S CHOICE (log 2). For every well-formed instruction and every host action the decoder
reads its record back and stops where it ends. -/
def Obligations.DecodeReadsEncodedRecords : Prop :=
  (∀ (i : Instr) (rest : List Byte), i.wellFormed = true → decode (encode i ++ rest) = .instr i rest) ∧
  ∀ (h : HostEvent) (rest : List Byte), h.wellFormed = true →
    decode (encodeHost h ++ rest) = .host h rest

/-- 20 R60, R67, R68, 70 R210, R215; THE MODEL'S CHOICE (log 7, 8, 10, 19) settles the rest of the host's
actions. The consumer loads a byte of the packet it holds; anywhere else within `CAPACITY`, and where the
packet has no byte, the load answers a free value. It stores while it owns the buffer and while the Reader
decodes (the race of 70 R216), and is refused in `Idle` and `Blanked`. A store changes that one byte and
nothing else. An access at an index with no byte faults: at `CAPACITY` or more, or outside the bound buffer.
Power-on resets the device under its configuration. -/
def Obligations.HostActions : Prop :=
  ∀ (i : Nat) (v : Byte) (s : State),
    let owns := s.rd.state = .ac ∨ s.rd.state = .blp
    let unowned := s.rd.state = .idle ∨ s.rd.state = .bl
    (i < s.cfg.capacity →
      (owns → i < s.rd.length.toNat → s.rbuf.read i = some v →
        hostStep (.consumerLoad i) s = .next { s with trace := s.trace ++ [.loaded i v] }) ∧
      (¬ owns ∨ s.rd.length.toNat ≤ i ∨ s.rbuf.read i = none → ∃ w : Byte,
        hostStep (.consumerLoad i) s =
          .next { s with trace := s.trace ++ [.loaded i w], free := s.free + 1 })) ∧
    (s.cfg.capacity ≤ i → hostStep (.consumerLoad i) s = .fault (.rbufOutOfRange i)) ∧
    (unowned → hostStep (.consumerStore i v) s = .refused .notOwner) ∧
    (¬ unowned →
      (i < s.cfg.capacity → ∃ m : Memory, m.read i = some v ∧ (∀ k, k ≠ i → m.read k = s.rbuf.read k) ∧
        hostStep (.consumerStore i v) s = .next { s with rbuf := m }) ∧
      (s.cfg.capacity ≤ i → hostStep (.consumerStore i v) s = .fault (.rbufOutOfRange i))) ∧
    (s.wbuf.read i ≠ none → ∃ m : Memory, m.read i = some v ∧
      (∀ k, k ≠ i → m.read k = s.wbuf.read k) ∧
      hostStep (.callerStore i v) s = .next { s with wbuf := m }) ∧
    (s.wbuf.read i = none → hostStep (.callerStore i v) s = .fault (.wbufOutOfRange i)) ∧
    hostStep .powerOn s = .next { State.powerOn s.cfg with
      trace := s.trace, stim := s.stim, free := s.free }

/-! ## Invariants -/

/-- Every step, of whatever stimulus, keeps the form of the state: timestamps are `TSW`-bit values, both
buffers are in canonical form and `RBUF` within `CAPACITY`, and an armed timer was asked for one of the three
delays of 60 R193. -/
def Obligations.StepKeepsTheFormOfTheState : Prop :=
  ∀ s u : State, StateFits s → step s = .next u → StateFits u

/-- 10 R44: every instruction of a host that follows the Arbiter protocol keeps the seven invariants (with
what supports them: the header cursors, and that the caller supplied its bytes), and so does every action of
a host that keeps the buffer discipline (20 R67, R68; 93 H3 to H5). -/
def Obligations.ProtocolKeepsTheLinkInvariants : Prop :=
  (∀ (i : Instr) (s u : State), inProtocol i = true → LinkInv s → exec i s = .next u → LinkInv u) ∧
  ∀ (h : HostEvent) (s u : State), disciplined h s = true → LinkInv s → hostStep h s = .next u → LinkInv u

/-- 00 R16: an operation is total. From every state, reached by a run or not, no operation faults, and every
one but an ill-formed request (a send whose buffer is shorter than its length, a `SYM.INVALID` inside a window,
a `FRAME` of a length no frame has) answers a next state. Under the invariants of 10 R44 no operation of the
protocol takes a value the spec leaves open: every byte it fetches (20 R62) and every header bit is there. -/
def Obligations.OperationsAreTotal : Prop :=
  (∀ (i : Instr) (s : State), (∀ r : Fault, exec i s ≠ .fault r) ∧
    ((match i with
      | .wrSend buffer length _ => length ≤ buffer.length
      | .lkSend buffer length _ => length ≤ buffer.length
      | .symInvalid d => matchesNoWindow s.cfg (d % 2 ^ s.cfg.tsw) = true
      | .frame _ bytes => 1 ≤ bytes.length ∧ bytes.length ≤ 64
      | _ => True) → ∃ u, exec i s = .next u)) ∧
  ∀ (i : Instr) (s u : State), inProtocol i = true → LinkInv s → exec i s = .next u → u.free = s.free

/-- 10 R43, R44: the state after reset has the form that every step keeps, for every configuration, and
satisfies the link invariants, for every admitted one. -/
def Obligations.ResetSatisfiesTheInvariants : Prop :=
  (∀ c : Cfg, StateFits (State.powerOn c)) ∧ ∀ c : Cfg, c.Admitted → LinkInv (State.powerOn c)
end

