-- ==== Sys2Proof/Laws/Decode.lean ====
section
/-! SUPPORT. The operand bytes of a record read back. -/

namespace Sys2Proof

theorem leBytes_length (k n : Nat) : (leBytes k n).length = k := by
  induction k generalizing n with
  | zero => rfl
  | succ k ih => simp [leBytes, ih]

/-- The low `k` bytes of a number give it back when it fits in them. -/
theorem leNat_leBytes {k n : Nat} (h : n < 256 ^ k) : leNat (leBytes k n) = n := by
  induction k generalizing n with
  | zero => simp at h; simp [leBytes, leNat, h]
  | succ k ih =>
    have hd : n / 256 < 256 ^ k := Nat.div_lt_of_lt_mul (by rwa [pow_succ, mul_comm] at h)
    simp only [leBytes, leNat, ih hd, BitVec.toNat_ofNat]
    omega

/-- Taking a list's own length off the front of a stream gives the list and the rest. -/
theorem takeBytes_append (xs rest : List Byte) : takeBytes xs.length (xs ++ rest) = some (xs, rest) := by
  induction xs with
  | nil => rfl
  | cons x xs ih => simp [takeBytes, ih]

/-- A number operand reads back (log 2). -/
theorem withNum_encodeNum {n : Nat} (h : n < operandBound) (rest : List Byte)
    (k : Nat → List Byte → Decoded) : withNum (encodeNum n ++ rest) k = k n rest := by
  have ht := takeBytes_append (leBytes operandBytes n) rest
  rw [leBytes_length] at ht
  have hn : leNat (leBytes operandBytes n) = n :=
    leNat_leBytes (lt_of_lt_of_eq h (by norm_num [operandBound, operandBytes]))
  simp only [withNum, encodeNum, ht, hn]

/-- A buffer operand reads back (log 2). -/
theorem withBuffer_encodeBuffer {xs : List Byte} (h : xs.length ≤ bufferBound) (rest : List Byte)
    (k : List Byte → List Byte → Decoded) : withBuffer (encodeBuffer xs ++ rest) k = k xs rest := by
  have hl : (BitVec.ofNat 8 xs.length).toNat = xs.length := by
    simp only [BitVec.toNat_ofNat]
    exact Nat.mod_eq_of_lt (lt_of_le_of_lt h (by decide))
  simp only [withBuffer, encodeBuffer, withByte, List.cons_append, hl, takeBytes_append]

end Sys2Proof
end

