-- ==== Sys2Proof/Laws/Network.lean ====
section
/-! SUPPORT. What the network's operations do, said once each (43 R169). -/

namespace Sys2Proof.Machine

open Sys2Proof

/-! ## A device and its capture hardware -/

/-- Two pulses far enough apart are never merged. -/
theorem merges_eq_false_of_apart {m : Node} {t : Time} (h : coincides m t = false) : merges m t = false := by
  simp [merges, h]

/-- A coincident pulse is merged exactly when the next outcome says so. -/
theorem merges_eq_true_iff {m : Node} {t : Time} :
    merges m t = true ↔ coincides m t = true ∧ ∃ rearm, m.captures.head? = some (.merged rearm) := by
  unfold merges
  cases m.captures with
  | nil => simp
  | cons x rest => cases x <;> simp

/-- Capturing a pulse leaves the device, its resolution and its line alone. -/
theorem captureAfter_frame (t : Time) (m : Node) : (captureAfter t m).device = m.device ∧
    (captureAfter t m).resolution = m.resolution ∧ (captureAfter t m).line = m.line := by
  unfold captureAfter
  split <;> [split; skip] <;> exact ⟨rfl, rfl, rfl⟩

/-- What a device makes of a pulse: its Reader's pulse event, or nothing. -/
theorem hear_device (t : Time) (m : Node) :
    (m.hear t).device = if merges m t then m.device else pulse t m.device := rfl
@[simp] theorem hear_line (t : Time) (m : Node) : (m.hear t).line = m.line := (captureAfter_frame t m).2.2

/-! ## The line of a device -/

@[simp] theorem post_device (t : Time) (m : Node) : (m.post t).device = m.device := rfl
@[simp] theorem post_line (t : Time) (m : Node) : (m.post t).line = insertTime t m.line := rfl

/-- A pulse comes onto the line, and the others stay. -/
@[simp] theorem mem_insertTime {p t : Time} {line : List Time} :
    p ∈ insertTime t line ↔ p = t ∨ p ∈ line := by
  induction line with
  | nil => simp [insertTime]
  | cons q rest ih =>
    unfold insertTime
    split <;> simp [ih, or_left_comm]

/-- A line in order of time stays so. -/
theorem insertTime_ordered {t : Time} {line : List Time} (h : line.Pairwise (· ≤ ·)) :
    (insertTime t line).Pairwise (· ≤ ·) := by
  induction line with
  | nil => simp [insertTime]
  | cons q rest ih =>
    obtain ⟨hq, hr⟩ := List.pairwise_cons.mp h
    unfold insertTime
    split
    · next hc => exact List.pairwise_cons.mpr ⟨fun x hx => by
        rcases mem_insertTime.mp hx with rfl | hx
        · exact hc
        · exact hq x hx, ih hr⟩
    · next hc =>
      have hle : t ≤ q := Nat.le_of_lt (Nat.lt_of_not_le hc)
      exact List.pairwise_cons.mpr ⟨fun x hx => by
        rcases List.mem_cons.mp hx with rfl | hx
        · exact hle
        · exact Nat.le_trans hle (hq x hx), h⟩

/-- Hearing pulses leaves the line alone. -/
theorem foldl_hear_line (ps : List Time) (m : Node) : (ps.foldl (fun m p => m.hear p) m).line = m.line := by
  induction ps generalizing m with
  | nil => rfl
  | cons p rest ih => exact (ih _).trans (hear_line p m)

/-- What is left on the line when time has passed to `t`. -/
@[simp] theorem hearBefore_line (t : Time) (m : Node) :
    (m.hearBefore t).line = m.line.dropWhile fun p => decide (p < t) := foldl_hear_line _ _

/-- A line in order of time splits at `t` into what lies before and what does not. -/
theorem takeWhile_before {t : Time} {line : List Time} (h : line.Pairwise (· ≤ ·)) :
    line.takeWhile (fun p => decide (p < t)) = line.filter (fun p => decide (p < t)) ∧
    line.dropWhile (fun p => decide (p < t)) = line.filter (fun p => decide (t ≤ p)) := by
  induction line with
  | nil => simp
  | cons q rest ih =>
    obtain ⟨hq, hr⟩ := List.pairwise_cons.mp h
    by_cases hc : q < t
    · simp [hc, ih hr, Nat.not_le.mpr hc]
    · have hle : ∀ p ∈ rest, t ≤ p := fun p hp => Nat.le_trans (Nat.not_lt.mp hc) (hq p hp)
      have none : rest.filter (fun p => decide (p < t)) = [] := by
        simpa using fun p hp => hle p hp
      have all : rest.filter (fun p => decide (t ≤ p)) = rest := by
        simpa using fun p hp => hle p hp
      simp [hc, none, all, Nat.not_lt.mp hc]

/-- What waits on the line does not bear on what the capture hardware does. -/
theorem captureAfter_setLine (p : Time) (m : Node) (line : List Time) :
    captureAfter p { m with line := line } = { captureAfter p m with line := line } := by
  have e : coincides { m with line := line } p = coincides m p := rfl
  unfold captureAfter
  rw [e]
  cases coincides m p with
  | false => rfl
  | true => rcases m.captures with _ | ⟨_ | ⟨_ | _⟩, rest⟩ <;> rfl

/-- Nor on what the device makes of a pulse. -/
theorem hear_setLine (p : Time) (m : Node) (line : List Time) :
    ({ m with line := line } : Node).hear p = { m.hear p with line := line } := by
  have e : merges { m with line := line } p = merges m p := rfl
  unfold Node.hear
  rw [captureAfter_setLine, e]

/-- Time passes and nothing is heard. -/
theorem hearBefore_of_silent {t : Time} {m : Node} (h : ∀ p ∈ m.line, t ≤ p) : m.hearBefore t = m := by
  have hd : m.line.dropWhile (fun p => decide (p < t)) = m.line := by
    cases hl : m.line with
    | nil => rfl
    | cons p rest =>
      have : ¬ p < t := Nat.not_lt.mpr (h p (by simp [hl]))
      simp [this]
  have ht : m.line.takeWhile (fun p => decide (p < t)) = [] := by
    cases hl : m.line with
    | nil => rfl
    | cons p rest =>
      have : ¬ p < t := Nat.not_lt.mpr (h p (by simp [hl]))
      simp [this]
  simp [Node.hearBefore, hd, ht]

/-! ## The wire -/

@[simp] theorem Net.post_clock (t : Time) (n : Net) : (n.post t).clock = n.clock := rfl
@[simp] theorem Net.post_getElem? (t : Time) (n : Net) (j : Nat) :
    (n.post t).nodes[j]? = (n.nodes[j]?).map (Node.post t) := by simp [Net.post]
@[simp] theorem Net.advance_clock (t : Time) (n : Net) : (n.advance t).clock = max n.clock t := rfl
@[simp] theorem Net.advance_getElem? (t : Time) (n : Net) (j : Nat) :
    (n.advance t).nodes[j]? = (n.nodes[j]?).map (Node.hearBefore t) := by simp [Net.advance]
@[simp] theorem Net.carry_zero (t : Time) (n : Net) : Net.carry 0 t n = n := rfl
@[simp] theorem Net.carry_succ (j : Nat) (t : Time) (n : Net) :
    Net.carry (j + 1) t n = Net.carry j t (n.post t) := rfl

/-- An instruction that the device runs to a next state runs on the network. -/
theorem Net.run_of_next {k : Nat} {i : Instr} {t : Time} {n : Net} {m : Node} {s : State}
    (hm : n.nodes[k]? = some m) (hs : exec i m.device = .next s) :
    n.run k i t = .next (n.land k i t m s) := by
  simp [Net.run, hm, hs]

end Sys2Proof.Machine
end

