-- ==== Sys2Proof/Laws/State.lean ====
section
/-! SUPPORT. One lemma per field per update of State, so that no proof unfolds a record update. -/

namespace Sys2Proof.Machine

open Sys2Proof

section

variable (s : State) (r : Reader)

@[simp] theorem State.setRd_cfg : (s.setRd r).cfg = s.cfg := rfl
@[simp] theorem State.setRd_rd : (s.setRd r).rd = r := rfl
@[simp] theorem State.setRd_rbuf : (s.setRd r).rbuf = s.rbuf := rfl
@[simp] theorem State.setRd_wr : (s.setRd r).wr = s.wr := rfl
@[simp] theorem State.setRd_wbuf : (s.setRd r).wbuf = s.wbuf := rfl
@[simp] theorem State.setRd_txBlank : (s.setRd r).txBlank = s.txBlank := rfl
@[simp] theorem State.setRd_sig : (s.setRd r).sig = s.sig := rfl
@[simp] theorem State.setRd_tmr : (s.setRd r).tmr = s.tmr := rfl
@[simp] theorem State.setRd_trace : (s.setRd r).trace = s.trace := rfl
@[simp] theorem State.setRd_stim : (s.setRd r).stim = s.stim := rfl
@[simp] theorem State.setRd_free : (s.setRd r).free = s.free := rfl

end

section

variable (s : State) (m : Memory)

@[simp] theorem State.setRbuf_cfg : (s.setRbuf m).cfg = s.cfg := rfl
@[simp] theorem State.setRbuf_rd : (s.setRbuf m).rd = s.rd := rfl
@[simp] theorem State.setRbuf_rbuf : (s.setRbuf m).rbuf = m := rfl
@[simp] theorem State.setRbuf_wr : (s.setRbuf m).wr = s.wr := rfl
@[simp] theorem State.setRbuf_wbuf : (s.setRbuf m).wbuf = s.wbuf := rfl
@[simp] theorem State.setRbuf_txBlank : (s.setRbuf m).txBlank = s.txBlank := rfl
@[simp] theorem State.setRbuf_sig : (s.setRbuf m).sig = s.sig := rfl
@[simp] theorem State.setRbuf_tmr : (s.setRbuf m).tmr = s.tmr := rfl
@[simp] theorem State.setRbuf_trace : (s.setRbuf m).trace = s.trace := rfl
@[simp] theorem State.setRbuf_stim : (s.setRbuf m).stim = s.stim := rfl
@[simp] theorem State.setRbuf_free : (s.setRbuf m).free = s.free := rfl

end

section

variable (s : State) (w : Writer)

@[simp] theorem State.setWr_cfg : (s.setWr w).cfg = s.cfg := rfl
@[simp] theorem State.setWr_rd : (s.setWr w).rd = s.rd := rfl
@[simp] theorem State.setWr_rbuf : (s.setWr w).rbuf = s.rbuf := rfl
@[simp] theorem State.setWr_wr : (s.setWr w).wr = w := rfl
@[simp] theorem State.setWr_wbuf : (s.setWr w).wbuf = s.wbuf := rfl
@[simp] theorem State.setWr_txBlank : (s.setWr w).txBlank = s.txBlank := rfl
@[simp] theorem State.setWr_sig : (s.setWr w).sig = s.sig := rfl
@[simp] theorem State.setWr_tmr : (s.setWr w).tmr = s.tmr := rfl
@[simp] theorem State.setWr_trace : (s.setWr w).trace = s.trace := rfl
@[simp] theorem State.setWr_stim : (s.setWr w).stim = s.stim := rfl
@[simp] theorem State.setWr_free : (s.setWr w).free = s.free := rfl

end

section

variable (s : State) (m : Memory)

@[simp] theorem State.setWbuf_cfg : (s.setWbuf m).cfg = s.cfg := rfl
@[simp] theorem State.setWbuf_rd : (s.setWbuf m).rd = s.rd := rfl
@[simp] theorem State.setWbuf_rbuf : (s.setWbuf m).rbuf = s.rbuf := rfl
@[simp] theorem State.setWbuf_wr : (s.setWbuf m).wr = s.wr := rfl
@[simp] theorem State.setWbuf_wbuf : (s.setWbuf m).wbuf = m := rfl
@[simp] theorem State.setWbuf_txBlank : (s.setWbuf m).txBlank = s.txBlank := rfl
@[simp] theorem State.setWbuf_sig : (s.setWbuf m).sig = s.sig := rfl
@[simp] theorem State.setWbuf_tmr : (s.setWbuf m).tmr = s.tmr := rfl
@[simp] theorem State.setWbuf_trace : (s.setWbuf m).trace = s.trace := rfl
@[simp] theorem State.setWbuf_stim : (s.setWbuf m).stim = s.stim := rfl
@[simp] theorem State.setWbuf_free : (s.setWbuf m).free = s.free := rfl

end

section

variable (s : State) (b : Bool)

@[simp] theorem State.setTxBlank_cfg : (s.setTxBlank b).cfg = s.cfg := rfl
@[simp] theorem State.setTxBlank_rd : (s.setTxBlank b).rd = s.rd := rfl
@[simp] theorem State.setTxBlank_rbuf : (s.setTxBlank b).rbuf = s.rbuf := rfl
@[simp] theorem State.setTxBlank_wr : (s.setTxBlank b).wr = s.wr := rfl
@[simp] theorem State.setTxBlank_wbuf : (s.setTxBlank b).wbuf = s.wbuf := rfl
@[simp] theorem State.setTxBlank_txBlank : (s.setTxBlank b).txBlank = b := rfl
@[simp] theorem State.setTxBlank_sig : (s.setTxBlank b).sig = s.sig := rfl
@[simp] theorem State.setTxBlank_tmr : (s.setTxBlank b).tmr = s.tmr := rfl
@[simp] theorem State.setTxBlank_trace : (s.setTxBlank b).trace = s.trace := rfl
@[simp] theorem State.setTxBlank_stim : (s.setTxBlank b).stim = s.stim := rfl
@[simp] theorem State.setTxBlank_free : (s.setTxBlank b).free = s.free := rfl

end

section

variable (s : State) (g : Signals)

@[simp] theorem State.setSig_cfg : (s.setSig g).cfg = s.cfg := rfl
@[simp] theorem State.setSig_rd : (s.setSig g).rd = s.rd := rfl
@[simp] theorem State.setSig_rbuf : (s.setSig g).rbuf = s.rbuf := rfl
@[simp] theorem State.setSig_wr : (s.setSig g).wr = s.wr := rfl
@[simp] theorem State.setSig_wbuf : (s.setSig g).wbuf = s.wbuf := rfl
@[simp] theorem State.setSig_txBlank : (s.setSig g).txBlank = s.txBlank := rfl
@[simp] theorem State.setSig_sig : (s.setSig g).sig = g := rfl
@[simp] theorem State.setSig_tmr : (s.setSig g).tmr = s.tmr := rfl
@[simp] theorem State.setSig_trace : (s.setSig g).trace = s.trace := rfl
@[simp] theorem State.setSig_stim : (s.setSig g).stim = s.stim := rfl
@[simp] theorem State.setSig_free : (s.setSig g).free = s.free := rfl

end

section

variable (s : State) (t : Timer)

@[simp] theorem State.setTmr_cfg : (s.setTmr t).cfg = s.cfg := rfl
@[simp] theorem State.setTmr_rd : (s.setTmr t).rd = s.rd := rfl
@[simp] theorem State.setTmr_rbuf : (s.setTmr t).rbuf = s.rbuf := rfl
@[simp] theorem State.setTmr_wr : (s.setTmr t).wr = s.wr := rfl
@[simp] theorem State.setTmr_wbuf : (s.setTmr t).wbuf = s.wbuf := rfl
@[simp] theorem State.setTmr_txBlank : (s.setTmr t).txBlank = s.txBlank := rfl
@[simp] theorem State.setTmr_sig : (s.setTmr t).sig = s.sig := rfl
@[simp] theorem State.setTmr_tmr : (s.setTmr t).tmr = t := rfl
@[simp] theorem State.setTmr_trace : (s.setTmr t).trace = s.trace := rfl
@[simp] theorem State.setTmr_stim : (s.setTmr t).stim = s.stim := rfl
@[simp] theorem State.setTmr_free : (s.setTmr t).free = s.free := rfl

end

section

variable (s : State) (b : List Byte)

@[simp] theorem State.setStim_cfg : (s.setStim b).cfg = s.cfg := rfl
@[simp] theorem State.setStim_rd : (s.setStim b).rd = s.rd := rfl
@[simp] theorem State.setStim_rbuf : (s.setStim b).rbuf = s.rbuf := rfl
@[simp] theorem State.setStim_wr : (s.setStim b).wr = s.wr := rfl
@[simp] theorem State.setStim_wbuf : (s.setStim b).wbuf = s.wbuf := rfl
@[simp] theorem State.setStim_txBlank : (s.setStim b).txBlank = s.txBlank := rfl
@[simp] theorem State.setStim_sig : (s.setStim b).sig = s.sig := rfl
@[simp] theorem State.setStim_tmr : (s.setStim b).tmr = s.tmr := rfl
@[simp] theorem State.setStim_trace : (s.setStim b).trace = s.trace := rfl
@[simp] theorem State.setStim_stim : (s.setStim b).stim = b := rfl
@[simp] theorem State.setStim_free : (s.setStim b).free = s.free := rfl

end

section

variable (s : State) (n : Nat)

@[simp] theorem State.setFree_cfg : (s.setFree n).cfg = s.cfg := rfl
@[simp] theorem State.setFree_rd : (s.setFree n).rd = s.rd := rfl
@[simp] theorem State.setFree_rbuf : (s.setFree n).rbuf = s.rbuf := rfl
@[simp] theorem State.setFree_wr : (s.setFree n).wr = s.wr := rfl
@[simp] theorem State.setFree_wbuf : (s.setFree n).wbuf = s.wbuf := rfl
@[simp] theorem State.setFree_txBlank : (s.setFree n).txBlank = s.txBlank := rfl
@[simp] theorem State.setFree_sig : (s.setFree n).sig = s.sig := rfl
@[simp] theorem State.setFree_tmr : (s.setFree n).tmr = s.tmr := rfl
@[simp] theorem State.setFree_trace : (s.setFree n).trace = s.trace := rfl
@[simp] theorem State.setFree_stim : (s.setFree n).stim = s.stim := rfl
@[simp] theorem State.setFree_free : (s.setFree n).free = n := rfl

end

section

variable (s : State) (o : List Output)

@[simp] theorem State.emit_cfg : (s.emit o).cfg = s.cfg := rfl
@[simp] theorem State.emit_rd : (s.emit o).rd = s.rd := rfl
@[simp] theorem State.emit_rbuf : (s.emit o).rbuf = s.rbuf := rfl
@[simp] theorem State.emit_wr : (s.emit o).wr = s.wr := rfl
@[simp] theorem State.emit_wbuf : (s.emit o).wbuf = s.wbuf := rfl
@[simp] theorem State.emit_txBlank : (s.emit o).txBlank = s.txBlank := rfl
@[simp] theorem State.emit_sig : (s.emit o).sig = s.sig := rfl
@[simp] theorem State.emit_tmr : (s.emit o).tmr = s.tmr := rfl
@[simp] theorem State.emit_trace : (s.emit o).trace = s.trace ++ o := rfl
@[simp] theorem State.emit_stim : (s.emit o).stim = s.stim := rfl
@[simp] theorem State.emit_free : (s.emit o).free = s.free := rfl

end

end Sys2Proof.Machine
end

