-- ==== Sys2Proof/Laws/Ops.lean ====
section
/-! SUPPORT. What the shared operations do: times, the two byte spaces, signals, the timer, the pulse. -/

namespace Sys2Proof.Machine

open Sys2Proof

/-! ## Times -/

theorem time_lt (c : Cfg) (t : Time) : time c t < 2 ^ c.tsw :=
  Nat.mod_lt _ (Nat.two_pow_pos _)

theorem time_eq_self {c : Cfg} {t : Time} (h : t < 2 ^ c.tsw) : time c t = t := Nat.mod_eq_of_lt h

@[simp] theorem time_time (c : Cfg) (t : Time) : time c (time c t) = time c t :=
  time_eq_self (time_lt c t)

theorem elapsed_lt (c : Cfg) (a b : Time) : elapsed c a b < 2 ^ c.tsw :=
  Nat.mod_lt _ (Nat.two_pow_pos _)

/-- `elapsed` reads only the low `TSW` bits of its first time. -/
@[simp] theorem elapsed_time_left (c : Cfg) (a b : Time) : elapsed c (time c a) b = elapsed c a b := by
  simp [elapsed, time]

/-- `elapsed` reads only the low `TSW` bits of its second time. -/
@[simp] theorem elapsed_time_right (c : Cfg) (a b : Time) : elapsed c a (time c b) = elapsed c a b := by
  simp [elapsed, time]

/-- Modular difference of a sum, on numbers. -/
theorem mod_sub_of_add (m a g : Nat) (h : g < m) : ((a + g) % m + m - a % m) % m = g := by
  have ha : a % m < m := Nat.mod_lt _ (by omega)
  rw [Nat.add_mod a g m, Nat.mod_eq_of_lt h]
  by_cases hc : a % m + g < m
  · rw [Nat.mod_eq_of_lt hc, show a % m + g + m - a % m = g + m by omega, Nat.add_mod_right,
      Nat.mod_eq_of_lt h]
  · have hq : (a % m + g) % m = a % m + g - m := by
      rw [Nat.mod_eq_sub_mod (by omega), Nat.mod_eq_of_lt (by omega)]
    rw [hq, show a % m + g - m + m - a % m = g by omega, Nat.mod_eq_of_lt h]

/-- A gap shorter than the wrap is measured exactly (00 R11). -/
theorem elapsed_add {c : Cfg} (a : Time) {g : Time} (h : g < 2 ^ c.tsw) : elapsed c a (a + g) = g :=
  mod_sub_of_add _ a g h

/-! ## Memory -/

@[simp] theorem Memory.read_nil (i : Nat) : Memory.read [] i = none := rfl

theorem Memory.read_cons (j : Nat) (v : Byte) (m : Memory) (i : Nat) :
    Memory.read ((j, v) :: m) i = if j = i then some v else Memory.read m i := rfl

/-- Read after write, the same index and another one. -/
theorem Memory.read_write (m : Memory) (i : Nat) (v : Byte) (k : Nat) :
    (Memory.write m i v).read k = if i = k then some v else Memory.read m k := by
  induction m with
  | nil => simp [Memory.write, Memory.read_cons]
  | cons x m ih =>
    obtain ⟨j, w⟩ := x
    simp only [Memory.write]
    split
    · simp only [Memory.read_cons]
    · split
      · subst j
        simp only [Memory.read_cons]
        split <;> rfl
      · simp only [Memory.read_cons, ih]
        split
        · next h h' => rw [if_neg (by omega)]
        · rfl

@[simp] theorem Memory.read_write_same (m : Memory) (i : Nat) (v : Byte) :
    (Memory.write m i v).read i = some v := by simp [Memory.read_write]

theorem Memory.read_write_other (m : Memory) {i k : Nat} (v : Byte) (h : k ≠ i) :
    (Memory.write m i v).read k = Memory.read m k := by simp [Memory.read_write, Ne.symm h]

/-- What a written space holds was written or was there before. -/
theorem Memory.mem_write {m : Memory} {i : Nat} {v : Byte} {x : Host.Cell} (h : x ∈ Memory.write m i v) :
    x = (i, v) ∨ x ∈ m := by
  induction m with
  | nil => exact .inl (by simpa [Memory.write] using h)
  | cons y m ih =>
    obtain ⟨j, w⟩ := y
    simp only [Memory.write] at h
    split at h
    · exact (List.mem_cons.1 h)
    · split at h
      · rcases List.mem_cons.1 h with h | h
        · exact .inl h
        · exact .inr (List.mem_cons_of_mem _ h)
      · rcases List.mem_cons.1 h with h | h
        · exact .inr (h ▸ List.mem_cons_self)
        · exact (ih h).imp_right (List.mem_cons_of_mem _)

/-- A write keeps the canonical form. -/
theorem Memory.wf_write {m : Memory} (i : Nat) (v : Byte) (h : Memory.wf m) :
    Memory.wf (Memory.write m i v) := by
  induction m with
  | nil => simp [Memory.write, Memory.wf]
  | cons y m ih =>
    obtain ⟨j, w⟩ := y
    have hm : Memory.wf m := (List.pairwise_cons.1 h).2
    have hj : ∀ k ∈ m.map Prod.fst, j < k := (List.pairwise_cons.1 h).1
    simp only [Memory.write]
    split
    · next hij =>
      refine List.pairwise_cons.2 ⟨fun k hk => ?_, h⟩
      rcases List.mem_cons.1 hk with rfl | hk
      · exact hij
      · exact hij.trans (hj k hk)
    · split
      · next hij => subst hij; exact h
      · next h1 h2 =>
        refine List.pairwise_cons.2 ⟨fun k hk => ?_, ih hm⟩
        obtain ⟨x, hx, rfl⟩ := List.mem_map.1 hk
        rcases Memory.mem_write hx with rfl | hx
        · show j < i; omega
        · exact hj _ (List.mem_map_of_mem hx)

theorem Memory.le_of_mem_ofBytes {bytes : List Byte} {i : Nat} {x : Host.Cell}
    (h : x ∈ Memory.ofBytes i bytes) : i ≤ x.1 := by
  induction bytes generalizing i with
  | nil => simp [Memory.ofBytes] at h
  | cons b bs ih =>
    rcases List.mem_cons.1 (by simpa [Memory.ofBytes] using h) with rfl | h
    · exact le_rfl
    · exact Nat.le_of_succ_le (ih h)

/-- The space a send binds is in canonical form. -/
theorem Memory.wf_ofBytes (i : Nat) (bytes : List Byte) : Memory.wf (Memory.ofBytes i bytes) := by
  induction bytes generalizing i with
  | nil => exact List.Pairwise.nil
  | cons b bs ih =>
    refine List.pairwise_cons.2 ⟨fun k hk => ?_, ih (i + 1)⟩
    obtain ⟨x, hx, rfl⟩ := List.mem_map.1 hk
    exact Memory.le_of_mem_ofBytes hx

/-- The space a send binds holds the caller's bytes in order (20 R62). -/
theorem Memory.read_ofBytes (bytes : List Byte) (i k : Nat) :
    (Memory.ofBytes i bytes).read (i + k) = bytes[k]? := by
  induction bytes generalizing i k with
  | nil => simp [Memory.ofBytes]
  | cons b bs ih =>
    cases k with
    | zero => simp [Memory.ofBytes, Memory.read_cons]
    | succ k =>
      rw [Memory.ofBytes, Memory.read_cons, if_neg (by omega), show i + (k + 1) = i + 1 + k by omega, ih]
      rfl

/-- A store to `RBUF` changes the bytes of `RBUF` alone. -/
theorem storeRbuf_eq (i : Nat) (v : Byte) (s : State) :
    storeRbuf i v s = s.setRbuf (if i < s.cfg.capacity then s.rbuf.write i v else s.rbuf) := by
  unfold storeRbuf
  split <;> rfl

/-- Everything a store to `RBUF` can do: write an existing index, or nothing. -/
theorem storeRbuf_cases (i : Nat) (v : Byte) (s : State) :
    (i < s.cfg.capacity ∧ storeRbuf i v s = s.setRbuf (s.rbuf.write i v)) ∨
    (s.cfg.capacity ≤ i ∧ storeRbuf i v s = s) := by
  unfold storeRbuf
  split
  · exact .inl ⟨‹_›, rfl⟩
  · exact .inr ⟨by omega, rfl⟩

/-- A store to `RBUF` leaves every other index alone. -/
theorem storeRbuf_read_other {i k : Nat} (v : Byte) (s : State) (h : k ≠ i) :
    (storeRbuf i v s).rbuf.read k = s.rbuf.read k := by
  rcases storeRbuf_cases i v s with ⟨-, e⟩ | ⟨-, e⟩ <;> rw [e]
  exact Memory.read_write_other _ _ h

/-- A store to `RBUF` keeps the canonical form. -/
theorem storeRbuf_wf {i : Nat} {v : Byte} {s : State} (hs : Memory.wf s.rbuf) :
    Memory.wf (storeRbuf i v s).rbuf := by
  rcases storeRbuf_cases i v s with ⟨-, e⟩ | ⟨-, e⟩ <;> rw [e]
  · exact Memory.wf_write i v hs
  · exact hs

section

variable (i : Nat) (v : Byte) (s : State)

@[simp] theorem storeRbuf_cfg : (storeRbuf i v s).cfg = s.cfg := by rw [storeRbuf_eq]; rfl
@[simp] theorem storeRbuf_rd : (storeRbuf i v s).rd = s.rd := by rw [storeRbuf_eq]; rfl
@[simp] theorem storeRbuf_wr : (storeRbuf i v s).wr = s.wr := by rw [storeRbuf_eq]; rfl
@[simp] theorem storeRbuf_wbuf : (storeRbuf i v s).wbuf = s.wbuf := by rw [storeRbuf_eq]; rfl
@[simp] theorem storeRbuf_txBlank : (storeRbuf i v s).txBlank = s.txBlank := by rw [storeRbuf_eq]; rfl
@[simp] theorem storeRbuf_sig : (storeRbuf i v s).sig = s.sig := by rw [storeRbuf_eq]; rfl
@[simp] theorem storeRbuf_tmr : (storeRbuf i v s).tmr = s.tmr := by rw [storeRbuf_eq]; rfl
@[simp] theorem storeRbuf_trace : (storeRbuf i v s).trace = s.trace := by rw [storeRbuf_eq]; rfl
@[simp] theorem storeRbuf_stim : (storeRbuf i v s).stim = s.stim := by rw [storeRbuf_eq]; rfl
@[simp] theorem storeRbuf_free : (storeRbuf i v s).free = s.free := by rw [storeRbuf_eq]; rfl

end

/-- Drawing a free value advances its counter and does nothing else. -/
theorem draw_eq (s : State) : draw s = { s with free := s.free + 1 } := rfl

/-- Both spaces are in canonical form after reset. -/
theorem reset_memory_wf : Memory.wf State.reset.rbuf ∧ Memory.wf State.reset.wbuf :=
  ⟨List.Pairwise.nil, List.Pairwise.nil⟩

/-! ## Sequencing -/

@[simp] theorem andThen_next (s : State) (f : State → Outcome) : andThen (.next s) f = f s := rfl

/-- A sequence that answers next ran both of its parts. -/
theorem andThen_eq_next {o : Outcome} {f : State → Outcome} {t : State} (h : andThen o f = .next t) :
    ∃ s, o = .next s ∧ f s = .next t := by
  cases o with
  | next s => exact ⟨s, rfl, h⟩
  | fault r => cases h
  | refused r => cases h

/-! ## Signals, timer, pulse: the one field each writes -/

section

variable (g : Signal) (s : State)

@[simp] theorem raise_cfg : (raise g s).cfg = s.cfg := rfl
@[simp] theorem raise_rd : (raise g s).rd = s.rd := rfl
@[simp] theorem raise_rbuf : (raise g s).rbuf = s.rbuf := rfl
@[simp] theorem raise_wr : (raise g s).wr = s.wr := rfl
@[simp] theorem raise_wbuf : (raise g s).wbuf = s.wbuf := rfl
@[simp] theorem raise_txBlank : (raise g s).txBlank = s.txBlank := rfl
@[simp] theorem raise_sig : (raise g s).sig = s.sig.record g := rfl
@[simp] theorem raise_tmr : (raise g s).tmr = s.tmr := rfl
@[simp] theorem raise_trace : (raise g s).trace = s.trace ++ [.raised g] := rfl
@[simp] theorem raise_stim : (raise g s).stim = s.stim := rfl
@[simp] theorem raise_free : (raise g s).free = s.free := rfl

end

section

variable (g : Signal) (s : State)

@[simp] theorem consume_cfg : (consume g s).cfg = s.cfg := rfl
@[simp] theorem consume_rd : (consume g s).rd = s.rd := rfl
@[simp] theorem consume_rbuf : (consume g s).rbuf = s.rbuf := rfl
@[simp] theorem consume_wr : (consume g s).wr = s.wr := rfl
@[simp] theorem consume_wbuf : (consume g s).wbuf = s.wbuf := rfl
@[simp] theorem consume_txBlank : (consume g s).txBlank = s.txBlank := rfl
@[simp] theorem consume_sig : (consume g s).sig = s.sig.clear g := rfl
@[simp] theorem consume_tmr : (consume g s).tmr = s.tmr := rfl
@[simp] theorem consume_trace : (consume g s).trace = s.trace ++ [.callback g] := rfl
@[simp] theorem consume_stim : (consume g s).stim = s.stim := rfl
@[simp] theorem consume_free : (consume g s).free = s.free := rfl

end

section

variable (d : Time) (s : State)

@[simp] theorem scheduleAfter_cfg : (scheduleAfter d s).cfg = s.cfg := rfl
@[simp] theorem scheduleAfter_rd : (scheduleAfter d s).rd = s.rd := rfl
@[simp] theorem scheduleAfter_rbuf : (scheduleAfter d s).rbuf = s.rbuf := rfl
@[simp] theorem scheduleAfter_wr : (scheduleAfter d s).wr = s.wr := rfl
@[simp] theorem scheduleAfter_wbuf : (scheduleAfter d s).wbuf = s.wbuf := rfl
@[simp] theorem scheduleAfter_txBlank : (scheduleAfter d s).txBlank = s.txBlank := rfl
@[simp] theorem scheduleAfter_sig : (scheduleAfter d s).sig = s.sig := rfl
@[simp] theorem scheduleAfter_tmr : (scheduleAfter d s).tmr = { armed := true, delay := d } := rfl
@[simp] theorem scheduleAfter_trace : (scheduleAfter d s).trace = s.trace ++ [.timerSchedule d] := rfl
@[simp] theorem scheduleAfter_stim : (scheduleAfter d s).stim = s.stim := rfl
@[simp] theorem scheduleAfter_free : (scheduleAfter d s).free = s.free := rfl

end

section

variable (s : State)

@[simp] theorem cancelTimer_cfg : (cancelTimer s).cfg = s.cfg := rfl
@[simp] theorem cancelTimer_rd : (cancelTimer s).rd = s.rd := rfl
@[simp] theorem cancelTimer_rbuf : (cancelTimer s).rbuf = s.rbuf := rfl
@[simp] theorem cancelTimer_wr : (cancelTimer s).wr = s.wr := rfl
@[simp] theorem cancelTimer_wbuf : (cancelTimer s).wbuf = s.wbuf := rfl
@[simp] theorem cancelTimer_txBlank : (cancelTimer s).txBlank = s.txBlank := rfl
@[simp] theorem cancelTimer_sig : (cancelTimer s).sig = s.sig := rfl
@[simp] theorem cancelTimer_tmr : (cancelTimer s).tmr = { s.tmr with armed := false } := rfl
@[simp] theorem cancelTimer_trace : (cancelTimer s).trace = s.trace ++ [.timerCancel] := rfl
@[simp] theorem cancelTimer_stim : (cancelTimer s).stim = s.stim := rfl
@[simp] theorem cancelTimer_free : (cancelTimer s).free = s.free := rfl

end

section

variable (s : State)

@[simp] theorem fireTimer_cfg : (fireTimer s).cfg = s.cfg := rfl
@[simp] theorem fireTimer_rd : (fireTimer s).rd = s.rd := rfl
@[simp] theorem fireTimer_rbuf : (fireTimer s).rbuf = s.rbuf := rfl
@[simp] theorem fireTimer_wr : (fireTimer s).wr = s.wr := rfl
@[simp] theorem fireTimer_wbuf : (fireTimer s).wbuf = s.wbuf := rfl
@[simp] theorem fireTimer_txBlank : (fireTimer s).txBlank = s.txBlank := rfl
@[simp] theorem fireTimer_sig : (fireTimer s).sig = s.sig := rfl
@[simp] theorem fireTimer_tmr : (fireTimer s).tmr = { s.tmr with armed := false } := rfl
@[simp] theorem fireTimer_trace : (fireTimer s).trace = s.trace := rfl
@[simp] theorem fireTimer_stim : (fireTimer s).stim = s.stim := rfl
@[simp] theorem fireTimer_free : (fireTimer s).free = s.free := rfl

end

section

variable (now : Time) (s : State)

@[simp] theorem emitPulse_cfg : (emitPulse now s).cfg = s.cfg := rfl
@[simp] theorem emitPulse_rd : (emitPulse now s).rd = s.rd := rfl
@[simp] theorem emitPulse_rbuf : (emitPulse now s).rbuf = s.rbuf := rfl
@[simp] theorem emitPulse_wr : (emitPulse now s).wr = s.wr := rfl
@[simp] theorem emitPulse_wbuf : (emitPulse now s).wbuf = s.wbuf := rfl
@[simp] theorem emitPulse_txBlank : (emitPulse now s).txBlank = s.txBlank := rfl
@[simp] theorem emitPulse_sig : (emitPulse now s).sig = s.sig := rfl
@[simp] theorem emitPulse_tmr : (emitPulse now s).tmr = s.tmr := rfl
@[simp] theorem emitPulse_trace : (emitPulse now s).trace = s.trace ++ [.pulse (time s.cfg now)] := rfl
@[simp] theorem emitPulse_stim : (emitPulse now s).stim = s.stim := rfl
@[simp] theorem emitPulse_free : (emitPulse now s).free = s.free := rfl

end

section

variable (t : Time) (s : State)

@[simp] theorem resync_cfg : (resync t s).cfg = s.cfg := rfl
@[simp] theorem resync_rd : (resync t s).rd =
    { s.rd with startTs := time s.cfg t, lastTs := time s.cfg t, state := .ape } := rfl
@[simp] theorem resync_rbuf : (resync t s).rbuf = s.rbuf := rfl
@[simp] theorem resync_wr : (resync t s).wr = s.wr := rfl
@[simp] theorem resync_wbuf : (resync t s).wbuf = s.wbuf := rfl
@[simp] theorem resync_txBlank : (resync t s).txBlank = s.txBlank := rfl
@[simp] theorem resync_sig : (resync t s).sig = s.sig := rfl
@[simp] theorem resync_tmr : (resync t s).tmr = s.tmr := rfl
@[simp] theorem resync_trace : (resync t s).trace = s.trace := rfl
@[simp] theorem resync_stim : (resync t s).stim = s.stim := rfl
@[simp] theorem resync_free : (resync t s).free = s.free := rfl

end

/-- Consuming a signal clears its flag, calls its observer and does nothing else (60 R189). -/
theorem consume_eq (g : Signal) (s : State) :
    consume g s = { s with sig := s.sig.clear g, trace := s.trace ++ [.callback g] } := rfl

/-- Arming the timer (60 R193). -/
theorem scheduleAfter_eq (d : Time) (s : State) :
    scheduleAfter d s =
      { s with tmr := { armed := true, delay := d }, trace := s.trace ++ [.timerSchedule d] } := rfl

/-- Disarming the timer (60 R193). -/
theorem cancelTimer_eq (s : State) :
    cancelTimer s = { s with tmr := { s.tmr with armed := false }, trace := s.trace ++ [.timerCancel] } :=
  rfl

/-- The one-shot fires (10 R39). -/
theorem fireTimer_eq (s : State) : fireTimer s = { s with tmr := { s.tmr with armed := false } } := rfl

/-- One pulse on the pin (42 R149). -/
theorem emitPulse_eq (now : Time) (s : State) :
    emitPulse now s = { s with trace := s.trace ++ [.pulse (time s.cfg now)] } := rfl

/-- The resynchronisation (41 R117) writes two timestamps and the state of the Reader. -/
theorem resync_eq (t : Time) (s : State) :
    resync t s =
      { s with rd := { s.rd with startTs := time s.cfg t, lastTs := time s.cfg t, state := .ape } } := rfl

/-- The assembly step keeps the low seven bits and puts the new bit below them (41 R116). -/
theorem accumulate_toNat (a : Byte) (b : Bool) :
    (accumulate a b).toNat = (2 * a.toNat + b.toNat) % 256 := by
  revert a b; decide

end Sys2Proof.Machine
end

