-- ==== Sys2Proof/Laws/PerInstr.lean ====
section
/-! SUPPORT. A fact about each instruction as syntax: its record begins with the code its row of the opcode
table gives it, in the format of the row (30 R89, R90). -/

namespace Sys2Proof.Laws.RecordHead

open Sys2Proof

/-- The first byte of the record of an instruction: `0x00` and the operation code for an operation, `0x40`
and the symbol code for a wire symbol, `0x80` and the header value for a frame. -/
def head : Instr → Byte
  | .classify _ => 0x00#8
  | .ispreamble _ => 0x01#8
  | .interval _ => 0x02#8
  | .rdStart _ => 0x10#8
  | .rdStop => 0x11#8
  | .rdPulse _ => 0x12#8
  | .rdHasincoming => 0x13#8
  | .rdRestore _ => 0x14#8
  | .rdBlank => 0x15#8
  | .rdIsblanking => 0x16#8
  | .rdCansend _ _ => 0x17#8
  | .rdWatchdog _ => 0x18#8
  | .wrStart _ => 0x20#8
  | .wrStop => 0x21#8
  | .wrSend _ _ _ => 0x22#8
  | .wrExpiry _ => 0x23#8
  | .lkStart _ => 0x30#8
  | .lkStop => 0x31#8
  | .lkCansend _ => 0x32#8
  | .lkSend _ _ _ => 0x33#8
  | .lkService => 0x34#8
  | .lkRestore => 0x35#8
  | .symZero => 0x40#8
  | .symOne => 0x41#8
  | .symPreamble => 0x42#8
  | .symInvalid _ => 0x43#8
  | .frame _ bytes => BitVec.ofNat 8 (0x80 + (bytes.length - 1))

/-- The record begins so. -/
def Statement (i : Instr) : Prop := (encode i).head? = some (head i)

theorem classify (d : Time) : Statement (.classify d) := rfl
theorem ispreamble (d : Time) : Statement (.ispreamble d) := rfl
theorem interval (sym : TxSymbol) : Statement (.interval sym) := rfl
theorem rdStart (now : Time) : Statement (.rdStart now) := rfl
theorem rdStop : Statement (.rdStop) := rfl
theorem rdPulse (t : Time) : Statement (.rdPulse t) := rfl
theorem rdHasincoming : Statement (.rdHasincoming) := rfl
theorem rdRestore (blankLevel : Bool) : Statement (.rdRestore blankLevel) := rfl
theorem rdBlank : Statement (.rdBlank) := rfl
theorem rdIsblanking : Statement (.rdIsblanking) := rfl
theorem rdCansend (now : Time) (silence : Time) : Statement (.rdCansend now silence) := rfl
theorem rdWatchdog (now : Time) : Statement (.rdWatchdog now) := rfl
theorem wrStart (now : Time) : Statement (.wrStart now) := rfl
theorem wrStop : Statement (.wrStop) := rfl
theorem wrSend (buffer : List Byte) (length : Nat) (now : Time) : Statement (.wrSend buffer length now) := rfl
theorem wrExpiry (now : Time) : Statement (.wrExpiry now) := rfl
theorem lkStart (now : Time) : Statement (.lkStart now) := rfl
theorem lkStop : Statement (.lkStop) := rfl
theorem lkCansend (now : Time) : Statement (.lkCansend now) := rfl
theorem lkSend (buffer : List Byte) (length : Nat) (now : Time) : Statement (.lkSend buffer length now) := rfl
theorem lkService : Statement (.lkService) := rfl
theorem lkRestore : Statement (.lkRestore) := rfl
theorem symZero : Statement (.symZero) := rfl
theorem symOne : Statement (.symOne) := rfl
theorem symPreamble : Statement (.symPreamble) := rfl
theorem symInvalid (d : Time) : Statement (.symInvalid d) := rfl
theorem frame (t : Time) (bytes : List Byte) : Statement (.frame t bytes) := rfl

end Sys2Proof.Laws.RecordHead
end

