-- ==== Sys2Proof/Laws/Units.lean ====
section
/-! SUPPORT. What the operations of the Reader, the Writer and the Arbiter can do, said once each. -/

namespace Sys2Proof.Machine

open Sys2Proof

/-! ## What a unit's operation leaves alone -/

/-- The Reader's side is untouched: its fields and `RBUF` (10 R20, the owner column). -/
structure SameReader (s t : State) : Prop where
  rd : t.rd = s.rd
  rbuf : t.rbuf = s.rbuf

/-- The Writer's side is untouched: its fields, `WBUF`, the timer, the free values drawn. -/
structure SameWriter (s t : State) : Prop where
  wr : t.wr = s.wr
  wbuf : t.wbuf = s.wbuf
  tmr : t.tmr = s.tmr
  free : t.free = s.free

/-- The configuration, the stimuli and the Arbiter's bit are untouched. -/
structure SameRest (s t : State) : Prop where
  cfg : t.cfg = s.cfg
  stim : t.stim = s.stim
  txBlank : t.txBlank = s.txBlank

theorem SameReader.refl (s : State) : SameReader s s := ⟨rfl, rfl⟩
theorem SameWriter.refl (s : State) : SameWriter s s := ⟨rfl, rfl, rfl, rfl⟩
theorem SameRest.refl (s : State) : SameRest s s := ⟨rfl, rfl, rfl⟩

theorem SameReader.trans {s t u : State} (h : SameReader s t) (k : SameReader t u) : SameReader s u :=
  ⟨k.rd.trans h.rd, k.rbuf.trans h.rbuf⟩
theorem SameWriter.trans {s t u : State} (h : SameWriter s t) (k : SameWriter t u) : SameWriter s u :=
  ⟨k.wr.trans h.wr, k.wbuf.trans h.wbuf, k.tmr.trans h.tmr, k.free.trans h.free⟩
theorem SameRest.trans {s t u : State} (h : SameRest s t) (k : SameRest t u) : SameRest s u :=
  ⟨k.cfg.trans h.cfg, k.stim.trans h.stim, k.txBlank.trans h.txBlank⟩

/-! ## The pulse event -/

/-- Everything a data bit can do (41 R114): store a completed byte, and there finish the packet or go on;
or assemble one more bit. -/
theorem acceptDataBit_cases (b : Bool) (t : Time) (s : State) :
    (s.rd.bitCursor.toNat + 1 = byteBits ∧
      acceptDataBit b t s = finishByte t (storeRbuf s.rd.byteCursor.toNat (accumulate s.rd.asm b) s)) ∨
    (s.rd.bitCursor.toNat + 1 ≠ byteBits ∧
      acceptDataBit b t s = s.setRd { s.rd with asm := accumulate s.rd.asm b,
                                                bitCursor := s.rd.bitCursor + 1,
                                                lastTs := time s.cfg t }) := by
  unfold acceptDataBit
  split
  · next hc => exact .inl ⟨hc, rfl⟩
  · next hc => exact .inr ⟨hc, rfl⟩

/-- Everything a pulse can do (41 R110): one case per rule R111 to R115. -/
theorem pulse_cases (t : Time) (s : State) :
    (s.rd.state = .aps ∧ pulse t s = pulseAps t s) ∨ (s.rd.state = .ape ∧ pulse t s = pulseApe t s) ∨
    (s.rd.state = .ahe ∧ pulse t s = pulseAhe t s) ∨
    (s.rd.state = .adb ∧ bitOf (classify s.cfg (elapsed s.cfg s.rd.lastTs t)) = none ∧
      pulse t s = resync t (raise (.lost s.rd.startTs) s)) ∨
    (s.rd.state = .adb ∧ ∃ b, bitOf (classify s.cfg (elapsed s.cfg s.rd.lastTs t)) = some b ∧
      pulse t s = acceptDataBit b t s) ∨
    ((s.rd.state = .idle ∨ s.rd.state = .ac ∨ s.rd.state = .bl ∨ s.rd.state = .blp) ∧
      pulse t s = s) := by
  unfold pulse
  cases hs : s.rd.state
  case adb =>
    simp only [pulseAdb]
    cases hb : bitOf (classify s.cfg (elapsed s.cfg s.rd.lastTs t)) with
    | none => simp
    | some b => simp
  all_goals simp

/-- A pulse in one of the four ignoring states changes nothing (41 R115). -/
theorem pulse_ignored {t : Time} {s : State}
    (h : s.rd.state = .idle ∨ s.rd.state = .ac ∨ s.rd.state = .bl ∨ s.rd.state = .blp) :
    pulse t s = s := by
  unfold pulse
  rcases h with h | h | h | h <;> rw [h]

/-- The header step writes the Reader's fields alone (41 R113). -/
theorem acceptHeaderBit_eq (b : Bool) (t : Time) (s : State) :
    ∃ r, acceptHeaderBit b t s = s.setRd r := by
  unfold acceptHeaderBit resync
  dsimp only
  split
  · split <;> exact ⟨_, rfl⟩
  · exact ⟨_, rfl⟩

/-- Finishing a byte keeps everything but the Reader's fields, the signals and the trace. -/
theorem finishByte_frame (t : Time) (s : State) :
    SameWriter s (finishByte t s) ∧ SameRest s (finishByte t s) ∧ (finishByte t s).rbuf = s.rbuf := by
  unfold finishByte
  split <;> exact ⟨⟨rfl, rfl, rfl, rfl⟩, ⟨rfl, rfl, rfl⟩, rfl⟩

/-- A pulse leaves the Writer, the Arbiter and the rest alone (10 R20). -/
theorem pulse_frame (t : Time) (s : State) : SameWriter s (pulse t s) ∧ SameRest s (pulse t s) := by
  rcases pulse_cases t s with ⟨-, e⟩ | ⟨-, e⟩ | ⟨-, e⟩ | ⟨-, -, e⟩ | ⟨-, b, -, e⟩ | ⟨-, e⟩ <;> rw [e]
  · exact ⟨⟨rfl, rfl, rfl, rfl⟩, ⟨rfl, rfl, rfl⟩⟩
  · unfold pulseApe resync
    split <;> exact ⟨⟨rfl, rfl, rfl, rfl⟩, ⟨rfl, rfl, rfl⟩⟩
  · unfold pulseAhe
    split
    · exact ⟨⟨rfl, rfl, rfl, rfl⟩, ⟨rfl, rfl, rfl⟩⟩
    · obtain ⟨r, hr⟩ := acceptHeaderBit_eq _ t s
      rw [hr]
      exact ⟨⟨rfl, rfl, rfl, rfl⟩, ⟨rfl, rfl, rfl⟩⟩
  · exact ⟨⟨rfl, rfl, rfl, rfl⟩, ⟨rfl, rfl, rfl⟩⟩
  · rcases acceptDataBit_cases b t s with ⟨-, e⟩ | ⟨-, e⟩ <;> rw [e]
    · obtain ⟨hw, hr, -⟩ := finishByte_frame t
        (storeRbuf s.rd.byteCursor.toNat (accumulate s.rd.asm b) s)
      exact ⟨⟨by simp [hw.wr], by simp [hw.wbuf], by simp [hw.tmr], by simp [hw.free]⟩,
        ⟨by simp [hr.cfg], by simp [hr.stim], by simp [hr.txBlank]⟩⟩
    · exact ⟨⟨rfl, rfl, rfl, rfl⟩, ⟨rfl, rfl, rfl⟩⟩
  · exact ⟨.refl _, .refl _⟩

/-- Only a pulse in `AwaitingDataBits` stores, at `rd.byte_cursor` (20 R61). -/
theorem pulse_rbuf (t : Time) (s : State) {i : Nat} (hi : i ≠ s.rd.byteCursor.toNat) :
    (pulse t s).rbuf.read i = s.rbuf.read i := by
  rcases pulse_cases t s with ⟨-, e⟩ | ⟨-, e⟩ | ⟨-, e⟩ | ⟨-, -, e⟩ | ⟨-, b, -, e⟩ | ⟨-, e⟩ <;> rw [e]
  · rfl
  · unfold pulseApe resync
    split <;> rfl
  · unfold pulseAhe
    split
    · rfl
    · obtain ⟨r, hr⟩ := acceptHeaderBit_eq _ t s
      rw [hr]
      rfl
  · rfl
  · rcases acceptDataBit_cases b t s with ⟨-, e⟩ | ⟨-, e⟩ <;> rw [e]
    · rw [(finishByte_frame t _).2.2]
      exact storeRbuf_read_other _ _ hi
    · rfl

/-! ## The expiry event -/

/-- Where the bound buffer has the byte, the fetch reads it and draws nothing (20 R62). -/
theorem fetchWbuf_of_read {i : Nat} {v : Byte} {s : State} (h : s.wbuf.read i = some v) :
    fetchWbuf i s = v ∧ drawIfAbsent i s = s := by simp [fetchWbuf, drawIfAbsent, h]

/-- Everything a timer expiry can do (42 R141): nothing past the gate, or one of R143 to R145. -/
theorem expiry_cases (now : Time) (s : State) :
    ((s.wr.active && s.wr.txPending) = false ∧ expiry now s = fireTimer s) ∨
    ((s.wr.active && s.wr.txPending) = true ∧
      ((s.wr.state = .sh ∧ expiry now s = expirySh (emitPulse now (fireTimer s))) ∨
       (s.wr.state = .sd ∧ expiry now s = expirySd (emitPulse now (fireTimer s))) ∨
       (s.wr.state = .idle ∧ expiry now s = expiryIdle now (emitPulse now (fireTimer s))))) := by
  unfold expiry
  split
  · next hg =>
    refine .inr ⟨hg, ?_⟩
    cases hs : s.wr.state <;> simp
  · next hg => exact .inl ⟨by simpa using hg, rfl⟩

/-- Advancing the counter of free values writes that counter alone. -/
theorem drawIfBeyondHeader_eq (s : State) : ∃ n, drawIfBeyondHeader s = s.setFree n := by
  unfold drawIfBeyondHeader
  split
  · exact ⟨s.free, rfl⟩
  · exact ⟨_, rfl⟩

/-- So does drawing the byte that the bound buffer does not have. -/
theorem drawIfAbsent_eq (i : Nat) (s : State) : ∃ n, drawIfAbsent i s = s.setFree n := by
  unfold drawIfAbsent
  split
  · exact ⟨_, rfl⟩
  · exact ⟨s.free, rfl⟩

/-- An expiry leaves the Reader, `WBUF`, the Arbiter's bit and the rest alone (10 R20). -/
theorem expiry_frame (now : Time) (s : State) :
    SameReader s (expiry now s) ∧ SameRest s (expiry now s) ∧ (expiry now s).wbuf = s.wbuf := by
  rcases expiry_cases now s with ⟨-, e⟩ | ⟨-, ⟨-, e⟩ | ⟨-, e⟩ | ⟨-, e⟩⟩ <;> rw [e]
  · exact ⟨⟨rfl, rfl⟩, ⟨rfl, rfl, rfl⟩, rfl⟩
  · unfold expirySh
    obtain ⟨n, hn⟩ := drawIfBeyondHeader_eq (emitPulse now (fireTimer s))
    rw [hn]
    exact ⟨⟨by simp, by simp⟩, ⟨by simp, by simp, by simp⟩, by simp⟩
  · unfold expirySd
    dsimp only
    obtain ⟨n, hn⟩ := drawIfAbsent_eq (emitPulse now (fireTimer s)).wr.byteCursor.toNat
      (emitPulse now (fireTimer s))
    rw [hn]
    exact ⟨⟨by simp, by simp⟩, ⟨by simp, by simp, by simp⟩, by simp⟩
  · unfold expiryIdle
    exact ⟨⟨by simp, by simp⟩, ⟨by simp, by simp, by simp⟩, by simp⟩

/-! ## Sends, start and stop -/

/-- What an accepted send writes (42 R140). -/
theorem acceptSend_eq (buffer : List Byte) (length : Nat) (now : Time) (s : State) :
    acceptSend buffer length now s =
      { s with
        wbuf := Memory.ofBytes 0 buffer
        wr := { s.wr with length := BitVec.ofNat 7 length, byteCursor := 0, bitCursor := 0,
                          txPending := true, state := .sh }
        tmr := { armed := true, delay := s.cfg.tPre }
        trace := s.trace ++ [.pulse (time s.cfg now)] ++ [.timerSchedule s.cfg.tPre] } := rfl

/-- The Writer's start writes the Writer's fields alone (42 R146). -/
theorem writerStart_eq (now : Time) (s : State) : ∃ w, writerStart now s = s.setWr w := by
  unfold writerStart
  split
  · exact ⟨s.wr, rfl⟩
  · exact ⟨_, rfl⟩

/-- The Reader's start writes the Reader's fields alone (41 R124). -/
theorem readerStart_eq (now : Time) (s : State) : ∃ r, readerStart now s = s.setRd r := by
  unfold readerStart
  split
  · exact ⟨_, rfl⟩
  · exact ⟨s.rd, rfl⟩

/-! ## Feeding pulses -/

/-- What every pulse keeps, a sequence of pulses keeps. -/
theorem feed_induct {P : State → Prop} (hp : ∀ t s, P s → P (pulse t s)) {gaps : List Time} {t : Time}
    {s : State} (hs : P s) : P (feed t gaps s) := by
  induction gaps generalizing t s with
  | nil => exact hp t s hs
  | cons g rest ih => exact ih (hp t s hs)

/-- A wire symbol is a pulse (30 R80). -/
theorem closeInterval_eq (d : Time) (s : State) : closeInterval d s = pulse (s.rd.lastTs + d) s := rfl

end Sys2Proof.Machine
end

