-- ==== Sys2Proof/Machine/Text.lean ====
section
/-! DEFINITION. The trace syntax of 30 R92: an operation as one line of a stimulus program, an output as the
line that follows it. -/

namespace Sys2Proof.Machine

open Sys2Proof

/-- A byte as in the examples of 30 R92: `0x41`. -/
def byteText (b : Byte) : String :=
  let digits := "0123456789ABCDEF".toList
  "0x" ++ String.ofList [digits.getD (b.toNat / 16) '0', digits.getD (b.toNat % 16) '0']

/-- A byte list in square brackets (30 R92). -/
def bytesText (bytes : List Byte) : String := "[" ++ ",".intercalate (bytes.map byteText) ++ "]"

/-- A symbol by the name of 30 R80. -/
def txSymbolText : TxSymbol → String
  | .zero => "Zero"
  | .one => "One"
  | .preamble => "Preamble"

/-- A result of `CLASSIFY`. -/
def bitSymbolText : BitSymbol → String
  | .zero => "Zero"
  | .one => "One"
  | .invalid => "Invalid"

/-- The operands of an instruction, each as `name=value`. The `FRAME` row and `SYM.INVALID` have no line in
the syntax of R92; theirs follow the same form. -/
def operandsText : Instr → List String
  | .classify d => ["d=" ++ toString d]
  | .ispreamble d => ["d=" ++ toString d]
  | .interval sym => ["sym=" ++ txSymbolText sym]
  | .rdStart now => ["now=" ++ toString now]
  | .rdStop => []
  | .rdPulse t => ["t=" ++ toString t]
  | .rdHasincoming => []
  | .rdRestore b => ["blank_level=" ++ if b then "1" else "0"]
  | .rdBlank => []
  | .rdIsblanking => []
  | .rdCansend now silence => ["now=" ++ toString now, "silence=" ++ toString silence]
  | .rdWatchdog now => ["now=" ++ toString now]
  | .wrStart now => ["now=" ++ toString now]
  | .wrStop => []
  | .wrSend buf len now => ["buffer=" ++ bytesText buf, "length=" ++ toString len, "now=" ++ toString now]
  | .wrExpiry now => ["now=" ++ toString now]
  | .lkStart now => ["now=" ++ toString now]
  | .lkStop => []
  | .lkCansend now => ["now=" ++ toString now]
  | .lkSend buf len now => ["buffer=" ++ bytesText buf, "length=" ++ toString len, "now=" ++ toString now]
  | .lkService => []
  | .lkRestore => []
  | .symZero => []
  | .symOne => []
  | .symPreamble => []
  | .symInvalid d => ["d=" ++ toString d]
  | .frame t bytes => ["t=" ++ toString t, "bytes=" ++ bytesText bytes]

/-- `<mnemonic> <operand>=<value> ...` (30 R92). -/
def instrText (i : Instr) : String := " ".intercalate (i.mnemonic :: operandsText i)

/-- A raised signal (30 R92). -/
def raisedText : Signal → String
  | .received ts len => "! raise Received(ts=" ++ toString ts ++ ", len=" ++ toString len.toNat ++ ")"
  | .lost ts => "! raise Lost(ts=" ++ toString ts ++ ")"
  | .sent => "! raise Sent()"

/-- A callback (30 R92, 60 R196). -/
def callbackText : Signal → String
  | .received ts len => "! onPacketReceived(" ++ toString ts ++ ", " ++ toString len.toNat ++ ")"
  | .lost ts => "! onPacketLost(" ++ toString ts ++ ")"
  | .sent => "! onPacketSent()"

/-- An output as R92 writes it. -/
def outputText : Output → String
  | .pulse t => "! Pulse @" ++ toString t
  | .timerSchedule d => "! Timer.scheduleAfter(" ++ toString d ++ ")"
  | .timerCancel => "! Timer.cancel()"
  | .raised g => raisedText g
  | .callback g => callbackText g
  | .retSymbol s => "-> " ++ bitSymbolText s
  | .retBool b => "-> " ++ if b then "true" else "false"
  | .retMicros d => "-> " ++ toString d
  | .retIncoming len present =>
      "-> (" ++ toString len.toNat ++ ", " ++ (if present then "true" else "false") ++ ")"
  | .retSend ok => "-> " ++ if ok then "success" else "failure"
  | .loaded i v => "-> RBUF[" ++ toString i ++ "]=" ++ byteText v

end Sys2Proof.Machine
end

