-- ==== Sys2Proof/Tests/Slice0.lean ====
section
/-! SUPPORT. Tests: what `WellFormed` refuses, the decoding of a record written out for every constructor,
single steps whose expected results are the vectors of spec/95 (named in each docstring), and for every
statement with hypotheses a state and operands that meet them. -/

namespace Sys2Proof.Tests

open Sys2Proof Sys2Proof.Machine

/-! ## Helpers -/

/-- The next state an outcome holds. -/
def after (o : Outcome) : Option State :=
  match o with
  | .next s => some s
  | .fault _ => none
  | .refused _ => none

/-- What an instruction adds to the trace of a state whose trace is empty. -/
def outputs (i : Instr) (s : State) : Option (List Output) := (after (exec i s)).map State.trace

/-- The Reader's fields after an instruction. -/
def readerAfter (i : Instr) (s : State) : Option Reader := (after (exec i s)).map State.rd

/-- The Writer's fields after an instruction. -/
def writerAfter (i : Instr) (s : State) : Option Writer := (after (exec i s)).map State.wr

/-- A device whose Reader has the given fields, everything else as after reset. -/
def withReader (st : RdState) (start last : Time) (byteCursor bitCursor asm len : Nat) : State :=
  State.reset.setRd
    { state := st, startTs := start, lastTs := last, byteCursor := BitVec.ofNat 7 byteCursor,
      bitCursor := BitVec.ofNat 3 bitCursor, asm := BitVec.ofNat 8 asm, length := BitVec.ofNat 7 len }

/-- A device whose started Writer has the given fields and whose `WBUF` holds the bytes. -/
def withWriter (st : WrState) (pending : Bool) (len byteCursor bitCursor : Nat) (bytes : List Byte) :
    State :=
  (State.reset.setWr
    { state := st, active := true, txPending := pending, length := BitVec.ofNat 7 len,
      byteCursor := BitVec.ofNat 7 byteCursor, bitCursor := BitVec.ofNat 3 bitCursor,
      lastCompletionTs := 0 }).setWbuf (Memory.ofBytes 0 bytes)

/-- The default device after `LK.START now=500`. -/
def started : State := (writerStart 500 (readerStart 500 State.reset)).setTxBlank false

/-- The same device in the middle of a send of one byte: blanked, two expiries delivered. -/
def sending : State :=
  { started with
    txBlank := true
    rd := { started.rd with state := .bl }
    wr := { started.wr with state := .sh, txPending := true, length := 1, bitCursor := 2 }
    wbuf := [(0, 0x41)]
    tmr := { armed := true, delay := 50 } }

/-- A state under another configuration. -/
def underCfg (c : Cfg) (s : State) : State := { s with cfg := c }

/-! ## What `WellFormed` refuses, one term for each check -/

theorem test_wf_refuses_time_operands :
    [Instr.classify (2 ^ 64), .ispreamble (2 ^ 64), .rdStart (2 ^ 64), .rdPulse (2 ^ 64),
      .rdCansend (2 ^ 64) 0, .rdCansend 0 (2 ^ 64), .rdWatchdog (2 ^ 64), .wrStart (2 ^ 64),
      .wrSend [1] 1 (2 ^ 64), .wrExpiry (2 ^ 64), .lkStart (2 ^ 64), .lkCansend (2 ^ 64),
      .lkSend [1] 1 (2 ^ 64), .symInvalid (2 ^ 64), .frame (2 ^ 64) [1]].all
      (fun i => !i.wellFormed) = true := by decide

theorem test_wf_refuses_buffers :
    [Instr.wrSend [1] 2 0, .lkSend [] 1 0, .wrSend (List.replicate 256 0) 1 0,
      .lkSend (List.replicate 256 0) 1 0, .frame 0 [], .frame 0 (List.replicate 65 0)].all
      (fun i => !i.wellFormed) = true := by decide +kernel

theorem test_wf_refuses_host_indices :
    [HostEvent.callerStore (2 ^ 64) 0, .consumerLoad (2 ^ 64), .consumerStore (2 ^ 64) 0].all
      (fun h => !h.wellFormed) = true := by decide

/-! ## Decoding: one record written out for every constructor (30 R89, R90; log 2) -/

theorem test_decode_codec :
    decode [0x00#8, 0x3E, 0, 0, 0, 0, 0, 0, 0] = .instr (.classify 62) [] ∧
    decode [0x01#8, 0x64, 0, 0, 0, 0, 0, 0, 0] = .instr (.ispreamble 100) [] ∧
    decode [0x02#8, 0] = .instr (.interval .zero) [] ∧ decode [0x02#8, 1] = .instr (.interval .one) [] ∧
    decode [0x02#8, 2] = .instr (.interval .preamble) [] := by decide

theorem test_decode_reader :
    decode [0x10#8, 0xF4, 0x01, 0, 0, 0, 0, 0, 0] = .instr (.rdStart 500) [] ∧
    decode [0x11#8] = .instr .rdStop [] ∧
    decode [0x12#8, 0x4C, 0x04, 0, 0, 0, 0, 0, 0] = .instr (.rdPulse 1100) [] ∧
    decode [0x13#8] = .instr .rdHasincoming [] ∧
    decode [0x14#8, 0] = .instr (.rdRestore false) [] ∧ decode [0x14#8, 1] = .instr (.rdRestore true) [] ∧
    decode [0x15#8] = .instr .rdBlank [] ∧ decode [0x16#8] = .instr .rdIsblanking [] ∧
    decode [0x17#8, 0xB0, 0x04, 0, 0, 0, 0, 0, 0, 0xC8, 0, 0, 0, 0, 0, 0, 0] =
      .instr (.rdCansend 1200 200) [] ∧
    decode [0x18#8, 0x7E, 0x9A, 0, 0, 0, 0, 0, 0] = .instr (.rdWatchdog 39550) [] := by decide

theorem test_decode_writer :
    decode [0x20#8, 0x0A, 0, 0, 0, 0, 0, 0, 0] = .instr (.wrStart 10) [] ∧
    decode [0x21#8] = .instr .wrStop [] ∧
    decode [0x22#8, 2, 0, 0, 0, 0, 0, 0, 0, 0xE8, 0x03, 0, 0, 0, 0, 0, 0, 2, 0x41, 0x42] =
      .instr (.wrSend [0x41, 0x42] 2 1000) [] ∧
    decode [0x23#8, 0x7E, 0x04, 0, 0, 0, 0, 0, 0] = .instr (.wrExpiry 1150) [] := by decide

theorem test_decode_arbiter :
    decode [0x30#8, 0xF4, 0x01, 0, 0, 0, 0, 0, 0] = .instr (.lkStart 500) [] ∧
    decode [0x31#8] = .instr .lkStop [] ∧
    decode [0x32#8, 0xBD, 0x02, 0, 0, 0, 0, 0, 0] = .instr (.lkCansend 701) [] ∧
    decode [0x33#8, 1, 0, 0, 0, 0, 0, 0, 0, 0xE8, 0x03, 0, 0, 0, 0, 0, 0, 1, 0x99] =
      .instr (.lkSend [0x99] 1 1000) [] ∧
    decode [0x34#8] = .instr .lkService [] ∧ decode [0x35#8] = .instr .lkRestore [] := by decide

theorem test_decode_wire :
    decode [0x40#8] = .instr .symZero [] ∧ decode [0x41#8] = .instr .symOne [] ∧
    decode [0x42#8] = .instr .symPreamble [] ∧
    decode [0x43#8, 0x78, 0, 0, 0, 0, 0, 0, 0] = .instr (.symInvalid 120) [] ∧
    decode [0x81#8, 0xE8, 0x03, 0, 0, 0, 0, 0, 0, 0x41, 0x42] =
      .instr (.frame 1000 [0x41, 0x42]) [] := by decide

theorem test_decode_refuses :
    decode [] = .malformed ∧ decode [0x12#8, 1, 2] = .malformed ∧ decode [0x02#8, 3] = .malformed ∧
    decode [0x14#8, 2] = .malformed ∧ decode [0x44#8] = .reserved 0x44 ∧ decode [0xC4#8] = .reserved 0xC4 ∧
    decode [0x80#8, 0, 0, 0, 0, 0, 0, 0, 0] = .malformed := by decide

/-- The words of the opcode table (log 3). -/
theorem test_table_words :
    decodeTableWord 6 0x12 = some (.rdPulse 0) ∧ decodeTableWord 8 0x33 = some (.lkSend [] 0 0) ∧
    decodeTableWord 2 2 = some .symPreamble ∧ decodeTableWord 2 3 = some (.symInvalid 0) ∧
    decodeTableWord 6 3 = none ∧ decodeTableWord 8 3 = none ∧ decodeTableWord 8 0x0F = none := by decide

theorem test_step_runs_a_placed_word :
    after (step (State.reset.withFetchWord 6 0x13)) =
      (after (exec .rdHasincoming State.reset)).map fun s => s.setStim (List.replicate 273 0) := by
  decide +kernel

/-! ## CODEC (95 V-C) -/

/-- V-C, the rows for `CLASSIFY`. -/
theorem test_classify_rows :
    [0, 36, 37, 50, 61, 62, 63, 64, 75, 86, 87, 88, 89, 100, 113, 114, 115, 65586, 4294967295].map
      (fun d => outputs (.classify d) State.reset) =
    [BitSymbol.invalid, .invalid, .zero, .zero, .zero, .zero, .zero, .one, .one, .one, .one, .one, .invalid,
      .invalid, .invalid, .invalid, .invalid, .invalid, .invalid].map fun r => some [.retSymbol r] := by
  decide

/-- V-C under the other settings of `OVERLAP_ZO`. -/
theorem test_classify_overlap :
    [BitSymbol.one, .invalid].map (fun o =>
      outputs (.classify 62) (underCfg { Cfg.default with overlapZO := o } State.reset)) =
    [some [.retSymbol .one], some [.retSymbol .invalid]] := by decide

/-- V-C, the rows for `ISPREAMBLE` around the window's edges. -/
theorem test_ispreamble_rows :
    [86, 87, 100, 113, 114].map (fun d => outputs (.ispreamble d) State.reset) =
    [false, true, true, true, false].map fun b => some [.retBool b] := by decide

/-- V-C: `INTERVAL`. -/
theorem test_interval_values :
    [TxSymbol.zero, .one, .preamble].map (fun y => outputs (.interval y) State.reset) =
    [50, 75, 100].map fun d => some [.retMicros d] := by decide

/-! ## READER (95 V-R) -/

/-- V-R26: an invalid interval at the eighth bit loses the packet and stores nothing. -/
theorem test_pulse_invalid_eighth_bit :
    (after (exec (.rdPulse 2120) (withReader .adb 1000 2000 0 7 63 1))).map
      (fun u => (u.rd.state, u.rd.startTs, u.sig.lostTs, u.rbuf.read 0)) =
    some (.ape, 2120, 1000, none) := by decide

/-- V-R27: the eighth bit of the last byte. -/
theorem test_pulse_completes_packet :
    (after (exec (.rdPulse 2075) (withReader .adb 1000 2000 0 7 63 1))).map
      (fun u => (u.rd.state, u.rd.byteCursor, u.rbuf.read 0, u.trace)) =
    some (.ac, 1, some 0x7F, [.raised (.received 1000 1)]) := by decide

/-- V-R24. -/
theorem test_rdStart :
    (readerAfter (.rdStart 500) State.reset).map (fun r => (r.state, r.lastTs)) = some (.aps, 500) := by
  decide

/-- V-R23, first step. -/
theorem test_rdStop :
    (readerAfter .rdStop (withReader .adb 1000 2000 0 7 63 1)).map Reader.state = some .idle := by decide

/-- V-R11, V-R20. -/
theorem test_rdHasincoming :
    outputs .rdHasincoming (withReader .blp 0 0 2 0 0 2) = some [.retIncoming 2 true] ∧
    outputs .rdHasincoming (withReader .bl 0 0 2 0 0 2) = some [.retIncoming 0 false] := by decide

/-- V-R19, V-R20, V-R21, V-R22. -/
theorem test_rdRestore :
    [(RdState.blp, false), (.blp, true), (.ac, true), (.bl, false), (.adb, true)].map
      (fun x => (readerAfter (.rdRestore x.2) (withReader x.1 0 0 2 0 0 2)).map Reader.state) =
    [some .ac, some .bl, some .bl, some .aps, some .adb] := by decide

/-- V-R10: blanking a decoding Reader loses nothing visibly. -/
theorem test_rdBlank :
    (after (exec .rdBlank (withReader .adb 1000 1600 0 3 0 2))).map (fun u => (u.rd.state, u.trace)) =
      some (.bl, []) := by decide

/-- 41 R123. -/
theorem test_rdIsblanking :
    outputs .rdIsblanking (withReader .blp 0 0 2 0 0 2) = some [.retBool true] := by decide

/-- V-R16, V-R18. -/
theorem test_rdCansend :
    outputs (.rdCansend 1000000 200) (withReader .ahe 0 9150 0 0 0 0) = some [.retBool false] ∧
    outputs (.rdCansend 1200 200) (withReader .ape 0 1000 0 0 0 0) = some [.retBool false] ∧
    outputs (.rdCansend 1201 200) (withReader .ape 0 1000 0 0 0 0) = some [.retBool true] := by decide

/-- V-R12, V-R13. -/
theorem test_rdWatchdog :
    (after (exec (.rdWatchdog 39550) (withReader .adb 9000 9550 0 0 0 1))).map (fun u => u.rd.state) =
      some .adb ∧
    (after (exec (.rdWatchdog 39551) (withReader .adb 9000 9550 0 0 0 1))).map
      (fun u => (u.rd.state, u.trace)) = some (.aps, [.raised (.lost 9000)]) := by decide

/-- V-R14: `WD_REF` = PacketStart. -/
theorem test_rdWatchdog_packetStart :
    (readerAfter (.rdWatchdog 39001) (underCfg { Cfg.default with wdRef := .packetStart }
      (withReader .adb 9000 9550 0 0 0 1))).map Reader.state = some .aps ∧
    (readerAfter (.rdWatchdog 39000) (underCfg { Cfg.default with wdRef := .packetStart }
      (withReader .adb 9000 9550 0 0 0 1))).map Reader.state = some .adb := by decide

/-! ## WRITER (95 V-W) -/

/-- 42 R146. -/
theorem test_wrStart :
    (writerAfter (.wrStart 10) State.reset).map (fun w => (w.active, w.lastCompletionTs)) =
      some (true, 10) := by decide

/-- V-W8, first step. -/
theorem test_wrStop :
    (after (exec .wrStop (withWriter .sd true 1 0 3 [0x41]))).map
      (fun u => (u.wr.active, u.wr.state, u.wr.txPending, u.trace)) =
    some (false, .idle, false, [.timerCancel]) := by decide

/-- V-W3, the send itself. -/
theorem test_wrSend_accepts :
    outputs (.wrSend [0] 1 1000) (withWriter .idle false 0 0 0 []) =
      some [.pulse 1000, .timerSchedule 100, .retSend true] := by decide

/-- V-W1, V-W2, V-W5, V-W6. -/
theorem test_wrSend_rejects :
    [withWriter .idle false 0 0 0 [], withWriter .sh true 1 0 0 [3], withWriter .idle true 1 1 0 [3]].map
      (fun s => outputs (.wrSend [] 0 1000) s) = List.replicate 3 (some [.retSend false]) ∧
    outputs (.wrSend (List.replicate 65 0) 65 1000) (withWriter .idle false 0 0 0 []) =
      some [.retSend false] ∧
    outputs (.wrSend [1] 1 10) State.reset = some [.retSend false] ∧
    outputs (.wrSend [3] 1 2300) (withWriter .idle true 1 1 0 [3]) = some [.retSend false] := by decide

/-- V-W9: header bit 5 of 63 is 1. -/
theorem test_wrExpiry_header :
    outputs (.wrExpiry 100) (withWriter .sh true 64 0 0 []) = some [.pulse 100, .timerSchedule 75] ∧
    (writerAfter (.wrExpiry 100) (withWriter .sh true 64 0 0 [])).map (fun w => (w.state, w.bitCursor)) =
      some (.sh, 1) := by decide

/-- V-W10: bit 0 of 0x41 is 1. -/
theorem test_wrExpiry_data :
    outputs (.wrExpiry 1800) (withWriter .sd true 2 0 7 [0x41, 0x42]) =
      some [.pulse 1800, .timerSchedule 75] ∧
    (writerAfter (.wrExpiry 1800) (withWriter .sd true 2 0 7 [0x41, 0x42])).map
      (fun w => (w.state, w.byteCursor, w.bitCursor)) = some (.sd, 1, 0) := by decide

/-- 42 R149, 60 R193: `now` = T + d exactly, across the wrap of the counter, and one microsecond late. -/
theorem test_expiry_on_time_across_the_wrap :
    let s := { withWriter .sh true 1 0 0 [0x41] with tmr := { armed := true, delay := 100 } }
    ExpiryOnTime s 4294967290 94 ∧ ExpiryOnTime s 4294967290 4294967390 ∧ ¬ ExpiryOnTime s 4294967290 95 := by
  decide

/-! ## ARBITER (95 V-A) -/

/-- P1, state after `LK.START`; V-A12. -/
theorem test_lkStart :
    (after (exec (.lkStart 500) State.reset)).map
      (fun u => (u.rd.state, u.rd.lastTs, u.wr.active, u.wr.lastCompletionTs)) =
      some (.aps, 500, true, 500) ∧
    after (exec (.lkStart 9999) started) = some started := by decide

/-- V-A13, first step. -/
theorem test_lkStop :
    (after (exec .lkStop sending)).map
      (fun u => (u.rd.state, u.wr.active, u.wr.txPending, u.txBlank, u.trace)) =
    some (.idle, false, false, false, [.timerCancel]) := by decide

/-- V-A1, V-A2. -/
theorem test_lkCansend :
    outputs (.lkCansend 100000) State.reset = some [.retBool false] ∧
    outputs (.lkCansend 700) started = some [.retBool false] ∧
    outputs (.lkCansend 701) started = some [.retBool true] := by decide

/-- V-A3, V-A4. -/
theorem test_lkCansend_holding_and_blanked :
    outputs (.lkCansend 2151) { started with rd := { started.rd with state := .ac, lastTs := 1950 } } =
      some [.retBool true] ∧
    outputs (.lkCansend 100000) { started with rd := { started.rd with state := .bl } } =
      some [.retBool false] := by decide

/-- V-A8: a receiving Reader is blanked and its packet abandoned in silence. -/
theorem test_lkSend_blanks :
    (after (exec (.lkSend [1] 1 3000) { started with rd := { started.rd with state := .adb } })).map
      (fun u => (u.rd.state, u.txBlank, u.sig.lostFlag, u.trace)) =
    some (.bl, true, false, [.pulse 3000, .timerSchedule 100, .retSend true]) := by decide

/-- V-A7. -/
theorem test_lkSend_rejects :
    (after (exec (.lkSend [] 0 3000) { started with rd := { started.rd with state := .adb } })).map
      (fun u => (u.rd.state, u.txBlank, u.trace)) = some (.adb, false, [.retSend false]) := by decide

/-- V-A9. -/
theorem test_lkService_order :
    (after (exec .lkService { started with
      rd := { started.rd with state := .ac }
      sig := { receivedFlag := true, receivedTs := 2270, receivedLen := 1, lostFlag := true, lostTs := 1000,
               sentFlag := false } })).map (fun u => (u.rd.state, u.trace)) =
    some (.ac, [.callback (.lost 1000), .callback (.received 2270 1)]) := by decide

/-- P7: the restore is skipped while a new send is in flight. -/
theorem test_lkService_with_a_new_send :
    (after (exec .lkService { sending with sig := { sending.sig with sentFlag := true } })).map
      (fun u => (u.rd.state, u.txBlank, u.trace)) = some (.bl, true, [.callback .sent]) := by decide

/-- P5, its last step and its variant. -/
theorem test_lkRestore :
    (readerAfter .lkRestore { started with rd := { started.rd with state := .ac } }).map Reader.state =
      some .aps ∧
    (readerAfter .lkRestore { started with rd := { started.rd with state := .blp }, txBlank := true }).map
      Reader.state = some .bl := by decide

/-! ## WIRE -/

/-- 95 P2: a zero bit and a one bit from the same point. -/
theorem test_symbols_as_bits :
    (readerAfter .symZero (withReader .ahe 1000 1100 0 0 0 0)).map (fun r => (r.lastTs, r.asm)) =
      some (1150, 0) ∧
    (readerAfter .symOne (withReader .adb 1000 1500 0 1 0 2)).map (fun r => (r.lastTs, r.asm)) =
      some (1575, 1) := by decide

/-- V-R3, V-R6 with the wire's names. -/
theorem test_preamble_and_invalid :
    (readerAfter .symPreamble (withReader .ape 1000 1000 0 0 0 0)).map (fun r => (r.state, r.lastTs)) =
      some (.ahe, 1100) ∧
    (readerAfter (.symInvalid 114) (withReader .ape 1000 1000 0 0 0 0)).map
      (fun r => (r.state, r.startTs)) = some (.ape, 1114) := by decide

/-- 95 V-E1, V-E2, V-E5, V-E6: the intervals of a frame. -/
theorem test_frame_gaps :
    frameGaps Cfg.default [0] = 100 :: List.replicate 14 50 ∧
    frameGaps Cfg.default [0x41, 0x42] = [100, 50, 50, 50, 50, 50, 75, 50, 75, 50, 50, 50, 50, 50, 75,
      50, 75, 50, 50, 50, 50, 75, 50] ∧
    frameGaps Cfg.default [0x99] = [100, 50, 50, 50, 50, 50, 50, 75, 50, 50, 75, 75, 50, 50, 75] ∧
    frameGaps Cfg.default [0xA5] = [100, 50, 50, 50, 50, 50, 50, 75, 50, 75, 50, 50, 75, 50, 75] := by decide

/-- 95 P2: the frame `[0x41, 0x42]` from 1000. -/
theorem test_frame_received :
    (after (exec (.frame 1000 [0x41, 0x42]) started)).map
      (fun u => (u.rd.lastTs, u.rbuf.read 0, u.rbuf.read 1, u.trace)) =
    some (2325, some 0x41, some 0x42, [.raised (.received 1000 2)]) := by decide +kernel

/-- 30 R92: the examples of the trace syntax. -/
theorem test_text :
    instrText (.rdPulse 1100) = "RD.PULSE t=1100" ∧
    instrText (.lkSend [0x41, 0x42] 2 5000) = "LK.SEND buffer=[0x41,0x42] length=2 now=5000" ∧
    outputText (.raised (.received 1000 2)) = "! raise Received(ts=1000, len=2)" := by decide

/-! ## Witnesses: for every statement with hypotheses, values that meet them, each clause at the boundary of
its range. The theorem is named after the statement. -/

/-- The largest time of the default counter. -/
def lastTime : Time := 4294967295

theorem witness_ClassifyFollowsItsWindows :
    ([37, 64, 62, 36, lastTime].all fun d => decide (d < 2 ^ State.reset.cfg.tsw)) = true ∧
    [37, 64, 62, 36].map (fun d => (inZero Cfg.default d, inOne Cfg.default d)) =
      [(true, false), (false, true), (true, true), (false, false)] := by decide

theorem witness_IsPreambleAndIntervalAnswer : lastTime < 2 ^ State.reset.cfg.tsw := by decide

theorem witness_ClassificationTable :
    (Cfg.default.tZero = 50 ∧ Cfg.default.tOne = 75 ∧ Cfg.default.tPre = 100 ∧ Cfg.default.tol = 14) ∧
    [36, 37, 61, 62, 63, 64, 86, 87, 88, 89, 113, 114].map
      (fun d => (classify Cfg.default d, isPreamble Cfg.default d)) =
    [(.invalid, false), (.zero, false), (.zero, false), (.zero, false), (.zero, false), (.one, false),
      (.one, false), (.one, true), (.one, true), (.invalid, true), (.invalid, true),
      (.invalid, false)] := by decide

theorem witness_CodecRoundTripAndMargins :
    (Cfg.default.tZero = 50 ∧ Cfg.default.tOne = 75 ∧ Cfg.default.tPre = 100 ∧ Cfg.default.tol = 14 ∧
      Cfg.default.overlapZO = .zero) ∧
    ([-13, 11, 13].map fun e : Int => classify Cfg.default (50 + e).toNat) = [.zero, .zero, .zero] ∧
    ([-11, 13].map fun e : Int => classify Cfg.default (75 + e).toNat) = [.one, .one] ∧
    ([-13, 13].map fun e : Int => isPreamble Cfg.default (100 + e).toNat) = [true, true] := by decide

/-- Both ends of the range of a difference, and readings on either side of the counter's wrap: a pulse, a
watchdog poll from the packet's start, and the two silences. -/
theorem witness_ElapsedIsModularDifference :
    let s := withReader .ape 4294967196 4294967196 0 0 0 0
    let p := underCfg { Cfg.default with wdRef := .packetStart } (withReader .adb 4294966296 4294967196 0 0 0 1)
    let g : Readings := { latest := 4294967296, start := 4294967196, last := 4294967196, completion := 0 }
    let h : Readings := { latest := 4294967296, start := 4294966296, last := 4294967196, completion := 4294967296 }
    ((0 < 2 ^ Cfg.default.tsw ∧ lastTime < 2 ^ Cfg.default.tsw) ∧ elapsed Cfg.default lastTime 0 = 1 ∧
      elapsed Cfg.default 0 lastTime = lastTime) ∧
    (lastTime ≤ lastTime ∧ lastTime + lastTime < lastTime + 2 ^ Cfg.default.tsw) ∧
    (StampsRead g s ∧ span g (.rdPulse 4294967300) s = some (4294967300, 4294967300) ∧
      g.latest ≤ 4294967300 ∧ comparedReadings (.rdPulse 4294967300) s g = [g.last]) ∧
    (span g .symPreamble s = some (4294967296, 4294967296) ∧ comparedReadings .symPreamble s g = [g.last] ∧
      span g (.frame 4294967300 [0]) s = some (4294967300, 4294968100)) ∧
    (StampsRead h p ∧ comparedReadings (.rdWatchdog 4295000000) p h = [h.start] ∧
      comparedReadings (.lkCansend 4295000000) p h = [h.last, h.completion]) ∧
    ([g.last, h.start, h.last, h.completion].all fun r =>
      decide (r ≤ 4295000000 ∧ 4295000000 < r + 2 ^ s.cfg.tsw)) = true := by decide

/-- One of those readings is on the clock: the last pulse, and the one 104 microseconds later, past the wrap. -/
theorem witness_OnTheClock :
    OnTheClock { latest := 4294967296, start := 4294967196, last := 4294967196, completion := 0 }
      (.rdPulse 4294967300) (withReader .ape 4294967196 4294967196 0 0 0 0) := by
  intro first last h
  cases h
  decide

/-- 60 R194: the start of the Reader at 1000 and a pulse 2^32 later leave the same stamp, and nothing compares
them; the pulse 100 later is compared with that one alone. -/
theorem test_clock_kept_past_an_equal_stamp :
    ClockKept { latest := 0, start := 0, last := 0, completion := 0 }
      [.rdStart 1000, .rdPulse 4294968296, .rdPulse 4294968396] State.reset := by
  refine ⟨fun _ _ h => ?_, fun u hu => ?_⟩
  · cases h
    decide
  cases hu
  refine ⟨fun _ _ h => ?_, fun u hu => ?_⟩
  · cases h
    decide
  cases hu
  refine ⟨fun _ _ h => ?_, fun u hu => trivial⟩
  cases h
  decide

theorem witness_PulseOpensACandidate :
    started.rd.state = .aps ∧ lastTime < 2 ^ started.cfg.tsw := by decide

/-- V-R4, V-R5, V-R25. -/
theorem witness_PulseEndsThePreamble :
    let s := withReader .ape 1000 1000 0 0 0 0
    s.rd.state = .ape ∧ 1087 < 2 ^ s.cfg.tsw ∧ isPreamble s.cfg (elapsed s.cfg s.rd.lastTs 1087) = true ∧
    isPreamble s.cfg (elapsed s.cfg s.rd.lastTs 1086) = false ∧
    isPreamble s.cfg (elapsed s.cfg 4294967232 36) = true := by decide

/-- V-R8, V-R28, P4. -/
theorem witness_PulseInTheHeader :
    let s := withReader .ahe 1000 1475 0 5 31 0
    let p := underCfg { Cfg.default with capacity := 16 } (withReader .ahe 1000 1375 0 5 8 0)
    (s.rd.state = .ahe ∧ 1575 < 2 ^ s.cfg.tsw ∧
      classify s.cfg (elapsed s.cfg s.rd.lastTs 1575) = .invalid) ∧
    (classify s.cfg (elapsed s.cfg s.rd.lastTs 1550) = .one ∧ s.rd.bitCursor.toNat = 5 ∧
      (accumulate s.rd.asm true).toNat % 64 + 1 = s.cfg.capacity) ∧
    (withReader .ahe 1000 1350 0 4 0 0).rd.bitCursor.toNat < 5 ∧
    (p.rd.state = .ahe ∧ classify p.cfg (elapsed p.cfg p.rd.lastTs 1425) = .zero ∧
      p.rd.bitCursor.toNat = 5 ∧ p.cfg.capacity < (accumulate p.rd.asm false).toNat % 64 + 1) := by decide

/-- V-R26, V-R27, and the last byte of a full buffer. -/
theorem witness_PulseInTheData :
    let s := withReader .adb 1000 2000 63 7 63 64
    (s.rd.state = .adb ∧ 2120 < 2 ^ s.cfg.tsw ∧
      classify s.cfg (elapsed s.cfg s.rd.lastTs 2120) = .invalid) ∧
    (classify s.cfg (elapsed s.cfg s.rd.lastTs 2075) = .one ∧ s.rd.bitCursor.toNat = 7 ∧
      s.rd.byteCursor.toNat < s.cfg.capacity ∧ s.rd.byteCursor.toNat + 1 = s.rd.length.toNat) ∧
    ((withReader .adb 1000 2000 62 7 63 64).rd.byteCursor.toNat + 1 ≠ 64) ∧
    (withReader .adb 1000 2000 0 6 31 1).rd.bitCursor.toNat < 7 := by decide

theorem witness_PulseIgnoredUnlessDecoding :
    State.reset.rd.state = .idle ∧ (withReader .ac 0 0 1 0 0 1).rd.state = .ac ∧
    sending.rd.state = .bl ∧ (withReader .blp 0 0 1 0 0 1).rd.state = .blp := by decide

theorem witness_AssemblyReadsMsbFirst :
    let bits := [true, true, false, true, false, false, true, true]
    bits.length ≤ 8 ∧ (bits.foldl accumulate 0).toNat = 0xD3 := by decide

theorem witness_ReaderQueriesAnswer :
    (withReader .ac 0 0 1 0 0 1).rd.state = .ac ∧ (started.rd.state ≠ .ac ∧ started.rd.state ≠ .blp) ∧
    lastTime < 2 ^ started.cfg.tsw := by decide

theorem witness_RestoreAndBlankFollowTheirTables :
    [RdState.ac, .bl, .blp, .idle, .adb].map
      (fun st => (restoreNext false st, restoreNext true st, blankNext st)) =
    [(.aps, .bl, .blp), (.aps, .bl, .bl), (.ac, .bl, .blp), (.idle, .idle, .idle), (.adb, .adb, .bl)] := by
  decide

/-- V-R12, V-R13. -/
theorem witness_WatchdogEndsAStuckPacket :
    let s := withReader .adb 9000 9550 0 0 0 1
    39551 < 2 ^ s.cfg.tsw ∧ s.rd.state = .adb ∧ s.cfg.wdTimeout < elapsed s.cfg s.rd.lastTs 39551 ∧
    ¬ s.cfg.wdTimeout < elapsed s.cfg s.rd.lastTs 39550 := by decide

theorem witness_ReaderStartAndStop :
    State.reset.rd.state = .idle ∧ lastTime < 2 ^ State.reset.cfg.tsw ∧ started.rd.state ≠ .idle := by decide

theorem witness_ReaderNextStateTable :
    (readerAfter (.rdPulse 1000) started).map Reader.state = some .ape ∧
    (readerAfter (.rdWatchdog 39551) (withReader .adb 9000 9550 0 0 0 1)).map Reader.state = some .aps := by
  decide

/-- An accepted send of the least and of the greatest length, and each ground of rejection. -/
theorem witness_WriterSend :
    let s := withWriter .idle false 0 0 0 []
    (lastTime < 2 ^ s.cfg.tsw ∧ s.wr.active = true ∧ s.wr.txPending = false ∧ 1 ≤ s.cfg.capacity ∧
      64 ≤ s.cfg.capacity ∧ 64 ≤ (List.replicate 64 (0 : Byte)).length) ∧
    (State.reset.wr.active = false ∧ s.cfg.capacity < 65 ∧ sending.wr.txPending = true) := by decide

theorem witness_StrayExpiryDoesNothing :
    State.reset.wr.active = false ∧ (withWriter .idle false 0 0 0 []).wr.txPending = false := by decide

theorem witness_ExpiryEmitsItsPulseFirst :
    [withWriter .sh true 1 0 5 [0x41], withWriter .sd true 1 0 7 [0x41], withWriter .idle true 1 1 0 [0x41]].map
      (fun s => (s.wr.active && s.wr.txPending && decide (1800 < 2 ^ s.cfg.tsw), outputs (.wrExpiry 1800) s)) =
    [(true, some [.pulse 1800, .timerSchedule 50]), (true, some [.pulse 1800, .timerSchedule 75]),
      (true, some [.pulse 1800, .raised .sent, .timerCancel])] := by decide

theorem witness_ExpirySchedulesAHeaderBit :
    ([withWriter .sh true 1 0 5 [0x41], withWriter .sh true 64 0 0 [0x41]].all fun s =>
      s.wr.active && s.wr.txPending && s.wr.state == .sh && decide (s.wr.bitCursor.toNat < 6) &&
        decide (lastTime < 2 ^ s.cfg.tsw)) = true := by decide

theorem witness_ExpirySchedulesADataBit :
    ([withWriter .sd true 1 0 7 [0x41], withWriter .sd true 2 0 0 [0x41]].all fun s =>
      s.wr.active && s.wr.txPending && s.wr.state == .sd && s.wbuf.read s.wr.byteCursor.toNat == some 0x41 &&
        decide (lastTime < 2 ^ s.cfg.tsw)) = true := by decide

theorem witness_ExpiryCompletesTheSend :
    let s := withWriter .idle true 1 1 0 [0x41]
    s.wr.active = true ∧ s.wr.txPending = true ∧ s.wr.state = .idle ∧ lastTime < 2 ^ s.cfg.tsw := by decide

theorem witness_WriterStartAndStop :
    State.reset.wr.active = false ∧ lastTime < 2 ^ State.reset.cfg.tsw ∧ started.wr.active = true := by decide

theorem witness_HeaderStatesOutOfRange :
    let s := withWriter .sh true 1 0 6 [0x41]
    let r := withReader .ahe 1000 1350 0 7 0 0
    (1400 < 2 ^ s.cfg.tsw ∧ s.wr.active = true ∧ s.wr.txPending = true ∧ s.wr.state = .sh ∧
      6 ≤ s.wr.bitCursor.toNat) ∧
    (r.rd.state = .ahe ∧ 6 ≤ r.rd.bitCursor.toNat ∧
      classify r.cfg (elapsed r.cfg r.rd.lastTs 1400) = .zero) ∧
    ([0, 5].all fun cursor =>
      let z := withWriter .sh true 0 cursor 0 [0x41]
      z.wr.active && z.wr.txPending && z.wr.state == .sh && z.wr.length == 0) = true := by decide

theorem witness_AbsentBytesDoNotStop :
    let r := withReader .adb 1000 2000 64 7 0 65
    let p := withReader .adb 1000 2000 64 7 0 66
    let s := withWriter .sd true 2 1 7 [0x41]
    (2050 < 2 ^ r.cfg.tsw ∧ r.rd.state = .adb ∧ r.rd.bitCursor.toNat = 7 ∧
      r.cfg.capacity ≤ r.rd.byteCursor.toNat ∧ classify r.cfg (elapsed r.cfg r.rd.lastTs 2050) = .zero) ∧
    (r.rd.byteCursor.toNat + 1 = r.rd.length.toNat ∧ p.rd.byteCursor.toNat + 1 ≠ p.rd.length.toNat) ∧
    (s.wr.active = true ∧ s.wr.txPending = true ∧ s.wr.state = .sd ∧
      s.wbuf.read s.wr.byteCursor.toNat = none) := by decide

theorem witness_LinkCanSendAnswers : lastTime < 2 ^ started.cfg.tsw := by decide

theorem witness_LinkSend :
    (lastTime < 2 ^ started.cfg.tsw ∧ started.wr.active = true ∧ started.wr.txPending = false ∧
      64 ≤ started.cfg.capacity ∧ 64 ≤ (List.replicate 64 (0 : Byte)).length) ∧
    (State.reset.wr.active = false ∧ started.cfg.capacity < 65 ∧ sending.wr.txPending = true) := by decide

theorem witness_ServiceDeliversPendingSignals :
    let s := { started with sig := { started.sig with sentFlag := true } }
    let p := { sending with sig := { sending.sig with sentFlag := true } }
    (s.sig.sentFlag = true ∧ s.wr.txPending = false) ∧ (p.sig.sentFlag = true ∧ p.wr.txPending = true) ∧
    started.sig.sentFlag = false := by decide

theorem witness_LinkRestoreStartStop :
    started.txBlank = false ∧ sending.txBlank = true ∧
    (started.wr.active = true ∧ started.rd.state ≠ .idle) ∧
    (State.reset.wr.active = false ∧ State.reset.rd.state = .idle ∧ lastTime < 2 ^ State.reset.cfg.tsw) := by
  decide

/-- One operation for each row of the table of 60 R180. -/
theorem witness_ErrorsAreHandledInPlace :
    errorOf (.rdPulse 1086) (withReader .ape 1000 1000 0 0 0 0) = some .invalidInterval ∧
    errorOf (.rdPulse 1300) (withReader .ahe 1000 1200 0 5 31 0) = some .invalidInterval ∧
    errorOf (.rdPulse 2120) (withReader .adb 1000 2000 0 7 63 1) = some .invalidInterval ∧
    errorOf (.rdPulse 1425) (underCfg { Cfg.default with capacity := 16 }
      (withReader .ahe 1000 1375 0 5 8 0)) = some .oversizedLength ∧
    errorOf (.rdWatchdog 39551) (withReader .adb 9000 9550 0 0 0 1) = some .stuckPacket ∧
    errorOf (.wrSend [] 0 5) started = some .sendMisuse ∧
    errorOf (.lkSend [1] 1 5) sending = some .sendMisuse := by decide

theorem witness_SecondServiceDeliversNothing :
    outputs .lkService { started with sig := { started.sig with lostFlag := true } } =
      some [.callback (.lost 0)] := by decide

/-- V-A10: a loss at 1000 is pending, the packet that started at 5000 is lost next. -/
theorem witness_LossesCoalesceUntilServiced :
    let s := { withReader .adb 5000 5600 0 3 0 1 with
      sig := { State.reset.sig with lostFlag := true, lostTs := 1000 } }
    s.rd.state = .adb ∧ s.sig.lostFlag = true ∧
    classify s.cfg (elapsed s.cfg s.rd.lastTs 5720) = .invalid ∧
    ((after (exec (.rdPulse 5720) s)).bind fun u => outputs .lkService u) =
      some [.raised (.lost 5000), .callback (.lost 5000)] := by decide

theorem witness_OwnPulsesAreNotHeard :
    (after (exec (.lkSend [0x99] 1 2250) started)).map (fun u => (u.wr.txPending, started.wr.txPending)) =
      some (true, false) := by decide

/-- A started device with a capture hardware that last captured a pulse at 2249, and no pulse under way. -/
def near (resolution : Time) (captures : List Capture) : Node :=
  { device := started, resolution := resolution, lastCapture := some 2249, captures := captures, line := [] }

/-- The states of the devices of a network after an action: the Reader's, its last time, a send in flight. -/
def netAfter (o : NetOutcome) (later : Time) : List (RdState × Time × Bool) :=
  match o with
  | .next n => (n.advance later).nodes.map fun m => (m.device.rd.state, m.device.rd.lastTs, m.device.wr.txPending)
  | .fault _ => []
  | .refused _ => []

/-- A sender, a device that tells the pulse from the last one, and one for each outcome of a coincident
pulse; the clock once before the reading and once past it. -/
theorem witness_FirstPulseReachesEveryDevice :
    let n (clock : Time) : Net :=
      { nodes := [near 0 [], near 1 [.merged true], near 2 [.merged true], near 2 [.apart], near 2 []]
        clock := clock }
    let o := Net.act 0 (.lkSend [0x99] 1 2250)
    started.wr.txPending = false ∧
    ((n 0).nodes.all fun m => decide (m.device.cfg.Admitted ∧ m.line = [] ∧ m.line.Pairwise (· ≤ ·))) = true ∧
    ((n 0).nodes.map fun m => coincides m 2250) = [false, false, true, true, true] ∧
    [2200, 9000].map (fun c => netAfter (o (n c)) 2251) =
      List.replicate 2 [(.bl, 500, true), (.ape, 2250, false), (.aps, 500, false), (.ape, 2250, false),
        (.ape, 2250, false)] := by decide

/-- Three pulses on a line: time passes two of them, in order, and the environment then has the third heard. -/
theorem witness_pulses_waiting_on_a_line :
    let m : Node := { near 0 [] with line := [2300, 2400, 2450] }
    m.line.Pairwise (· ≤ ·) ∧
    ((m.hearBefore 2450).line, (m.hearBefore 2450).device.rd.state, (m.hearBefore 2450).device.rd.lastTs) =
      ([2450], .ahe, 2400) ∧
    (((m.hearBefore 2450).hearNext 2450).line, ((m.hearBefore 2450).hearNext 2450).device.rd.lastTs) =
      ([], 2450) ∧
    (m.hearBefore 2450).hearNext 2449 = m.hearBefore 2450 := by decide

/-- 60 R190: two sends at one instant may both come before either device hears the other, or one after it. -/
theorem test_two_sends_at_one_instant :
    let n : Net := { nodes := [near 0 [], near 0 []], clock := 2200 }
    let send (k : Nat) : Instr × Nat := (.lkSend [0x99] 1 2250, k)
    let run (x : Instr × Nat) (o : NetOutcome) : NetOutcome :=
      match o with
      | .next n => Net.act x.2 x.1 n
      | o => o
    let hear (o : NetOutcome) : NetOutcome :=
      match o with
      | .next n => .next (n.deliver 1)
      | o => o
    netAfter (run (send 1) (run (send 0) (.next n))) 2251 = [(.bl, 500, true), (.bl, 500, true)] ∧
    netAfter (run (send 1) (hear (run (send 0) (.next n)))) 2251 = [(.bl, 500, true), (.bl, 2250, true)] := by
  decide

/-- 43 R169: noise at 1001 reaches a device between the first two pulses of a frame from 1000, and a wire
symbol moves the clock on. -/
theorem test_pulses_keep_their_order :
    let n : Net := { nodes := [near 0 []], clock := 900 }
    let noise (o : NetOutcome) : NetOutcome :=
      match o with
      | .next n => n.noise 1001
      | o => o
    netAfter (noise (Net.act 0 (.frame 1000 [0x99]) n)) 1002 = [(.ape, 1001, false)] ∧
    netAfter (noise (Net.act 0 (.frame 1000 [0x99]) n)) 1101 = [(.ahe, 1100, false)] ∧
    (match Net.act 0 .symOne { n with clock := 520 } with
      | .next n' => n'.clock
      | _ => 0) = 575 := by decide

/-- 43 R169: two pulses on either side of the counter's wrap, 1 microsecond apart, may be told apart and may
be merged. -/
theorem test_capture_across_the_wrap :
    [Capture.apart, .merged false].map (fun x =>
      merges { near 2 [x] with lastCapture := some lastTime } (lastTime + 1)) = [false, true] := by decide

theorem witness_WireBitsAreAssembled :
    let s := withReader .ahe 1000 1100 0 4 0 0
    let p := withReader .adb 1000 1500 0 6 0 1
    CodecRoundTrips s.cfg ∧ (s.rd.state = .ahe ∧ s.rd.bitCursor.toNat < 5) ∧
    (p.rd.state = .adb ∧ p.rd.bitCursor.toNat < 7) := by decide

theorem witness_WirePreambleAndInvalid :
    let s := withReader .ape 1000 1000 0 0 0 0
    CodecRoundTrips s.cfg ∧ s.rd.state = .ape ∧
    ([0, 36, 114, lastTime].all fun d => matchesNoWindow s.cfg d && decide (d < 2 ^ s.cfg.tsw)) = true ∧
    (withReader .ahe 1000 1100 0 0 0 0).rd.state = .ahe ∧
    (withReader .adb 1000 1100 0 0 0 1).rd.state = .adb := by decide

theorem witness_IllFormedRequestsAreRefused :
    (started.wr.active = true ∧ started.wr.txPending = false ∧ 2 ≤ started.cfg.capacity ∧
      ([1] : List Byte).length < 2) ∧
    (inZero started.cfg 37 = true ∧ inOne started.cfg 88 = true ∧ inPre started.cfg 113 = true ∧
      113 < 2 ^ started.cfg.tsw) ∧
    (([] : List Byte).length = 0 ∧ 64 < (List.replicate 65 (0 : Byte)).length) := by decide

/-- The last clause's gaps are the frame of one byte with every interval at an end of its margins. -/
theorem witness_FrameIsReceived :
    let s := withReader .adb 1000 2000 0 3 0 1
    (CodecRoundTrips started.cfg ∧ 3000 < 2 ^ started.cfg.tsw ∧ 1 ≤ ([0] : List Byte).length ∧
      (List.replicate 64 (0 : Byte)).length ≤ started.cfg.capacity ∧ started.cfg.capacity ≤ 64 ∧
      started.rd.state = .aps) ∧
    (CodecRoundTrips s.cfg ∧ Decoding s ∧
      matchesNoWindow s.cfg (elapsed s.cfg s.rd.lastTs 2114) = true) ∧
    sending.rd.state = .bl ∧
    (87 < 2 ^ started.cfg.tsw ∧ isPreamble started.cfg 87 = true ∧
      List.Forall₂ (fun g b => g < 2 ^ started.cfg.tsw ∧ classify started.cfg g = if b then .one else .zero)
        [37, 61, 37, 61, 37, 61, 37, 64, 61, 37, 61, 37, 61, 88] (frameBits [0x41])) := by decide

theorem witness_OversizedFrameIsDroppedSilently :
    let s := underCfg { Cfg.default with capacity := 16 } started
    CodecRoundTrips s.cfg ∧ isPreamble s.cfg s.cfg.tZero = false ∧ isPreamble s.cfg s.cfg.tOne = false ∧
    s.rd.state = .aps ∧ s.cfg.capacity < (List.replicate 17 (0 : Byte)).length ∧
    (List.replicate 64 (0 : Byte)).length ≤ 64 := by decide

theorem witness_SendPutsItsFrameOnTheWire :
    started.wr.active = true ∧ started.wr.txPending = false ∧ 1 ≤ started.cfg.capacity ∧
    64 ≤ started.cfg.capacity ∧ started.cfg.capacity ≤ 64 ∧
    64 ≤ (List.replicate 64 (0 : Byte)).length := by decide

/-- The greatest `JITTER` that 40 R107 tolerates under every `OVERLAP_ZO`. -/
theorem jitter_tolerated : JitterTolerated { Cfg.default with jitter := 11 } := by
  refine ⟨fun (g : Nat) h1 h2 => ?_, fun (g : Nat) h1 h2 => ?_, fun (g : Nat) h1 h2 => ?_, by decide⟩
  · have l : 50 ≤ g + 11 := h1
    have u : g ≤ 61 := h2
    simp [classify, inZero, inOne, insideWindow, Cfg.default,
      show 36 < g by omega, show g < 64 by omega, show ¬ 61 < g by omega]
  · have l : 75 ≤ g + 11 := h1
    have u : g ≤ 86 := h2
    simp [classify, inZero, inOne, insideWindow, Cfg.default,
      show ¬ g < 64 by omega, show 61 < g by omega, show g < 89 by omega]
  · have l : 100 ≤ g + 11 := h1
    have u : g ≤ 111 := h2
    simp [isPreamble, inPre, insideWindow, Cfg.default, show 86 < g by omega, show g < 114 by omega]

/-- A send of one byte whose expiries come early and late by 11 microseconds in turn. -/
theorem witness_SentPacketIsReceived :
    let s := underCfg { Cfg.default with jitter := 11 } started
    let r := underCfg s.cfg (withReader .aps 0 0 0 0 0 0)
    let ts := [1089, 1150, 1189, 1250, 1289, 1350, 1389, 1450, 1514, 1575, 1614, 1675, 1714, 1775, 1839]
    (s.wr.active = true ∧ s.wr.txPending = false ∧ 64 ≤ s.cfg.capacity ∧ s.cfg.capacity ≤ 64 ∧
      CodecRoundTrips s.cfg ∧ r.cfg = s.cfg ∧ r.rd.state = .aps) ∧
    (JitterTolerated s.cfg ∧ ts.length = 8 * 1 + 7) ∧
    ExpiriesOnTime 1000 ts (acceptSend [0x41] 1 1000 s) := by
  exact ⟨by decide, ⟨jitter_tolerated, rfl⟩, by trivial⟩

theorem witness_UnitsWriteTheirOwnFields :
    ([Instr.wrSend [1] 1 5, .lkCansend 5, .rdPulse 5, .lkService, .symOne, .lkStart 5].all fun i =>
      (after (exec i started)).isSome) = true := by decide

theorem witness_IdleIsEnteredByStopAlone :
    started.rd.state ≠ .idle ∧ (readerAfter .rdStop started).map Reader.state = some .idle ∧
    (readerAfter .lkStop started).map Reader.state = some .idle ∧ State.reset.rd.state = .idle ∧
    (readerAfter (.rdStart 5) State.reset).map Reader.state = some .aps := by decide

theorem witness_FlagsAreClearedByTaskAlone :
    let s := { sending with sig := { receivedFlag := true, receivedTs := 0, receivedLen := 1,
                                     lostFlag := true, lostTs := 0, sentFlag := true } }
    (s.sig.receivedFlag = true ∧ s.sig.lostFlag = true ∧ s.sig.sentFlag = true) ∧
    (after (exec .lkStop s)).isSome = true := by decide

theorem witness_OnlyACompletedByteIsStored :
    let s := withReader .adb 1000 2000 0 7 63 1
    (after (exec (.rdPulse 2075) s)).map (fun u => (u.rbuf.read 0, s.rbuf.read 0)) =
      some (some 0x7F, none) := by decide

theorem witness_ConfigurationIsFixed :
    (after (step { started with stim := [0x34#8] })).isSome = true ∧
    (after (step { started with stim := [0xC0#8] })).isSome = true := by decide

theorem witness_RestartReinitialises : lastTime < 2 ^ sending.cfg.tsw := by decide

theorem witness_StepRunsTheDecodedInstruction :
    decode [0x34#8, 0x11] = .instr .lkService [0x11] ∧ decode [0xC0#8] = .host .powerOn [] ∧
    decode [0x3F#8] = .reserved 0x3F ∧ decode [0x12#8] = .malformed ∧ State.reset.stim = [] ∧
    State.reset.cfg.Admitted ∧ ¬ ({ Cfg.default with capacity := 65 } : Cfg).Admitted := by decide

theorem witness_UnlistedCodesAreRefused :
    [0x03, 0x0F, 0x19, 0x1F, 0x24, 0x2F, 0x36, 0x3F].map (fun w => decode [BitVec.ofNat 8 w]) =
    [.reserved 0x03, .reserved 0x0F, .reserved 0x19, .reserved 0x1F, .reserved 0x24, .reserved 0x2F,
      .reserved 0x36, .reserved 0x3F] ∧ State.reset.cfg.Admitted := by decide

theorem witness_DecodeReadsEncodedRecords :
    ([Instr.classify (2 ^ 64 - 1), .wrSend (List.replicate 255 0) 255 0, .lkSend [] 0 0, .frame 0 [0],
      .frame 0 (List.replicate 64 0)].all fun i => i.wellFormed) = true ∧
    (HostEvent.consumerLoad (2 ^ 64 - 1)).wellFormed = true := by decide +kernel

/-- A packet of one byte held in a buffer of two listed bytes, one in a buffer that lists none, a Reader that
decodes and one that nobody owns. -/
theorem witness_HostActions :
    let s := { withReader .ac 0 0 1 0 0 1 with rbuf := [(0, 0x7E), (1, 0x55)] }
    (s.rd.state = .ac ∧ 0 < s.rd.length.toNat ∧ s.rbuf.read 0 = some 0x7E) ∧
    (s.rd.length.toNat ≤ 1 ∧ (withReader .ac 0 0 1 0 0 1).rbuf.read 0 = none) ∧
    (started.rd.state = .aps ∧ sending.rd.state = .bl ∧ State.reset.rd.state = .idle) ∧
    (63 < s.cfg.capacity ∧ s.cfg.capacity ≤ 64) ∧
    (sending.wbuf.read 0 ≠ none ∧ sending.wbuf.read 1 = none) := by decide

theorem witness_StepKeepsTheFormOfTheState :
    let s := { sending with stim := 0x23#8 :: List.replicate 8 0 }
    StateFits s ∧ (after (step s)).isSome = true := by decide

/-- A started device that holds a packet of one byte. -/
def holding : State :=
  { started with rd := { started.rd with state := .ac, length := 1, byteCursor := 1 } }

/-- A started device at the last bit of a packet of 64 bytes. -/
def lastBit : State :=
  { started with rd := { started.rd with state := .adb, length := 64, byteCursor := 63, bitCursor := 7 } }

/-- A send in flight and a packet held satisfy the invariants. -/
theorem witness_ProtocolKeepsTheLinkInvariants :
    (inProtocol (.wrExpiry 1200) = true ∧ LinkInv sending ∧
      (after (exec (.wrExpiry 1200) sending)).isSome = true) ∧
    (disciplined (.consumerStore 0 5) holding = true ∧ LinkInv holding ∧
      (after (hostStep (.consumerStore 0 5) holding)).isSome = true) := by
  refine ⟨⟨?_, ?_, ?_⟩, ?_, ?_, ?_⟩ <;> decide

/-- Every kind of operation that has a premise, and the two that could meet an open value. -/
theorem witness_OperationsAreTotal :
    (1 ≤ ([0x41] : List Byte).length ∧ matchesNoWindow started.cfg (114 % 2 ^ started.cfg.tsw) = true ∧
      (List.replicate 64 (0 : Byte)).length ≤ 64) ∧
    (inProtocol (.rdPulse 550) = true ∧ LinkInv lastBit ∧
      (after (exec (.rdPulse 550) lastBit)).isSome = true) ∧
    (LinkInv sending ∧ (after (exec (.wrExpiry 1200) sending)).isSome = true) := by
  refine ⟨?_, ⟨?_, ?_, ?_⟩, ?_, ?_⟩ <;> decide

theorem witness_ResetSatisfiesTheInvariants :
    Cfg.default.Admitted ∧ ({ Cfg.default with capacity := 1 } : Cfg).Admitted ∧
    ({ Cfg.default with tsw := 15 } : Cfg).Admitted := by decide

end Sys2Proof.Tests
end

section
/-! SUPPORT. A time counts by its low `TSW` bits in every operation (00 R11, log 4): two operands with the same
low bits have the same effect. -/

namespace Sys2Proof.Machine

open Sys2Proof

variable {c : Cfg} {s : State} {t t' : Time}

theorem time_add_congr (h : time c t = time c t') (d : Time) : time c (t + d) = time c (t' + d) :=
  Nat.ModEq.add_right d h

theorem elapsed_congr_right (h : time c t = time c t') (a : Time) : elapsed c a t = elapsed c a t' := by
  rw [← elapsed_time_right, h, elapsed_time_right]

/-- Two readings fewer than 2^`TSW` apart: `elapsed` is their true difference (60 R194). -/
theorem elapsed_eq_sub {a b : Nat} (hle : a ≤ b) (hlt : b < a + 2 ^ c.tsw) : elapsed c a b = b - a := by
  obtain ⟨d, rfl⟩ := Nat.exists_eq_add_of_le hle
  rw [elapsed_add a (Nat.add_lt_add_iff_left.1 hlt), Nat.add_sub_cancel_left]

/-- `TSW`-bit times across the wrap: the later one stands for the reading one turn of the counter on. -/
theorem elapsed_eq_sub_of_wrap {a b : Nat} (ha : a < 2 ^ c.tsw) (hba : b < a) :
    elapsed c a b = b + 2 ^ c.tsw - a := by
  have hturn : time c b = time c (b + 2 ^ c.tsw) := (Nat.add_mod_right b _).symm
  rw [elapsed_congr_right hturn, elapsed_eq_sub (by omega) (by omega)]

/-- The difference to a stamp is the true difference to the reading behind it. -/
theorem elapsed_stamp {r stamp : Time} (hr : time c r = stamp) (hle : r ≤ t) (hlt : t < r + 2 ^ c.tsw) :
    elapsed c stamp t = t - r := by
  rw [← hr, elapsed_time_left, elapsed_eq_sub hle hlt]

/-! ## The Reader -/

theorem resync_congr (h : time s.cfg t = time s.cfg t') : resync t s = resync t' s := by
  simp only [resync, h]

theorem pulseApe_congr (h : time s.cfg t = time s.cfg t') : pulseApe t s = pulseApe t' s := by
  simp only [pulseApe, elapsed_congr_right h, resync_congr h, h]

theorem acceptHeaderBit_congr (h : time s.cfg t = time s.cfg t') (b : Bool) :
    acceptHeaderBit b t s = acceptHeaderBit b t' s := by
  simp only [acceptHeaderBit, resync_congr h, h]

theorem pulseAhe_congr (h : time s.cfg t = time s.cfg t') : pulseAhe t s = pulseAhe t' s := by
  simp only [pulseAhe, elapsed_congr_right h, resync_congr h, acceptHeaderBit_congr h]

theorem finishByte_congr (h : time s.cfg t = time s.cfg t') : finishByte t s = finishByte t' s := by
  simp only [finishByte, h]

theorem acceptDataBit_congr (h : time s.cfg t = time s.cfg t') (b : Bool) :
    acceptDataBit b t s = acceptDataBit b t' s := by
  have hstored (i : Nat) (v : Byte) : finishByte t (storeRbuf i v s) = finishByte t' (storeRbuf i v s) :=
    finishByte_congr (by simpa using h)
  simp only [acceptDataBit, hstored, h]

theorem pulseAdb_congr (h : time s.cfg t = time s.cfg t') : pulseAdb t s = pulseAdb t' s := by
  have hlost : resync t (raise (.lost s.rd.startTs) s) = resync t' (raise (.lost s.rd.startTs) s) :=
    resync_congr h
  simp only [pulseAdb, elapsed_congr_right h, hlost, acceptDataBit_congr h]

theorem pulse_congr (h : time s.cfg t = time s.cfg t') : pulse t s = pulse t' s := by
  simp only [pulse, pulseAps, h, pulseApe_congr h, pulseAhe_congr h, pulseAdb_congr h]

theorem feed_congr (h : time s.cfg t = time s.cfg t') (gaps : List Time) :
    feed t gaps s = feed t' gaps s := by
  induction gaps generalizing t t' s with
  | nil => exact pulse_congr h
  | cons d rest ih =>
    have hnext : time (pulse t s).cfg (t + d) = time (pulse t s).cfg (t' + d) := by
      rw [(pulse_frame t s).2.cfg]
      exact time_add_congr h d
    simp only [feed]
    rw [ih hnext, pulse_congr h]

theorem readerStart_congr (h : time s.cfg t = time s.cfg t') : readerStart t s = readerStart t' s := by
  simp only [readerStart, h]

theorem readerCanSend_congr (h : time s.cfg t = time s.cfg t') (silence : Time) :
    readerCanSend t silence s = readerCanSend t' silence s := by
  simp only [readerCanSend, elapsed_congr_right h]

/-! ## The Writer and the Arbiter -/

theorem writerStart_congr (h : time s.cfg t = time s.cfg t') : writerStart t s = writerStart t' s := by
  simp only [writerStart, h]

theorem acceptSend_congr (h : time s.cfg t = time s.cfg t') (buffer : List Byte) (length : Nat) :
    acceptSend buffer length t s = acceptSend buffer length t' s := by
  simp only [acceptSend_eq, h]

theorem expiry_congr (h : time s.cfg t = time s.cfg t') : expiry t s = expiry t' s := by
  simp only [expiry, expiryIdle, emitPulse, fireTimer_cfg, State.emit_cfg, h]

theorem linkCanSend_congr (h : time s.cfg t = time s.cfg t') : linkCanSend t s = linkCanSend t' s := by
  simp only [linkCanSend, readerCanSend_congr h, elapsed_congr_right h]

end Sys2Proof.Machine
end

section
/-! CERTIFICATE. A time operand counts by its low `TSW` bits (log 4). -/

open Sys2Proof Sys2Proof.Machine

/-- Settles O48: each operation with a time operand takes it through `time` and `elapsed` alone. -/
theorem operandsCountModuloTheCounter : Obligations.OperandsCountModuloTheCounter := by
  unfold Obligations.OperandsCountModuloTheCounter
  intro t d buffer length s
  have low (t : Time) : time s.cfg t = time s.cfg (t % 2 ^ s.cfg.tsw) := (time_time s.cfg t).symm
  have ht := low t
  refine ⟨?classify, ?ispreamble, ?rdPulse, ?rdStart, ?rdCansend, ?rdWatchdog, ?wrStart, ?wrExpiry, ?wrSend,
    ?lkStart, ?lkCansend, ?lkSend, ?symInvalid, ?frame⟩
  case classify => simp only [exec, execClassify, ← ht]
  case ispreamble => simp only [exec, execIspreamble, ← ht]
  case rdPulse => simp only [exec, execRdPulse, pulse_congr ht]
  case rdStart => simp only [exec, execRdStart, readerStart_congr ht]
  case rdCansend => simp only [exec, execRdCansend, readerCanSend_congr ht, ← low d]
  case rdWatchdog => simp only [exec, execRdWatchdog, elapsed_congr_right ht]
  case wrStart => simp only [exec, execWrStart, writerStart_congr ht]
  case wrExpiry => simp only [exec, execWrExpiry, expiry_congr ht]
  case wrSend => simp only [exec, execWrSend, acceptSend_congr ht]
  case lkStart =>
    obtain ⟨r, hr⟩ := readerStart_eq (t % 2 ^ s.cfg.tsw) s
    have hw : writerStart t (s.setRd r) = writerStart (t % 2 ^ s.cfg.tsw) (s.setRd r) := writerStart_congr ht
    simp only [exec, execLkStart, readerStart_congr ht, hr, hw]
  case lkCansend => simp only [exec, execLkCansend, linkCanSend_congr ht]
  case lkSend =>
    have hs := acceptSend_congr (s := blank (s.setTxBlank true)) ht buffer length
    simp only [exec, execLkSend, hs]
  case symInvalid => simp only [exec, execSymInvalid, ← ht]
  case frame => simp only [exec, execFrame, feed_congr ht]

end

section
/-! SUPPORT. A step by what stands at the front of the stimulus stream (log 1, 2). -/

namespace Sys2Proof.Machine

open Sys2Proof

theorem step_of_not_admitted {s : State} (h : ¬ s.cfg.Admitted) :
    step s = .refused .configuration := if_neg h

theorem step_of_no_stimulus {s : State} (hc : s.cfg.Admitted) (h : s.stim = []) :
    step s = .next s := by
  simp only [step, underAdmitted, if_pos hc, h, List.isEmpty_nil, if_true]

/-- The decoder reads an empty stream as a malformed record, so every other reading is of a stimulus. -/
theorem isEmpty_of_decode {bs : List Byte} {d : Decoded} (h : decode bs = d) (hd : d ≠ .malformed) :
    bs.isEmpty = false := by
  cases bs with
  | nil => exact absurd h.symm hd
  | cons b rest => rfl

theorem step_of_instr {s : State} {i : Instr} {rest : List Byte} (hc : s.cfg.Admitted)
    (hd : decode s.stim = .instr i rest) : step s = exec i (s.setStim rest) := by
  simp only [step, underAdmitted, if_pos hc, isEmpty_of_decode hd nofun, fetch, hd, Bool.false_eq_true,
    if_false]

theorem step_of_host {s : State} {e : HostEvent} {rest : List Byte} (hc : s.cfg.Admitted)
    (hd : decode s.stim = .host e rest) : step s = hostStep e (s.setStim rest) := by
  simp only [step, underAdmitted, if_pos hc, isEmpty_of_decode hd nofun, fetch, hd, Bool.false_eq_true,
    if_false]

theorem step_of_reserved {s : State} {b : Nat} (hc : s.cfg.Admitted) (hd : decode s.stim = .reserved b) :
    step s = .refused (.reservedCode b) := by
  simp only [step, underAdmitted, if_pos hc, isEmpty_of_decode hd nofun, fetch, hd, Bool.false_eq_true,
    if_false]

theorem step_of_malformed {s : State} (hc : s.cfg.Admitted) (hne : s.stim ≠ [])
    (hd : decode s.stim = .malformed) : step s = .refused .badRecord := by
  simp only [step, underAdmitted, if_pos hc, List.isEmpty_iff, if_neg hne, fetch, hd]

end Sys2Proof.Machine
end

section
/-! CERTIFICATE. A step runs the decoded record (log 1, 2, 27). -/

open Sys2Proof Sys2Proof.Machine

/-- Settles O52: one rule of the step per reading of the front of the stream. -/
theorem stepRunsTheDecodedInstruction : Obligations.StepRunsTheDecodedInstruction := by
  unfold Obligations.StepRunsTheDecodedInstruction
  intro s rest
  exact ⟨fun hc => ⟨fun _ hd => step_of_instr hc hd, fun _ hd => step_of_host hc hd,
    fun _ hd => step_of_reserved hc hd, fun hne hd => step_of_malformed hc hne hd,
    step_of_no_stimulus hc⟩, step_of_not_admitted⟩

end

section
/-! SUPPORT. The operations that can stop or that have more than one way to answer: everything each can do. -/

namespace Sys2Proof.Machine

open Sys2Proof

/-- Everything `WR.SEND` can do (42 R140, 20 R64): send, refuse a buffer that is too short, or answer failure. -/
theorem execWrSend_cases (buffer : List Byte) (length : Nat) (now : Time) (s : State) :
    (length ≤ buffer.length ∧
      exec (.wrSend buffer length now) s = .next ((acceptSend buffer length now s).emit [.retSend true])) ∨
    (buffer.length < length ∧ exec (.wrSend buffer length now) s = .refused .shortBuffer) ∨
    exec (.wrSend buffer length now) s = .next (s.emit [.retSend false]) := by
  simp only [exec, execWrSend]
  split
  · split
    · exact .inl ⟨‹_›, rfl⟩
    · exact .inr (.inl ⟨by omega, rfl⟩)
  · exact .inr (.inr rfl)

/-- Everything `LK.SEND` can do (43 R161): the same, an accepted send after blanking. -/
theorem execLkSend_cases (buffer : List Byte) (length : Nat) (now : Time) (s : State) :
    (length ≤ buffer.length ∧ exec (.lkSend buffer length now) s =
      .next ((acceptSend buffer length now (blank (s.setTxBlank true))).emit [.retSend true])) ∨
    (buffer.length < length ∧ exec (.lkSend buffer length now) s = .refused .shortBuffer) ∨
    exec (.lkSend buffer length now) s = .next (s.emit [.retSend false]) := by
  simp only [exec, execLkSend]
  split
  · split
    · exact .inl ⟨‹_›, rfl⟩
    · exact .inr (.inl ⟨by omega, rfl⟩)
  · exact .inr (.inr rfl)

/-- Everything `SYM.INVALID` can do (30 R80). -/
theorem execSymInvalid_cases (d : Time) (s : State) :
    (matchesNoWindow s.cfg (time s.cfg d) = true ∧
      exec (.symInvalid d) s = .next (closeInterval (time s.cfg d) s)) ∨
    (matchesNoWindow s.cfg (time s.cfg d) ≠ true ∧
      exec (.symInvalid d) s = .refused .notInvalidInterval) := by
  simp only [exec, execSymInvalid]
  split
  · exact .inl ⟨‹_›, rfl⟩
  · exact .inr ⟨‹_›, rfl⟩

/-- Everything `FRAME` can do (30 R82). -/
theorem execFrame_cases (t : Time) (bytes : List Byte) (s : State) :
    exec (.frame t bytes) s = .next (feed t (frameGaps s.cfg bytes) s) ∨
    (¬ (1 ≤ bytes.length ∧ bytes.length ≤ 64) ∧ exec (.frame t bytes) s = .refused .frameLength) := by
  simp only [exec, execFrame]
  split
  · exact .inl rfl
  · exact .inr ⟨‹_›, rfl⟩

/-- Everything `RD.WATCHDOG` can do (41 R122): lose the packet, or nothing. -/
theorem execRdWatchdog_cases (now : Time) (s : State) :
    exec (.rdWatchdog now) s = .next ((raise (.lost s.rd.startTs) s).setRd { s.rd with state := .aps }) ∨
    exec (.rdWatchdog now) s = .next s := by
  simp only [exec, execRdWatchdog]
  split
  · split
    · exact .inl rfl
    · exact .inr rfl
  · exact .inr rfl

/-- Everything `LK.START` can do (43 R164): nothing on a started link, or both starts with the bit and the flags
cleared. -/
theorem execLkStart_cases (now : Time) (s : State) :
    (linkStarted s = true ∧ exec (.lkStart now) s = .next s) ∨
    (linkStarted s = false ∧ ∃ p, p = writerStart now (readerStart now s) ∧
      exec (.lkStart now) s = .next ((p.setTxBlank false).setSig p.sig.clearAll)) := by
  simp only [exec, execLkStart]
  split
  · exact .inl ⟨‹_›, rfl⟩
  · exact .inr ⟨Bool.eq_false_iff.2 ‹_›, _, rfl, rfl⟩

/-- What calling an observer and ending the blanking keep, `LK.SERVICE` keeps (43 R162). -/
theorem service_induct {P : State → Prop} (hconsume : ∀ g s, P s → P (consume g s))
    (hrestore : ∀ s, P s → P (restore false (s.setTxBlank false))) {s : State} (hs : P s) :
    P (serviceSent (serviceReceived (serviceLost s))) := by
  have hlost : P (serviceLost s) := by
    unfold serviceLost
    split
    · exact hconsume _ s hs
    · exact hs
  have hreceived : P (serviceReceived (serviceLost s)) := by
    unfold serviceReceived
    split
    · exact hconsume _ _ hlost
    · exact hlost
  have hblanking : P (endBlanking (serviceReceived (serviceLost s))) := by
    unfold endBlanking
    split
    · exact hreceived
    · exact hrestore _ hreceived
  unfold serviceSent
  split
  · exact hconsume _ _ hblanking
  · exact hreceived

end Sys2Proof.Machine
end

section
/-! SUPPORT. Every step keeps the form of the state (00 R11, 20 R60, 60 R193): one rule per update, then one
lemma per operation. The trace, the stimuli, the free values and the Arbiter's bit are no part of the form. -/

namespace Sys2Proof.Machine

open Sys2Proof

/-! ## The updates -/

variable {s : State}

theorem StateFits.setRd {r : Reader} (h : StateFits s) (hstart : r.startTs < 2 ^ s.cfg.tsw)
    (hlast : r.lastTs < 2 ^ s.cfg.tsw) : StateFits (s.setRd r) := by
  obtain ⟨⟨-, -, hcompletion, hsig⟩, hbuf, hdelay⟩ := h
  exact ⟨⟨hstart, hlast, hcompletion, hsig⟩, hbuf, hdelay⟩

/-- Moving the Reader to another control state keeps the form. -/
theorem StateFits.setRdState (h : StateFits s) (st : RdState) :
    StateFits (s.setRd { s.rd with state := st }) := by
  obtain ⟨⟨hstart, hlast, -⟩, -⟩ := id h
  exact h.setRd hstart hlast

theorem StateFits.setWr {w : Writer} (h : StateFits s) (hcompletion : w.lastCompletionTs < 2 ^ s.cfg.tsw) :
    StateFits (s.setWr w) := by
  obtain ⟨⟨hstart, hlast, -, hsig⟩, hbuf, hdelay⟩ := h
  exact ⟨⟨hstart, hlast, hcompletion, hsig⟩, hbuf, hdelay⟩

theorem StateFits.setWbuf {m : Memory} (h : StateFits s) (hm : m.wf) : StateFits (s.setWbuf m) := by
  obtain ⟨htimes, ⟨hrbuf, -, hcap⟩, hdelay⟩ := h
  exact ⟨htimes, ⟨hrbuf, hm, hcap⟩, hdelay⟩

theorem StateFits.setSig {g : Signals} (h : StateFits s) (hreceived : g.receivedTs < 2 ^ s.cfg.tsw)
    (hlost : g.lostTs < 2 ^ s.cfg.tsw) : StateFits (s.setSig g) := by
  obtain ⟨⟨hstart, hlast, hcompletion, -, -⟩, hbuf, hdelay⟩ := h
  exact ⟨⟨hstart, hlast, hcompletion, hreceived, hlost⟩, hbuf, hdelay⟩

theorem StateFits.storeRbuf_fits (h : StateFits s) (i : Nat) (v : Byte) : StateFits (storeRbuf i v s) := by
  rcases storeRbuf_cases i v s with ⟨hi, e⟩ | ⟨-, e⟩ <;> rw [e]
  · obtain ⟨htimes, ⟨hrbuf, hwbuf, hcap⟩, hdelay⟩ := h
    refine ⟨htimes, ⟨Memory.wf_write i v hrbuf, hwbuf, fun x hx => ?_⟩, hdelay⟩
    rcases Memory.mem_write hx with rfl | hx
    · exact hi
    · exact hcap x hx
  · exact h

/-- The signals carry the start of a packet, which is a `TSW`-bit time (60 R187). -/
theorem StateFits.raise_lost (h : StateFits s) : StateFits (raise (.lost s.rd.startTs) s) := by
  obtain ⟨⟨hstart, -, -, hreceived, -⟩, -⟩ := id h
  exact h.setSig hreceived hstart

theorem StateFits.raise_received {ts : Time} {len : BitVec 7} (h : StateFits s) (hts : ts < 2 ^ s.cfg.tsw) :
    StateFits (raise (.received ts len) s) := by
  obtain ⟨⟨-, -, -, -, hlost⟩, -⟩ := id h
  exact h.setSig hts hlost

theorem StateFits.raise_sent (h : StateFits s) : StateFits (raise .sent s) := h

theorem StateFits.consume_fits (h : StateFits s) (g : Signal) : StateFits (consume g s) := by
  obtain ⟨⟨-, -, -, hreceived, hlost⟩, -⟩ := id h
  cases g with
  | received ts len => exact h.setSig hreceived hlost
  | lost ts => exact h.setSig hreceived hlost
  | sent => exact h.setSig hreceived hlost

/-- The block asks the Timer Service for the nominal interval of a symbol alone (60 R193). -/
theorem StateFits.scheduleAfter_fits (h : StateFits s) (sym : TxSymbol) :
    StateFits (scheduleAfter (interval s.cfg sym) s) := by
  obtain ⟨htimes, hbuf, -⟩ := h
  refine ⟨htimes, hbuf, fun _ => ?_⟩
  cases sym with
  | zero => exact .inl rfl
  | one => exact .inr (.inl rfl)
  | preamble => exact .inr (.inr rfl)

theorem StateFits.fireTimer_fits (h : StateFits s) : StateFits (fireTimer s) := by
  obtain ⟨htimes, hbuf, -⟩ := h
  exact ⟨htimes, hbuf, nofun⟩

theorem StateFits.cancelTimer_fits (h : StateFits s) : StateFits (cancelTimer s) := h.fireTimer_fits

/-! ## The pulse event -/

theorem StateFits.resync_fits (h : StateFits s) (t : Time) : StateFits (resync t s) :=
  h.setRd (time_lt _ t) (time_lt _ t)

/-- A pulse the Reader accepts keeps the start of the packet and is its last time. -/
theorem StateFits.setRdLast {r : Reader} (h : StateFits s) (t : Time) (hstart : r.startTs = s.rd.startTs)
    (hlast : r.lastTs = time s.cfg t) : StateFits (s.setRd r) := by
  obtain ⟨⟨hs, -⟩, -⟩ := id h
  exact h.setRd (hstart ▸ hs) (hlast ▸ time_lt _ t)

theorem StateFits.acceptHeaderBit_fits (h : StateFits s) (b : Bool) (t : Time) :
    StateFits (acceptHeaderBit b t s) := by
  unfold acceptHeaderBit
  dsimp only
  split
  · split
    · exact h.resync_fits t
    · exact h.setRdLast t rfl rfl
  · exact h.setRdLast t rfl rfl

theorem StateFits.finishByte_fits (h : StateFits s) (t : Time) : StateFits (finishByte t s) := by
  obtain ⟨⟨hstart, -⟩, -⟩ := id h
  unfold finishByte
  split
  · exact StateFits.raise_received (h.setRdLast t rfl rfl) hstart
  · exact h.setRdLast t rfl rfl

theorem StateFits.pulse_fits (h : StateFits s) (t : Time) : StateFits (pulse t s) := by
  rcases pulse_cases t s with ⟨-, e⟩ | ⟨-, e⟩ | ⟨-, e⟩ | ⟨-, -, e⟩ | ⟨-, b, -, e⟩ | ⟨-, e⟩ <;> rw [e]
  · exact h.resync_fits t
  · unfold pulseApe
    split
    · exact h.setRdLast t rfl rfl
    · exact h.resync_fits t
  · unfold pulseAhe
    split
    · exact h.resync_fits t
    · exact h.acceptHeaderBit_fits _ t
  · exact h.raise_lost.resync_fits t
  · rcases acceptDataBit_cases b t s with ⟨-, e⟩ | ⟨-, e⟩ <;> rw [e]
    · exact (h.storeRbuf_fits _ _).finishByte_fits t
    · exact h.setRdLast t rfl rfl
  · exact h

/-! ## The expiry event -/

theorem StateFits.expiry_fits (h : StateFits s) (now : Time) : StateFits (expiry now s) := by
  have hfired : StateFits (emitPulse now (fireTimer s)) := h.fireTimer_fits
  have hask (n : Nat) (sym : TxSymbol) : StateFits
      (scheduleAfter (interval s.cfg sym) ((emitPulse now (fireTimer s)).setFree n)) :=
    StateFits.scheduleAfter_fits (s := (emitPulse now (fireTimer s)).setFree n) hfired sym
  obtain ⟨⟨-, -, hcompletion, -⟩, -⟩ := id h
  rcases expiry_cases now s with ⟨-, e⟩ | ⟨-, ⟨-, e⟩ | ⟨-, e⟩ | ⟨-, e⟩⟩ <;> rw [e]
  · exact h.fireTimer_fits
  · unfold expirySh
    obtain ⟨n, hn⟩ := drawIfBeyondHeader_eq (emitPulse now (fireTimer s))
    rw [hn]
    refine (hask n _).setWr ?_
    split <;> exact hcompletion
  · unfold expirySd
    obtain ⟨n, hn⟩ := drawIfAbsent_eq (emitPulse now (fireTimer s)).wr.byteCursor.toNat
      (emitPulse now (fireTimer s))
    dsimp only
    rw [hn]
    refine (hask n _).setWr ?_
    unfold advanceData
    split <;> exact hcompletion
  · exact (hfired.raise_sent.setWr (time_lt _ now)).cancelTimer_fits

/-! ## Sends, start, stop, service -/

theorem StateFits.acceptSend_fits (h : StateFits s) (buffer : List Byte) (length : Nat) (now : Time) :
    StateFits (acceptSend buffer length now s) := by
  obtain ⟨⟨-, -, hcompletion, -⟩, -⟩ := id h
  exact ((h.setWbuf (Memory.wf_ofBytes 0 buffer)).setWr hcompletion).scheduleAfter_fits .preamble

theorem StateFits.readerStart_fits (h : StateFits s) (now : Time) : StateFits (readerStart now s) := by
  unfold readerStart
  split
  · exact h.setRdLast now rfl rfl
  · exact h

theorem StateFits.writerStart_fits (h : StateFits s) (now : Time) : StateFits (writerStart now s) := by
  unfold writerStart
  split
  · exact h
  · exact h.setWr (time_lt _ now)

theorem StateFits.writerStop_fits (h : StateFits s) : StateFits (writerStop s) := by
  obtain ⟨⟨-, -, hcompletion, -⟩, -⟩ := id h
  exact (h.setWr hcompletion).cancelTimer_fits

/-- Ending the blanking moves the Reader to another control state. -/
theorem StateFits.restore_fits (h : StateFits s) (blankLevel b : Bool) :
    StateFits (restore blankLevel (s.setTxBlank b)) := h.setRdState _

theorem StateFits.service_fits (h : StateFits s) :
    StateFits (serviceSent (serviceReceived (serviceLost s))) :=
  service_induct (P := StateFits) (fun g _ hs => hs.consume_fits g)
    (fun _ hs => hs.restore_fits false false) h

/-! ## Every instruction, every action of the host -/

theorem exec_stateFits {i : Instr} {u : State} (hs : StateFits s) (h : exec i s = .next u) :
    StateFits u := by
  cases i with
  | classify d => cases h; exact hs
  | ispreamble d => cases h; exact hs
  | interval sym => cases h; exact hs
  | rdStart now => cases h; exact hs.readerStart_fits now
  | rdStop => cases h; exact hs.setRdState .idle
  | rdPulse t => cases h; exact hs.pulse_fits t
  | rdHasincoming => cases h; exact hs
  | rdRestore blankLevel => cases h; exact hs.setRdState _
  | rdBlank => cases h; exact hs.setRdState _
  | rdIsblanking => cases h; exact hs
  | rdCansend now silence => cases h; exact hs
  | rdWatchdog now =>
    rcases execRdWatchdog_cases now s with e | e <;> cases e.symm.trans h
    · exact hs.raise_lost.setRdState .aps
    · exact hs
  | wrStart now => cases h; exact hs.writerStart_fits now
  | wrStop => cases h; exact hs.writerStop_fits
  | wrSend buffer length now =>
    rcases execWrSend_cases buffer length now s with ⟨-, e⟩ | ⟨-, e⟩ | e <;> cases e.symm.trans h
    · exact hs.acceptSend_fits buffer length now
    · exact hs
  | wrExpiry now => cases h; exact hs.expiry_fits now
  | lkStart now =>
    rcases execLkStart_cases now s with ⟨-, e⟩ | ⟨-, p, rfl, e⟩ <;> cases e.symm.trans h
    · exact hs
    · have hstarted := (hs.readerStart_fits now).writerStart_fits now
      obtain ⟨⟨-, -, -, hreceived, hlost⟩, -⟩ := id hstarted
      exact hstarted.setSig hreceived hlost
  | lkStop => cases h; exact hs.writerStop_fits.setRdState .idle
  | lkCansend now => cases h; exact hs
  | lkSend buffer length now =>
    rcases execLkSend_cases buffer length now s with ⟨-, e⟩ | ⟨-, e⟩ | e <;> cases e.symm.trans h
    · have hblank : StateFits (blank (s.setTxBlank true)) := hs.setRdState _
      exact hblank.acceptSend_fits buffer length now
    · exact hs
  | lkService => cases h; exact hs.service_fits
  | lkRestore => cases h; exact hs.setRdState _
  | symZero => cases h; exact hs.pulse_fits _
  | symOne => cases h; exact hs.pulse_fits _
  | symPreamble => cases h; exact hs.pulse_fits _
  | symInvalid d =>
    rcases execSymInvalid_cases d s with ⟨-, e⟩ | ⟨-, e⟩ <;> cases e.symm.trans h
    exact hs.pulse_fits _
  | frame t bytes =>
    rcases execFrame_cases t bytes s with e | ⟨-, e⟩ <;> cases e.symm.trans h
    exact feed_induct (P := StateFits) (fun t _ hs => hs.pulse_fits t) hs

theorem powerOn_stateFits (c : Cfg) : StateFits (State.powerOn c) :=
  have hzero : 0 < 2 ^ c.tsw := Nat.two_pow_pos _
  ⟨⟨hzero, hzero, hzero, hzero, hzero⟩, ⟨List.Pairwise.nil, List.Pairwise.nil, nofun⟩, nofun⟩

theorem hostStep_stateFits {e : HostEvent} {u : State} (hs : StateFits s) (h : hostStep e s = .next u) :
    StateFits u := by
  cases e with
  | powerOn => cases h; exact powerOn_stateFits s.cfg
  | callerStore i v =>
    simp only [hostStep, hostCallerStore] at h
    split at h <;> cases h
    obtain ⟨-, ⟨-, hwbuf, -⟩, -⟩ := id hs
    exact hs.setWbuf (Memory.wf_write i v hwbuf)
  | consumerLoad i =>
    simp only [hostStep, hostConsumerLoad] at h
    split at h
    · split at h <;> cases h <;> exact hs
    · cases h
  | consumerStore i v =>
    simp only [hostStep, hostConsumerStore] at h
    split at h
    · cases h
    · split at h <;> cases h
      exact hs.storeRbuf_fits i v

/-- Everything a step that answers can have done: run an instruction, an action of the host, or nothing. -/
theorem step_next_cases {u : State} (h : step s = .next u) :
    (∃ i rest, exec i (s.setStim rest) = .next u) ∨ (∃ e rest, hostStep e (s.setStim rest) = .next u) ∨
    u = s := by
  have hc : s.cfg.Admitted := by
    by_contra hc
    cases (step_of_not_admitted hc).symm.trans h
  by_cases hstim : s.stim = []
  · cases (step_of_no_stimulus hc hstim).symm.trans h
    exact .inr (.inr rfl)
  · cases hd : decode s.stim with
    | instr i rest => exact .inl ⟨i, rest, (step_of_instr hc hd).symm.trans h⟩
    | host e rest => exact .inr (.inl ⟨e, rest, (step_of_host hc hd).symm.trans h⟩)
    | reserved b => cases (step_of_reserved hc hd).symm.trans h
    | malformed => cases (step_of_malformed hc hstim hd).symm.trans h

end Sys2Proof.Machine
end

section
/-! CERTIFICATE. The form of the state is an invariant of every stimulus. -/

open Sys2Proof Sys2Proof.Machine

/-- Settles O57: by what a step can do, each case a preservation lemma above. -/
theorem stepKeepsTheFormOfTheState : Obligations.StepKeepsTheFormOfTheState := by
  unfold Obligations.StepKeepsTheFormOfTheState
  intro s u hs h
  rcases step_next_cases h with ⟨i, rest, h⟩ | ⟨e, rest, h⟩ | rfl
  · exact exec_stateFits (s := s.setStim rest) hs h
  · exact hostStep_stateFits (s := s.setStim rest) hs h
  · exact hs

end

section
/-! SUPPORT. Operations are total (00 R16), and what draws a value the spec leaves open (log 10, 11). -/

namespace Sys2Proof.Machine

open Sys2Proof

/-- The requests that the model refuses: a send whose buffer is shorter than its length (20 R64), a `SYM.INVALID`
inside a window (30 R80), a `FRAME` of a length no frame has (30 R82). -/
def IllFormed (i : Instr) (s : State) : Prop :=
  match i with
  | .wrSend buffer length _ => buffer.length < length
  | .lkSend buffer length _ => buffer.length < length
  | .symInvalid d => matchesNoWindow s.cfg (time s.cfg d) ≠ true
  | .frame _ bytes => ¬ (1 ≤ bytes.length ∧ bytes.length ≤ 64)
  | _ => False

/-- Every instruction answers a next state or is refused as ill-formed; none faults. -/
theorem exec_answers_or_refuses (i : Instr) (s : State) :
    (∃ u, exec i s = .next u) ∨ (IllFormed i s ∧ ∃ r, exec i s = .refused r) := by
  cases i with
  | rdWatchdog now => rcases execRdWatchdog_cases now s with e | e <;> exact .inl ⟨_, e⟩
  | lkStart now => rcases execLkStart_cases now s with ⟨-, e⟩ | ⟨-, _, -, e⟩ <;> exact .inl ⟨_, e⟩
  | wrSend buffer length now =>
    rcases execWrSend_cases buffer length now s with ⟨-, e⟩ | ⟨hshort, e⟩ | e
    · exact .inl ⟨_, e⟩
    · exact .inr ⟨hshort, _, e⟩
    · exact .inl ⟨_, e⟩
  | lkSend buffer length now =>
    rcases execLkSend_cases buffer length now s with ⟨-, e⟩ | ⟨hshort, e⟩ | e
    · exact .inl ⟨_, e⟩
    · exact .inr ⟨hshort, _, e⟩
    · exact .inl ⟨_, e⟩
  | symInvalid d =>
    rcases execSymInvalid_cases d s with ⟨-, e⟩ | ⟨hwindow, e⟩
    · exact .inl ⟨_, e⟩
    · exact .inr ⟨hwindow, _, e⟩
  | frame t bytes =>
    rcases execFrame_cases t bytes s with e | ⟨hlength, e⟩
    · exact .inl ⟨_, e⟩
    · exact .inr ⟨hlength, _, e⟩
  | _ => exact .inl ⟨_, rfl⟩

theorem exec_ne_fault (i : Instr) (s : State) (r : Fault) : exec i s ≠ .fault r := by
  intro h
  rcases exec_answers_or_refuses i s with ⟨u, e⟩ | ⟨-, r', e⟩ <;> cases e.symm.trans h

theorem exec_answers {i : Instr} {s : State} (h : ¬ IllFormed i s) : ∃ u, exec i s = .next u :=
  (exec_answers_or_refuses i s).resolve_right fun hr => h hr.1

/-! ## Free values -/

/-- An expiry draws a free value for a header cursor beyond the header or for a byte that `WBUF` has not, and for
nothing else. -/
theorem expiry_free {now : Time} {s : State} (hheader : s.wr.state = .sh → s.wr.bitCursor.toNat < hdrBits)
    (hbyte : s.wr.state = .sd → s.wr.txPending = true → s.wbuf.read s.wr.byteCursor.toNat ≠ none) :
    (expiry now s).free = s.free := by
  rcases expiry_cases now s with ⟨-, e⟩ | ⟨hgate, ⟨hsh, e⟩ | ⟨hsd, e⟩ | ⟨-, e⟩⟩ <;> rw [e]
  · rfl
  · have hin : (emitPulse now (fireTimer s)).wr.bitCursor.toNat < hdrBits := hheader hsh
    simp only [expirySh, drawIfBeyondHeader, if_pos hin]
    rfl
  · have hpending : s.wr.txPending = true := (Bool.and_eq_true_iff.1 hgate).2
    obtain ⟨v, hv⟩ := Option.ne_none_iff_exists'.1 (hbyte hsd hpending)
    have hread : (emitPulse now (fireTimer s)).wbuf.read s.wr.byteCursor.toNat = some v := hv
    simp only [expirySd, emitPulse_wr, fireTimer_wr, fetchWbuf_of_read hread]
    rfl
  · rfl

theorem pulse_free (t : Time) (s : State) : (pulse t s).free = s.free := (pulse_frame t s).1.free

theorem feed_free (t : Time) (gaps : List Time) (s : State) : (feed t gaps s).free = s.free :=
  feed_induct (P := fun u => u.free = s.free) (fun t u hu => (pulse_free t u).trans hu) rfl

theorem starts_free (now : Time) (s : State) : (writerStart now (readerStart now s)).free = s.free := by
  obtain ⟨r, hr⟩ := readerStart_eq now s
  obtain ⟨w, hw⟩ := writerStart_eq now (readerStart now s)
  rw [hw, hr]
  rfl

theorem service_free (s : State) : (serviceSent (serviceReceived (serviceLost s))).free = s.free :=
  service_induct (P := fun u => u.free = s.free) (fun _ _ hu => hu) (fun _ hu => hu) rfl

/-- No instruction but an expiry can draw a free value. -/
theorem exec_free {i : Instr} {s u : State} (hi : ∀ now, i ≠ .wrExpiry now) (h : exec i s = .next u) :
    u.free = s.free := by
  cases i with
  | wrExpiry now => exact absurd rfl (hi now)
  | rdStart now =>
    cases h
    obtain ⟨r, hr⟩ := readerStart_eq now s
    rw [hr]
    rfl
  | wrStart now =>
    cases h
    obtain ⟨w, hw⟩ := writerStart_eq now s
    rw [hw]
    rfl
  | lkStart now =>
    rcases execLkStart_cases now s with ⟨-, e⟩ | ⟨-, p, rfl, e⟩ <;> cases e.symm.trans h
    · rfl
    · exact starts_free now s
  | rdWatchdog now => rcases execRdWatchdog_cases now s with e | e <;> cases e.symm.trans h <;> rfl
  | wrSend buffer length now =>
    rcases execWrSend_cases buffer length now s with ⟨-, e⟩ | ⟨-, e⟩ | e <;> cases e.symm.trans h <;> rfl
  | lkSend buffer length now =>
    rcases execLkSend_cases buffer length now s with ⟨-, e⟩ | ⟨-, e⟩ | e <;> cases e.symm.trans h <;> rfl
  | lkService => cases h; exact service_free s
  | rdPulse t => cases h; exact pulse_free t s
  | symZero => cases h; exact pulse_free _ s
  | symOne => cases h; exact pulse_free _ s
  | symPreamble => cases h; exact pulse_free _ s
  | symInvalid d =>
    rcases execSymInvalid_cases d s with ⟨-, e⟩ | ⟨-, e⟩ <;> cases e.symm.trans h
    exact pulse_free _ s
  | frame t bytes =>
    rcases execFrame_cases t bytes s with e | ⟨-, e⟩ <;> cases e.symm.trans h
    exact feed_free t _ s
  | _ => cases h; rfl

/-- Under the invariants of 10 R44 an expiry finds its header bit and its byte (items 3, 4 and 7; 20 R64). -/
theorem expiry_free_of_linkInv {now : Time} {s : State} (hs : LinkInv s) :
    (expiry now s).free = s.free := by
  obtain ⟨⟨-, -, -, -, -, -, hcursor⟩, -, -, hheader, hsupplied⟩ := hs
  refine expiry_free (fun hsh => ?_) (fun hsd hpending => hsupplied hpending _ (hcursor hsd))
  obtain ⟨-, hbit, -⟩ := hheader hsh
  exact hbit

end Sys2Proof.Machine
end

section
/-! CERTIFICATE. Operations are total (00 R16). -/

open Sys2Proof Sys2Proof.Machine

/-- Settles O59: the operations that can stop by their cases, and the open values by what draws one. -/
theorem operationsAreTotal : Obligations.OperationsAreTotal := by
  unfold Obligations.OperationsAreTotal
  refine ⟨fun i s => ⟨exec_ne_fault i s, fun hwell => exec_answers ?wellFormed⟩, fun i s u _ hs h => ?free⟩
  case wellFormed =>
    cases i with
    | wrSend buffer length now => exact Nat.not_lt.2 hwell
    | lkSend buffer length now => exact Nat.not_lt.2 hwell
    | symInvalid d => exact not_not.2 hwell
    | frame t bytes => exact not_not.2 hwell
    | _ => exact not_false
  case free =>
    by_cases hexpiry : ∃ now, i = .wrExpiry now
    · obtain ⟨now, rfl⟩ := hexpiry
      cases h
      exact expiry_free_of_linkInv hs
    · exact exec_free (fun now hi => hexpiry ⟨now, hi⟩) h

end

section
/-! SUPPORT. The stamps a device keeps of a host's clock (60 R194): which operations write them, and with what. -/

namespace Sys2Proof.Machine

open Sys2Proof

/-! ## Pulses -/

/-- What a decoding Reader does with the stamps of a pulse it hears: the pulse is its last time; as a candidate it
is the start too, otherwise the start stays (41 R111 to R114, R117). -/
def Hears (t : Time) (s u : State) : Prop :=
  u.rd.lastTs = time s.cfg t ∧ u.rd.startTs = if u.rd.state = .ape then time s.cfg t else s.rd.startTs

theorem hears_of_candidate {t : Time} {s u : State} (hstate : u.rd.state = .ape)
    (hstart : u.rd.startTs = time s.cfg t) (hlast : u.rd.lastTs = time s.cfg t) : Hears t s u :=
  ⟨hlast, by rw [hstart, if_pos hstate]⟩

theorem hears_of_accepted {t : Time} {s u : State} (hstate : u.rd.state ≠ .ape)
    (hstart : u.rd.startTs = s.rd.startTs) (hlast : u.rd.lastTs = time s.cfg t) : Hears t s u :=
  ⟨hlast, by rw [hstart, if_neg hstate]⟩

theorem resync_hears (t : Time) (s : State) : Hears t s (resync t s) := hears_of_candidate rfl rfl rfl

theorem pulseApe_hears (t : Time) (s : State) : Hears t s (pulseApe t s) := by
  unfold pulseApe
  split
  · exact hears_of_accepted nofun rfl rfl
  · exact resync_hears t s

theorem acceptHeaderBit_hears (b : Bool) {t : Time} {s : State} (hs : s.rd.state = .ahe) :
    Hears t s (acceptHeaderBit b t s) := by
  unfold acceptHeaderBit
  dsimp only
  split
  · split
    · exact resync_hears t s
    · exact hears_of_accepted nofun rfl rfl
  · exact hears_of_accepted (by simp [hs]) rfl rfl

theorem finishByte_hears {t : Time} {s : State} (hs : s.rd.state = .adb) : Hears t s (finishByte t s) := by
  unfold finishByte
  split
  · exact hears_of_accepted nofun rfl rfl
  · exact hears_of_accepted (by simp [hs]) rfl rfl

theorem acceptDataBit_hears (b : Bool) {t : Time} {s : State} (hs : s.rd.state = .adb) :
    Hears t s (acceptDataBit b t s) := by
  rcases acceptDataBit_cases b t s with ⟨-, e⟩ | ⟨-, e⟩ <;> rw [e]
  · have hstored := finishByte_hears (t := t)
      (s := storeRbuf s.rd.byteCursor.toNat (accumulate s.rd.asm b) s) (by simpa using hs)
    simpa only [Hears, storeRbuf_cfg, storeRbuf_rd] using hstored
  · exact hears_of_accepted (by simp [hs]) rfl rfl

theorem pulse_hears {t : Time} {s : State} (hs : Decoding s) : Hears t s (pulse t s) := by
  rcases pulse_cases t s with ⟨-, e⟩ | ⟨-, e⟩ | ⟨hahe, e⟩ | ⟨-, -, e⟩ | ⟨hadb, b, -, e⟩ | ⟨hignored, -⟩
  · rw [e]; exact resync_hears t s
  · rw [e]; exact pulseApe_hears t s
  · rw [e]
    unfold pulseAhe
    split
    · exact resync_hears t s
    · exact acceptHeaderBit_hears _ hahe
  · rw [e]; exact resync_hears t (raise (.lost s.rd.startTs) s)
  · rw [e]; exact acceptDataBit_hears b hadb
  · rcases hs with h | h | h | h <;> simp [h] at hignored

/-- The host's readings after a pulse that a decoding Reader hears. -/
theorem hear_of_decoding {t : Time} {g : Readings} {s : State} (hs : Decoding s) :
    g.hear t s =
      { g with latest := t, last := t, start := if (pulse t s).rd.state = .ape then t else g.start } := by
  unfold Readings.hear
  rcases hs with h | h | h | h <;> rw [h]

/-- The host's readings after a pulse that the Reader ignores (41 R115). -/
theorem hear_of_ignoring {t : Time} {g : Readings} {s : State}
    (hs : s.rd.state = .idle ∨ s.rd.state = .ac ∨ s.rd.state = .bl ∨ s.rd.state = .blp) :
    g.hear t s = { g with latest := t } := by
  unfold Readings.hear
  rcases hs with h | h | h | h <;> rw [h]

theorem decoding_or_ignoring (s : State) :
    Decoding s ∨ s.rd.state = .idle ∨ s.rd.state = .ac ∨ s.rd.state = .bl ∨ s.rd.state = .blp := by
  unfold Decoding
  cases s.rd.state <;> simp

theorem pulse_stampsRead {g : Readings} {s : State} (t : Time) (hg : StampsRead g s) :
    StampsRead (g.hear t s) (pulse t s) := by
  rcases decoding_or_ignoring s with hs | hs
  · obtain ⟨hstart, -, hcompletion⟩ := hg
    obtain ⟨hlast', hstart'⟩ := pulse_hears (t := t) hs
    obtain ⟨hwriter, hrest⟩ := pulse_frame t s
    rw [hear_of_decoding hs]
    refine ⟨?start, ?last, ?completion⟩
    case start =>
      rw [hrest.cfg, hstart', ← hstart]
      exact apply_ite (time s.cfg) _ _ _
    case last => rw [hrest.cfg, hlast']
    case completion => rw [hrest.cfg, hwriter.wr, ← hcompletion]
  · rw [hear_of_ignoring hs, pulse_ignored hs]
    exact hg

theorem feed_stampsRead {g : Readings} {s : State} {t : Time} {gaps : List Time} (hg : StampsRead g s) :
    StampsRead (g.feed t gaps s) (feed t gaps s) := by
  induction gaps generalizing t g s with
  | nil => exact pulse_stampsRead t hg
  | cons d rest ih => exact ih (pulse_stampsRead t hg)

/-- A wire symbol's pulse stands its interval after the reading behind `rd.last_ts` (log 20). -/
theorem closeInterval_stampsRead {g : Readings} {s : State} (d : Time) (hg : StampsRead g s) :
    StampsRead (g.hear (g.last + d) s) (closeInterval d s) := by
  obtain ⟨-, hlast, -⟩ := id hg
  have hread : time s.cfg s.rd.lastTs = time s.cfg g.last := by rw [← hlast, time_time]
  rw [closeInterval_eq, pulse_congr (time_add_congr hread d)]
  exact pulse_stampsRead _ hg

/-! ## Expiries and starts -/

theorem readerStart_stampsRead {g : Readings} {s : State} (now : Time) (hg : StampsRead g s) :
    StampsRead { g with latest := now, last := if s.rd.state = .idle then now else g.last }
      (readerStart now s) := by
  obtain ⟨hstart, hlast, hcompletion⟩ := id hg
  by_cases hidle : s.rd.state = .idle
  · simp only [readerStart, hidle, if_true]
    exact ⟨hstart, rfl, hcompletion⟩
  · have hsame : readerStart now s = s := by
      unfold readerStart
      split
      · exact absurd ‹_› hidle
      · rfl
    rw [hsame, if_neg hidle]
    exact hg

theorem writerStart_stampsRead {g : Readings} {s : State} (now : Time) (hg : StampsRead g s) :
    StampsRead { g with latest := now, completion := if s.wr.active then g.completion else now }
      (writerStart now s) := by
  obtain ⟨hstart, hlast, hcompletion⟩ := id hg
  unfold writerStart
  split
  · exact hg
  · exact ⟨hstart, hlast, rfl⟩

/-- A start of the Reader leaves the Writer alone. -/
theorem readerStart_wr (now : Time) (s : State) : (readerStart now s).wr = s.wr := by
  obtain ⟨r, hr⟩ := readerStart_eq now s
  rw [hr]
  rfl

theorem lkStart_stampsRead {g : Readings} {s u : State} {now : Time} (hg : StampsRead g s)
    (h : exec (.lkStart now) s = .next u) : StampsRead (g.after (.lkStart now) s) u := by
  rcases execLkStart_cases now s with ⟨hstarted, e⟩ | ⟨-, p, rfl, e⟩ <;> cases e.symm.trans h
  · have hkept : s.wr.active = true ∧ s.rd.state ≠ .idle := by simpa [linkStarted] using hstarted
    obtain ⟨hactive, hrunning⟩ := hkept
    simp only [Readings.after, if_pos hactive, if_neg hrunning]
    exact hg
  · have hstarts := writerStart_stampsRead now (readerStart_stampsRead now hg)
    rw [readerStart_wr] at hstarts
    exact hstarts

/-- An expiry stamps the completion of a send, and otherwise leaves that stamp (42 R145). -/
theorem expiry_lastCompletionTs (now : Time) (s : State) :
    (expiry now s).wr.lastCompletionTs =
      if s.wr.active && s.wr.txPending && s.wr.state == .idle then time s.cfg now
      else s.wr.lastCompletionTs := by
  rcases expiry_cases now s with ⟨hgate, e⟩ | ⟨hgate, ⟨hsh, e⟩ | ⟨hsd, e⟩ | ⟨hidle, e⟩⟩ <;> rw [e, hgate]
  · rfl
  · rw [hsh]
    simp only [expirySh, State.setWr_wr]
    split <;> rfl
  · rw [hsd]
    simp only [expirySd, State.setWr_wr, advanceData]
    split <;> rfl
  · rw [hidle]
    rfl

theorem expiry_stampsRead {g : Readings} {s : State} (now : Time) (hg : StampsRead g s) :
    StampsRead (g.after (.wrExpiry now) s) (expiry now s) := by
  obtain ⟨hstart, hlast, hcompletion⟩ := hg
  obtain ⟨hreader, hrest, -⟩ := expiry_frame now s
  refine ⟨?start, ?last, ?completion⟩
  case start => rw [hrest.cfg, hreader.rd]; exact hstart
  case last => rw [hrest.cfg, hreader.rd]; exact hlast
  case completion =>
    rw [hrest.cfg, expiry_lastCompletionTs, ← hcompletion]
    exact apply_ite (time s.cfg) _ _ _

/-! ## Every instruction -/

/-- Every instruction leaves the stamps that `Readings.after` says, whatever the clock does. -/
theorem exec_stampsRead {g : Readings} {i : Instr} {s u : State} (hg : StampsRead g s)
    (h : exec i s = .next u) : StampsRead (g.after i s) u := by
  cases i with
  | rdPulse t => cases h; exact pulse_stampsRead t hg
  | symZero => cases h; exact closeInterval_stampsRead _ hg
  | symOne => cases h; exact closeInterval_stampsRead _ hg
  | symPreamble => cases h; exact closeInterval_stampsRead _ hg
  | symInvalid d =>
    rcases execSymInvalid_cases d s with ⟨-, e⟩ | ⟨-, e⟩ <;> cases e.symm.trans h
    exact closeInterval_stampsRead _ hg
  | frame t bytes =>
    rcases execFrame_cases t bytes s with e | ⟨-, e⟩ <;> cases e.symm.trans h
    exact feed_stampsRead hg
  | rdStart now => cases h; exact readerStart_stampsRead now hg
  | wrStart now => cases h; exact writerStart_stampsRead now hg
  | lkStart now => exact lkStart_stampsRead hg h
  | wrExpiry now => cases h; exact expiry_stampsRead now hg
  | rdWatchdog now => rcases execRdWatchdog_cases now s with e | e <;> cases e.symm.trans h <;> exact hg
  | wrSend buffer length now =>
    rcases execWrSend_cases buffer length now s with ⟨-, e⟩ | ⟨-, e⟩ | e <;> cases e.symm.trans h <;> exact hg
  | lkSend buffer length now =>
    rcases execLkSend_cases buffer length now s with ⟨-, e⟩ | ⟨-, e⟩ | e <;> cases e.symm.trans h <;> exact hg
  | lkService =>
    cases h
    exact service_induct (P := StampsRead _) (fun _ _ hu => hu) (fun _ hu => hu) hg
  | _ => cases h; exact hg

end Sys2Proof.Machine
end

section
/-! CERTIFICATE. Differences of times (00 R11, 60 R194). -/

open Sys2Proof Sys2Proof.Machine

/-- Settles O5: the two forms of the difference, then a stamp read as the reading behind it. -/
theorem elapsedIsModularDifference : Obligations.ElapsedIsModularDifference := by
  unfold Obligations.ElapsedIsModularDifference
  refine ⟨fun c a b ha hb => ?modular, fun c a b hle hlt => ?truth,
    fun g i first last s hg hclock hspan => ?host⟩
  case modular =>
    split
    · next hle => exact elapsed_eq_sub hle (hb.trans_le (Nat.le_add_left _ _))
    · next hgt => exact elapsed_eq_sub_of_wrap ha (Nat.lt_of_not_le hgt)
  case truth => rw [elapsed_time_left, elapsed_time_right, elapsed_eq_sub hle hlt]
  case host =>
    obtain ⟨hstart, hlast, hcompletion⟩ := id hg
    obtain ⟨-, hnear⟩ := hclock first last hspan
    have htrue {r stamp : Time} (hr : r ∈ comparedReadings i s g) (hstamp : time s.cfg r = stamp) :
        elapsed s.cfg stamp first = first - r :=
      have ⟨hle, hlt⟩ := hnear r hr
      elapsed_stamp hstamp hle hlt
    exact ⟨(htrue · hlast), (htrue · hstart), (htrue · hcompletion), fun u => exec_stampsRead hg⟩

end

section
/-! SUPPORT. What a pulse does to the Reader's control state (10 R22, 41 R110 to R117, R126), and the instructions
that reach the Reader as pulses. -/

namespace Sys2Proof.Machine

open Sys2Proof

/-! ## The steps of a packet -/

/-- Everything an accepted header bit can do (41 R113): one more bit; or the sixth, with a length beyond
`CAPACITY` that resynchronises, or one that the data then follow. -/
theorem acceptHeaderBit_cases (b : Bool) (t : Time) (s : State) :
    (s.rd.bitCursor.toNat + 1 ≠ hdrBits ∧
      acceptHeaderBit b t s = s.setRd { s.rd with asm := accumulate s.rd.asm b,
                                                  bitCursor := s.rd.bitCursor + 1,
                                                  lastTs := time s.cfg t }) ∨
    acceptHeaderBit b t s = resync t s ∨
    ∃ len : BitVec 7, 1 ≤ len.toNat ∧ len.toNat ≤ s.cfg.capacity ∧
      acceptHeaderBit b t s = s.setRd { s.rd with length := len, bitCursor := 0, asm := 0,
                                                  lastTs := time s.cfg t, state := .adb } := by
  unfold acceptHeaderBit
  dsimp only
  split
  · split
    · exact .inr (.inl rfl)
    · next hfits => exact .inr (.inr ⟨_, by bv_omega, Nat.not_lt.1 hfits, rfl⟩)
  · exact .inl ⟨‹_›, rfl⟩

/-- Everything a completed byte can do (41 R114): complete the packet, or leave the next byte to come. -/
theorem finishByte_cases (t : Time) (s : State) :
    (s.rd.byteCursor.toNat + 1 = s.rd.length.toNat ∧
      finishByte t s = raise (.received s.rd.startTs s.rd.length)
        (s.setRd { s.rd with byteCursor := s.rd.byteCursor + 1, bitCursor := 0, asm := 0,
                             lastTs := time s.cfg t, state := .ac })) ∨
    (s.rd.byteCursor.toNat + 1 ≠ s.rd.length.toNat ∧
      finishByte t s = s.setRd { s.rd with byteCursor := s.rd.byteCursor + 1, bitCursor := 0, asm := 0,
                                           lastTs := time s.cfg t }) := by
  unfold finishByte
  split
  · exact .inl ⟨‹_›, rfl⟩
  · exact .inr ⟨‹_›, rfl⟩

/-! ## The control state -/

/-- A Reader that decodes goes on decoding or holds the packet (41 R127 item 5). -/
theorem pulse_decoding {t : Time} {s : State} (hs : Decoding s) :
    Decoding (pulse t s) ∨ (pulse t s).rd.state = .ac := by
  have candidate : ∀ u : State, Decoding (resync t u) := fun _ => .inr (.inl rfl)
  rcases pulse_cases t s with ⟨-, e⟩ | ⟨-, e⟩ | ⟨hahe, e⟩ | ⟨-, -, e⟩ | ⟨hadb, b, -, e⟩ | ⟨-, e⟩ <;> rw [e]
  · exact .inl (candidate s)
  · unfold pulseApe
    split
    · exact .inl (.inr (.inr (.inl rfl)))
    · exact .inl (candidate s)
  · unfold pulseAhe
    split
    · exact .inl (candidate s)
    · next b _ =>
      rcases acceptHeaderBit_cases b t s with ⟨-, e⟩ | e | ⟨len, -, -, e⟩ <;> rw [e]
      · exact .inl (.inr (.inr (.inl hahe)))
      · exact .inl (candidate s)
      · exact .inl (.inr (.inr (.inr rfl)))
  · exact .inl (candidate _)
  · rcases acceptDataBit_cases b t s with ⟨-, e⟩ | ⟨-, e⟩ <;> rw [e]
    · rcases finishByte_cases t (storeRbuf s.rd.byteCursor.toNat (accumulate s.rd.asm b) s) with
        ⟨-, e⟩ | ⟨-, e⟩ <;> rw [e]
      · exact .inr rfl
      · exact .inl (.inr (.inr (.inr (by simpa using hadb))))
    · exact .inl (.inr (.inr (.inr hadb)))
  · exact .inl hs

/-- No pulse stops the Reader, and none starts it (10 R22). -/
theorem pulse_idle_iff (t : Time) (s : State) : (pulse t s).rd.state = .idle ↔ s.rd.state = .idle := by
  rcases decoding_or_ignoring s with hs | hs
  · have running : ∀ u : State, Decoding u → u.rd.state ≠ .idle := by
      rintro u (h | h | h | h) <;> simp [h]
    refine iff_of_false ?_ (running s hs)
    rcases pulse_decoding (t := t) hs with h | h
    · exact running _ h
    · simp [h]
  · rw [pulse_ignored hs]

/-- The table of `RD.RESTORE` (41 R119): as it was, decoding, blanked, or again holding the packet. -/
theorem restoreNext_cases (blankLevel : Bool) (st : RdState) :
    restoreNext blankLevel st = st ∨ (st ≠ .idle ∧ restoreNext blankLevel st = .bl) ∨
    (blankLevel = false ∧ st ≠ .idle ∧
      (restoreNext blankLevel st = .aps ∨ (st = .blp ∧ restoreNext blankLevel st = .ac))) := by
  unfold restoreNext
  split <;> simp

/-- The table of `RD.BLANK` (41 R120): a stopped Reader stays so, one that holds a packet keeps it, every other
is blanked. -/
theorem blankNext_cases (st : RdState) :
    (st = .idle ∧ blankNext st = .idle) ∨ (st ≠ .idle ∧ blankNext st = .bl) ∨
    ((st = .ac ∨ st = .blp) ∧ blankNext st = .blp) := by
  unfold blankNext
  split <;> simp

/-- A restore leaves a Reader stopped or running (10 R22). -/
theorem restoreNext_idle_iff (blankLevel : Bool) (st : RdState) :
    restoreNext blankLevel st = .idle ↔ st = .idle := by
  rcases restoreNext_cases blankLevel st with e | ⟨h, e⟩ | ⟨-, h, e | ⟨-, e⟩⟩ <;> rw [e]
  all_goals simp [h]

/-- Blanking leaves a Reader stopped or running (10 R22). -/
theorem blankNext_idle_iff (st : RdState) : blankNext st = .idle ↔ st = .idle := by
  rcases blankNext_cases st with ⟨h, e⟩ | ⟨h, e⟩ | ⟨h, e⟩ <;> rw [e]
  · simp [h]
  · simp [h]
  · rcases h with rfl | rfl <;> simp

/-- Blanking blanks every Reader that runs (41 R120). -/
theorem blankNext_blanked {st : RdState} (hst : st ≠ .idle) : blankNext st = .bl ∨ blankNext st = .blp := by
  rcases blankNext_cases st with ⟨h, -⟩ | ⟨-, e⟩ | ⟨-, e⟩
  · exact absurd h hst
  · exact .inl e
  · exact .inr e

/-- Both starts of a device whose Reader and Writer are stopped (41 R124, 42 R146). -/
theorem starts_of_stopped (now : Time) {s : State} (hidle : s.rd.state = .idle) (hinactive : s.wr.active = false) :
    writerStart now (readerStart now s) =
      (s.setRd { s.rd with lastTs := time s.cfg now, state := .aps }).setWr
        { s.wr with active := true, state := .idle, txPending := false, lastCompletionTs := time s.cfg now } := by
  simp [readerStart, writerStart, hidle, hinactive]

/-! ## Answers with the conditions they need -/

/-- What a watchdog that answers did (41 R122): only a packet in its data is lost. -/
theorem execRdWatchdog_next {now : Time} {s u : State} (h : exec (.rdWatchdog now) s = .next u) :
    (s.rd.state = .adb ∧ u = (raise (.lost s.rd.startTs) s).setRd { s.rd with state := .aps }) ∨ u = s := by
  simp only [exec, execRdWatchdog] at h
  split at h
  · split at h <;> cases h
    · exact .inl ⟨‹_›, rfl⟩
    · exact .inr rfl
  · cases h
    exact .inr rfl

theorem sendAcceptable_iff (length : Nat) (s : State) :
    sendAcceptable length s = true ↔
      s.wr.active = true ∧ 1 ≤ length ∧ length ≤ s.cfg.capacity ∧ s.wr.txPending = false := by
  simp [sendAcceptable, and_assoc]

/-- What an `LK.SEND` that answers did (43 R161): an acceptable send after blanking, or nothing but fail. -/
theorem execLkSend_next {buffer : List Byte} {length : Nat} {now : Time} {s u : State}
    (h : exec (.lkSend buffer length now) s = .next u) :
    (sendAcceptable length s = true ∧ length ≤ buffer.length ∧
      u = (acceptSend buffer length now (blank (s.setTxBlank true))).emit [.retSend true]) ∨
    u = s.emit [.retSend false] := by
  simp only [exec, execLkSend] at h
  split at h
  · split at h <;> cases h
    exact .inl ⟨‹_›, ‹_›, rfl⟩
  · cases h
    exact .inr rfl

/-! ## Instructions that are pulses -/

/-- The instructions that reach the Reader as pulses and as nothing else (30 R80, R82; log 13, 15). -/
def deliversPulses (i : Instr) : Bool :=
  match i with
  | .rdPulse _ => true
  | .symZero => true
  | .symOne => true
  | .symPreamble => true
  | .symInvalid _ => true
  | .frame _ _ => true
  | _ => false

/-- What every pulse keeps, an instruction that delivers pulses keeps. -/
theorem exec_pulses_induct {P : State → Prop} (hp : ∀ t s, P s → P (pulse t s)) {i : Instr} {s u : State}
    (hi : deliversPulses i = true) (h : exec i s = .next u) (hs : P s) : P u := by
  cases i with
  | rdPulse t => cases h; exact hp t s hs
  | symZero => cases h; exact hp _ s hs
  | symOne => cases h; exact hp _ s hs
  | symPreamble => cases h; exact hp _ s hs
  | symInvalid d =>
    rcases execSymInvalid_cases d s with ⟨-, e⟩ | ⟨-, e⟩ <;> cases e.symm.trans h
    exact hp _ s hs
  | frame t bytes =>
    rcases execFrame_cases t bytes s with e | ⟨-, e⟩ <;> cases e.symm.trans h
    exact feed_induct hp hs
  | _ => cases hi

/-- What calling an observer and step 3 iii of 43 R162 keep, `LK.SERVICE` keeps. -/
theorem service_induct_endBlanking {P : State → Prop} (hconsume : ∀ g s, P s → P (consume g s))
    (hend : ∀ s, P s → P (endBlanking s)) {s : State} (hs : P s) :
    P (serviceSent (serviceReceived (serviceLost s))) := by
  have hlost : P (serviceLost s) := by
    unfold serviceLost
    split
    · exact hconsume _ s hs
    · exact hs
  have hreceived : P (serviceReceived (serviceLost s)) := by
    unfold serviceReceived
    split
    · exact hconsume _ _ hlost
    · exact hlost
  unfold serviceSent
  split
  · exact hconsume _ _ (hend _ hreceived)
  · exact hreceived

end Sys2Proof.Machine
end

section
/-! SUPPORT. The invariants of a device driven through the Arbiter (10 R44), by who answers for them: the Reader
alone, the Writer with its timer and buffer, and the Arbiter that couples their control states. -/

namespace Sys2Proof.Machine

open Sys2Proof

/-! ## The invariants by unit -/

/-- Item 6 of 10 R44 and the cursors of a header: what the Reader's fields satisfy. -/
structure ReaderInv (c : Cfg) (r : Reader) : Prop where
  data : r.state = .adb →
    1 ≤ r.length.toNat ∧ r.length.toNat ≤ c.capacity ∧ r.byteCursor.toNat < r.length.toNat
  held : r.state = .ac ∨ r.state = .blp → r.byteCursor = r.length
  header : r.state = .ahe → r.byteCursor = 0 ∧ r.bitCursor.toNat < hdrBits

/-- Items 4, 5 and 7 of 10 R44 and their support: what the Writer's fields, its timer and `WBUF` satisfy. -/
structure WriterInv (w : Writer) (armed : Bool) (buffer : Memory) : Prop where
  busy : w.state = .sh ∨ w.state = .sd → w.txPending = true
  timer : w.txPending = true ↔ armed = true
  data : w.state = .sd → w.byteCursor.toNat < w.length.toNat
  header : w.state = .sh → w.byteCursor = 0 ∧ w.bitCursor.toNat < hdrBits ∧ 1 ≤ w.length.toNat
  supplied : w.txPending = true → ∀ i < w.length.toNat, buffer.read i ≠ none

/-- Items 1 to 3 of 10 R44: the Reader's control state, the Writer's flags and the Arbiter's bit agree. -/
structure Coupled (st : RdState) (w : Writer) (txBlank : Bool) : Prop where
  stopped : st = .idle ↔ w.active = false
  blanked : txBlank = true → st = .bl ∨ st = .blp
  sending : w.txPending = true → txBlank = true ∧ w.active = true

/-- The capacity of 00 R9 and the three units' invariants. -/
abbrev UnitInvariants (s : State) : Prop :=
  (1 ≤ s.cfg.capacity ∧ s.cfg.capacity ≤ 2 ^ hdrBits) ∧ ReaderInv s.cfg s.rd ∧
    WriterInv s.wr s.tmr.armed s.wbuf ∧ Coupled s.rd.state s.wr s.txBlank

/-- The invariant of the model is the units' invariants together. -/
theorem linkInv_iff (s : State) : LinkInv s ↔ UnitInvariants s := by
  constructor
  · rintro ⟨⟨stopped, blanked, sending, busy, timer, ⟨rdata, held⟩, wdata⟩, cap, rheader, wheader, supplied⟩
    exact ⟨cap, ⟨rdata, held, rheader⟩, ⟨busy, timer, wdata, wheader, supplied⟩, stopped, blanked, sending⟩
  · rintro ⟨cap, ⟨rdata, held, rheader⟩, ⟨busy, timer, wdata, wheader, supplied⟩, stopped, blanked, sending⟩
    exact ⟨⟨stopped, blanked, sending, busy, timer, ⟨rdata, held⟩, wdata⟩, cap, rheader, wheader, supplied⟩

/-! ## The Reader -/

section

variable {c : Cfg} {r : Reader}

/-- A Reader that is stopped, blanked with no packet or at a preamble owes nothing. -/
theorem readerInv_of_no_packet
    (h : r.state = .idle ∨ r.state = .bl ∨ r.state = .aps ∨ r.state = .ape) : ReaderInv c r := by
  rcases h with h | h | h | h <;> exact ⟨by simp [h], by simp [h], by simp [h]⟩

/-- A Reader that goes on holding its packet keeps its invariant. -/
theorem ReaderInv.keep_packet (h : ReaderInv c r) (hr : r.state = .ac ∨ r.state = .blp) {st : RdState}
    (hst : st = .ac ∨ st = .blp) : ReaderInv c { r with state := st } :=
  ⟨by rcases hst with rfl | rfl <;> nofun, fun _ => h.held hr, by rcases hst with rfl | rfl <;> nofun⟩

theorem ReaderInv.restore (h : ReaderInv c r) (blankLevel : Bool) :
    ReaderInv c { r with state := restoreNext blankLevel r.state } := by
  rcases restoreNext_cases blankLevel r.state with e | ⟨-, e⟩ | ⟨-, -, e | ⟨hblp, e⟩⟩ <;> rw [e]
  · exact h
  · exact readerInv_of_no_packet (.inr (.inl rfl))
  · exact readerInv_of_no_packet (.inr (.inr (.inl rfl)))
  · exact h.keep_packet (.inr hblp) (.inl rfl)

theorem ReaderInv.blank (h : ReaderInv c r) : ReaderInv c { r with state := blankNext r.state } := by
  rcases blankNext_cases r.state with ⟨-, e⟩ | ⟨-, e⟩ | ⟨hheld, e⟩ <;> rw [e]
  · exact readerInv_of_no_packet (.inl rfl)
  · exact readerInv_of_no_packet (.inr (.inl rfl))
  · exact h.keep_packet hheld (.inr rfl)

end

section

variable {s : State}

theorem resync_readerInv (c : Cfg) (t : Time) (s : State) : ReaderInv c (resync t s).rd :=
  readerInv_of_no_packet (.inr (.inr (.inr rfl)))

theorem pulseApe_readerInv (c : Cfg) (t : Time) (s : State) : ReaderInv c (pulseApe t s).rd := by
  unfold pulseApe
  split
  · exact ⟨nofun, by simp, fun _ => ⟨rfl, Nat.succ_pos 5⟩⟩
  · exact resync_readerInv c t s

theorem ReaderInv.acceptHeaderBit (h : ReaderInv s.cfg s.rd) (hahe : s.rd.state = .ahe) (b : Bool) (t : Time) :
    ReaderInv s.cfg (acceptHeaderBit b t s).rd := by
  obtain ⟨hbyte, hbit⟩ := h.header hahe
  rcases acceptHeaderBit_cases b t s with ⟨hmore, e⟩ | e | ⟨len, hpos, hcap, e⟩ <;> rw [e]
  · exact ⟨by simp [hahe], by simp [hahe], fun _ => ⟨hbyte, by simp only [State.setRd_rd]; bv_omega⟩⟩
  · exact resync_readerInv _ t s
  · exact ⟨fun _ => ⟨hpos, hcap, by simp only [State.setRd_rd]; bv_omega⟩, by simp, nofun⟩

theorem ReaderInv.finishByte (h : ReaderInv s.cfg s.rd) (hadb : s.rd.state = .adb) (t : Time) :
    ReaderInv s.cfg (finishByte t s).rd := by
  obtain ⟨hpos, hcap, hcursor⟩ := h.data hadb
  rcases finishByte_cases t s with ⟨hlast, e⟩ | ⟨hmore, e⟩ <;> rw [e]
  · exact ⟨nofun, fun _ => by simp only [raise_rd, State.setRd_rd]; bv_omega, nofun⟩
  · exact ⟨fun _ => ⟨hpos, hcap, by simp only [State.setRd_rd]; bv_omega⟩, by simp [hadb], by simp [hadb]⟩

theorem ReaderInv.acceptDataBit (h : ReaderInv s.cfg s.rd) (hadb : s.rd.state = .adb) (b : Bool) (t : Time) :
    ReaderInv s.cfg (acceptDataBit b t s).rd := by
  rcases acceptDataBit_cases b t s with ⟨-, e⟩ | ⟨-, e⟩ <;> rw [e]
  · have hstored := ReaderInv.finishByte (s := storeRbuf s.rd.byteCursor.toNat (accumulate s.rd.asm b) s)
      (by simpa using h) (by simpa using hadb) t
    simpa using hstored
  · exact ⟨fun _ => h.data hadb, by simp [hadb], by simp [hadb]⟩

theorem ReaderInv.pulse (h : ReaderInv s.cfg s.rd) (t : Time) : ReaderInv s.cfg (pulse t s).rd := by
  rcases pulse_cases t s with ⟨-, e⟩ | ⟨-, e⟩ | ⟨hahe, e⟩ | ⟨-, -, e⟩ | ⟨hadb, b, -, e⟩ | ⟨-, e⟩ <;> rw [e]
  · exact resync_readerInv _ t s
  · exact pulseApe_readerInv _ t s
  · unfold pulseAhe
    split
    · exact resync_readerInv _ t s
    · exact h.acceptHeaderBit hahe _ t
  · exact resync_readerInv _ t _
  · exact h.acceptDataBit hadb b t
  · exact h

end

/-! ## The Writer -/

section

variable {w : Writer} {armed : Bool} {m : Memory}

/-- A Writer with no send pending owes nothing but a disarmed timer. -/
theorem writerInv_of_no_send (hstate : w.state = .idle) (hpending : w.txPending = false) :
    WriterInv w false m :=
  ⟨by simp [hstate], by simp [hpending], by simp [hstate], by simp [hstate], by simp [hpending]⟩

/-- Under its invariant a Writer with no send pending is idle (10 R44 item 4). -/
theorem WriterInv.idle_of_no_send (h : WriterInv w armed m) (hpending : w.txPending = false) :
    w.state = .idle := by
  cases hstate : w.state with
  | idle => rfl
  | sh => simp [h.busy (.inl hstate)] at hpending
  | sd => simp [h.busy (.inr hstate)] at hpending

/-- A header bit scheduled (42 R143): one more bit of the header, or the data with a byte to send. -/
theorem WriterInv.advanceHeader (h : WriterInv w armed m) (hsh : w.state = .sh) :
    WriterInv (if w.bitCursor.toNat + 1 = hdrBits then { w with bitCursor := 0, state := .sd }
      else { w with bitCursor := w.bitCursor + 1 }) true m := by
  obtain ⟨hbyte, hbit, hlength⟩ := h.header hsh
  have hpending := h.busy (.inl hsh)
  split
  · exact ⟨fun _ => hpending, by simp [hpending], fun _ => by simp only; bv_omega, nofun, h.supplied⟩
  · exact ⟨fun _ => hpending, by simp [hpending], by simp [hsh], fun _ => ⟨hbyte, by bv_omega, hlength⟩,
      h.supplied⟩

/-- A data bit scheduled (42 R144): more of the byte, a byte more, or the last bit of the packet. -/
theorem WriterInv.advanceData (h : WriterInv w armed m) (hsd : w.state = .sd) :
    WriterInv (advanceData w) true m := by
  have hcursor := h.data hsd
  have hpending := h.busy (.inr hsd)
  unfold Machine.advanceData
  split
  · by_cases hlast : w.byteCursor.toNat + 1 = w.length.toNat
    · simp only [hlast, if_true]
      exact ⟨fun _ => hpending, by simp [hpending], nofun, nofun, h.supplied⟩
    · simp only [hlast, if_false]
      exact ⟨fun _ => hpending, by simp [hpending], fun _ => by bv_omega, by simp [hsd], h.supplied⟩
  · exact ⟨fun _ => hpending, by simp [hpending], fun _ => hcursor, by simp [hsd], h.supplied⟩

end

/-- What an accepted send leaves of the Writer, its timer and `WBUF` (42 R140). -/
theorem acceptSend_writerInv {buffer : List Byte} {length : Nat} (now : Time) (s : State) (hpos : 1 ≤ length)
    (hbound : length ≤ 2 ^ hdrBits) (hbuffer : length ≤ buffer.length) :
    WriterInv (acceptSend buffer length now s).wr (acceptSend buffer length now s).tmr.armed
      (acceptSend buffer length now s).wbuf := by
  have hlength : (BitVec.ofNat 7 length).toNat = length := by
    rw [BitVec.toNat_ofNat, Nat.mod_eq_of_lt (hbound.trans_lt (by decide))]
  rw [acceptSend_eq]
  refine ⟨fun _ => rfl, by simp, nofun, fun _ => ⟨rfl, Nat.succ_pos 5, hlength.ge.trans' hpos⟩, ?_⟩
  intro _ i hi
  have hread := Memory.read_ofBytes buffer 0 i
  rw [Nat.zero_add] at hread
  simp only [hlength] at hi
  simp only [hread, ne_eq, List.getElem?_eq_none_iff]
  omega

/-! ## The coupling -/

section

variable {st st' : RdState} {w w' : Writer} {b : Bool}

/-- The Reader moves: it stays stopped or running, and blanked while the Arbiter blanks. -/
theorem Coupled.move (h : Coupled st w b) (hidle : st' = .idle ↔ st = .idle)
    (hblanked : b = true → st' = .bl ∨ st' = .blp) : Coupled st' w b :=
  ⟨hidle.trans h.stopped, hblanked, h.sending⟩

/-- The Arbiter ends its blanking with no send pending. -/
theorem Coupled.unblank (h : Coupled st w b) (hidle : st' = .idle ↔ st = .idle) (hpending : w.txPending = false) :
    Coupled st' w false :=
  ⟨hidle.trans h.stopped, nofun, by simp [hpending]⟩

/-- The Writer goes on with a send, or completes it. -/
theorem Coupled.write (h : Coupled st w b) (hactive : w'.active = w.active)
    (hpending : w'.txPending = true → w.txPending = true) : Coupled st w' b :=
  ⟨hactive ▸ h.stopped, h.blanked, fun hp => hactive ▸ h.sending (hpending hp)⟩

end

/-! ## The operations of the protocol -/

section

variable {s : State}

theorem UnitInvariants.pulse (h : UnitInvariants s) (t : Time) : UnitInvariants (pulse t s) := by
  obtain ⟨hcap, hreader, hwriter, hcoupled⟩ := h
  obtain ⟨hsame, hrest⟩ := pulse_frame t s
  unfold UnitInvariants
  rw [hrest.cfg, hrest.txBlank, hsame.wr, hsame.tmr, hsame.wbuf]
  refine ⟨hcap, hreader.pulse t, hwriter, hcoupled.move (pulse_idle_iff t s) fun hb => ?_⟩
  rw [pulse_ignored (.inr (.inr (hcoupled.blanked hb)))]
  exact hcoupled.blanked hb

/-- An expiry leaves the Writer active or not, and no send pending that was not before. -/
theorem expiry_flags (now : Time) (s : State) :
    (expiry now s).wr.active = s.wr.active ∧
      ((expiry now s).wr.txPending = true → s.wr.txPending = true) := by
  rcases expiry_cases now s with ⟨-, e⟩ | ⟨-, ⟨-, e⟩ | ⟨-, e⟩ | ⟨-, e⟩⟩ <;> rw [e]
  · exact ⟨rfl, id⟩
  · simp only [expirySh, State.setWr_wr]
    split <;> exact ⟨rfl, id⟩
  · simp only [expirySd, State.setWr_wr, advanceData]
    split <;> exact ⟨rfl, id⟩
  · exact ⟨rfl, nofun⟩

theorem WriterInv.expiry (h : WriterInv s.wr s.tmr.armed s.wbuf) (hactive : s.wr.txPending = true →
    s.wr.active = true) (now : Time) :
    WriterInv (expiry now s).wr (expiry now s).tmr.armed s.wbuf := by
  rcases expiry_cases now s with ⟨hgate, e⟩ | ⟨-, ⟨hsh, e⟩ | ⟨hsd, e⟩ | ⟨hidle, e⟩⟩ <;> rw [e]
  · have hpending : s.wr.txPending = false :=
      Bool.eq_false_iff.2 fun hp => by simp [hp, hactive hp] at hgate
    exact writerInv_of_no_send (h.idle_of_no_send hpending) hpending
  · exact h.advanceHeader hsh
  · exact h.advanceData hsd
  · exact writerInv_of_no_send hidle rfl

theorem UnitInvariants.expiry (h : UnitInvariants s) (now : Time) : UnitInvariants (expiry now s) := by
  obtain ⟨hcap, hreader, hwriter, hcoupled⟩ := h
  obtain ⟨hsame, hrest, hwbuf⟩ := expiry_frame now s
  obtain ⟨hactive, hpending⟩ := expiry_flags now s
  unfold UnitInvariants
  rw [hrest.cfg, hrest.txBlank, hsame.rd, hwbuf]
  exact ⟨hcap, hreader, hwriter.expiry (fun hp => (hcoupled.sending hp).2) now, hcoupled.write hactive hpending⟩

/-- The watchdog moves a Reader from the data to the preamble (41 R122). -/
theorem UnitInvariants.watchdog {now : Time} {u : State} (h : UnitInvariants s)
    (hu : exec (.rdWatchdog now) s = .next u) : UnitInvariants u := by
  rcases execRdWatchdog_next hu with ⟨hadb, rfl⟩ | rfl
  · obtain ⟨hcap, -, hwriter, hcoupled⟩ := h
    refine ⟨hcap, readerInv_of_no_packet (.inr (.inr (.inl rfl))), hwriter, hcoupled.move ?_ fun hb => ?_⟩
    · simp [hadb]
    · simpa [hadb] using hcoupled.blanked hb
  · exact h

theorem UnitInvariants.endBlanking (h : UnitInvariants s) : UnitInvariants (endBlanking s) := by
  unfold Machine.endBlanking
  split
  · exact h
  · next hpending =>
    obtain ⟨hcap, hreader, hwriter, hcoupled⟩ := h
    exact ⟨hcap, hreader.restore false, hwriter,
      hcoupled.unblank (restoreNext_idle_iff false _) (Bool.eq_false_iff.2 hpending)⟩

/-- A restore to the Arbiter's own level keeps a blanked Reader blanked (43 R163). -/
theorem UnitInvariants.restore (h : UnitInvariants s) : UnitInvariants (restore s.txBlank s) := by
  obtain ⟨hcap, hreader, hwriter, hcoupled⟩ := h
  refine ⟨hcap, hreader.restore _, hwriter, hcoupled.move (restoreNext_idle_iff _ _) fun hb => .inl ?_⟩
  have hb' : s.txBlank = true := hb
  simp only [Machine.restore, State.setRd_rd, hb']
  rcases hcoupled.blanked hb' with hst | hst <;> rw [hst] <;> rfl

/-- A send that the Writer accepts, the Reader blanked first (43 R161). -/
theorem UnitInvariants.send {buffer : List Byte} {length : Nat} {now : Time} {u : State}
    (h : UnitInvariants s) (hu : exec (.lkSend buffer length now) s = .next u) : UnitInvariants u := by
  rcases execLkSend_next hu with ⟨hacceptable, hbuffer, rfl⟩ | rfl
  · obtain ⟨hcap, hreader, -, hcoupled⟩ := h
    obtain ⟨hactive, hpos, hlength, -⟩ := (sendAcceptable_iff length s).1 hacceptable
    have hwriter := acceptSend_writerInv now (blank (s.setTxBlank true)) hpos (hlength.trans hcap.2) hbuffer
    refine ⟨hcap, hreader.blank, by simpa only [State.emit_wr, State.emit_tmr, State.emit_wbuf] using hwriter,
      (blankNext_idle_iff s.rd.state).trans hcoupled.stopped, fun _ => ?_, fun _ => ⟨rfl, hactive⟩⟩
    have hrunning : s.rd.state ≠ .idle := fun hidle => by simp [hcoupled.stopped.1 hidle] at hactive
    exact blankNext_blanked hrunning
  · exact h

/-- A start of a link that is not started: both units are then stopped (10 R44 item 1, 43 R164). -/
theorem UnitInvariants.start {now : Time} {u : State} (h : UnitInvariants s)
    (hu : exec (.lkStart now) s = .next u) : UnitInvariants u := by
  rcases execLkStart_cases now s with ⟨-, e⟩ | ⟨hstopped, p, rfl, e⟩ <;> cases e.symm.trans hu
  · exact h
  · obtain ⟨hcap, -, hwriter, hcoupled⟩ := h
    have hinactive : s.wr.active = false := by
      by_contra hactive
      have hidle : s.rd.state = .idle := by simpa [linkStarted, Bool.eq_true_of_not_eq_false hactive] using hstopped
      exact hactive (hcoupled.stopped.1 hidle)
    have hpending : s.wr.txPending = false :=
      Bool.eq_false_iff.2 fun hp => by simp [hcoupled.sending hp] at hinactive
    have hdisarmed : s.tmr.armed = false := by
      simpa [hpending] using hwriter.timer
    rw [starts_of_stopped now (hcoupled.stopped.2 hinactive) hinactive]
    refine ⟨hcap, readerInv_of_no_packet (.inr (.inr (.inl rfl))), ?_, ?_⟩
    · simpa [hdisarmed] using writerInv_of_no_send rfl rfl
    · exact ⟨by simp, nofun, nofun⟩

/-- A stop of both units ends a send and the blanking (43 R165). -/
theorem UnitInvariants.stop (h : UnitInvariants s) :
    UnitInvariants ((readerStop (writerStop s)).setTxBlank false) := by
  obtain ⟨hcap, -, -, -⟩ := h
  exact ⟨hcap, readerInv_of_no_packet (.inl rfl), writerInv_of_no_send rfl rfl, iff_of_true rfl rfl, nofun, nofun⟩

/-! ## Every instruction of the protocol, every disciplined action of the host -/

theorem exec_unitInvariants {i : Instr} {u : State} (hi : inProtocol i = true) (hs : UnitInvariants s)
    (h : exec i s = .next u) : UnitInvariants u := by
  cases i with
  | rdPulse _ | symZero | symOne | symPreamble | symInvalid _ | frame _ _ =>
    exact exec_pulses_induct (P := UnitInvariants) (fun t _ hs => hs.pulse t) rfl h hs
  | rdWatchdog now => exact hs.watchdog h
  | wrExpiry now => cases h; exact hs.expiry now
  | lkStart now => exact hs.start h
  | lkStop => cases h; exact hs.stop
  | lkSend buffer length now => exact hs.send h
  | lkService =>
    cases h
    exact service_induct_endBlanking (P := UnitInvariants) (fun _ _ hs => hs) (fun _ hs => hs.endBlanking) hs
  | lkRestore => cases h; exact hs.restore
  | classify _ | ispreamble _ | interval _ | rdHasincoming | rdIsblanking | rdCansend _ _ | lkCansend _ =>
    cases h; exact hs
  | rdStart _ | rdStop | rdRestore _ | rdBlank | wrStart _ | wrStop | wrSend _ _ _ => cases hi

/-- Reset satisfies the invariants of every unit, whatever the parameters but for the capacity (10 R43). -/
theorem powerOn_unitInvariants {c : Cfg} (hcap : 1 ≤ c.capacity ∧ c.capacity ≤ 2 ^ hdrBits) :
    UnitInvariants (State.powerOn c) :=
  ⟨hcap, readerInv_of_no_packet (.inl rfl), writerInv_of_no_send rfl rfl, iff_of_true rfl rfl, nofun, nofun⟩

theorem hostStep_unitInvariants {e : HostEvent} {u : State} (he : disciplined e s = true)
    (hs : UnitInvariants s) (h : hostStep e s = .next u) : UnitInvariants u := by
  obtain ⟨hcap, hreader, hwriter, hcoupled⟩ := id hs
  cases e with
  | powerOn => cases h; exact powerOn_unitInvariants hcap
  | callerStore i v =>
    have hpending : s.wr.txPending = false := by simpa [disciplined] using he
    simp only [hostStep, hostCallerStore] at h
    split at h <;> cases h
    refine ⟨hcap, hreader, ?_, hcoupled⟩
    exact ⟨hwriter.busy, hwriter.timer, hwriter.data, hwriter.header, fun hp => by simp [hpending] at hp⟩
  | consumerLoad i =>
    simp only [hostStep, hostConsumerLoad] at h
    split at h
    · split at h <;> cases h <;> exact hs
    · cases h
  | consumerStore i v =>
    simp only [hostStep, hostConsumerStore] at h
    split at h
    · cases h
    · split at h <;> cases h
      rw [storeRbuf_eq]
      exact hs

end

end Sys2Proof.Machine
end

section
/-! CERTIFICATE. The invariants of 10 R44, at reset and over every step of the protocol. -/

open Sys2Proof Sys2Proof.Machine

/-- Settles O58: the invariants by unit, each kept by every operation of the protocol. -/
theorem protocolKeepsTheLinkInvariants : Obligations.ProtocolKeepsTheLinkInvariants := by
  unfold Obligations.ProtocolKeepsTheLinkInvariants
  refine ⟨fun i s u hi hs h => ?instruction, fun e s u he hs h => ?host⟩
  case instruction => exact (linkInv_iff u).2 (exec_unitInvariants hi ((linkInv_iff s).1 hs) h)
  case host => exact (linkInv_iff u).2 (hostStep_unitInvariants he ((linkInv_iff s).1 hs) h)

/-- Settles O60: the form of the reset state, and the units' invariants of a stopped device. -/
theorem resetSatisfiesTheInvariants : Obligations.ResetSatisfiesTheInvariants := by
  unfold Obligations.ResetSatisfiesTheInvariants
  refine ⟨powerOn_stateFits, fun c hc => ?_⟩
  obtain ⟨hcap, -⟩ := hc
  exact (linkInv_iff _).2 (powerOn_unitInvariants hcap)

end

section
/-! SUPPORT. What an instruction may write by its unit (10 R20, R41): the fields of the other units, the Reader's
control state between stopped and running, the signal flags. -/

namespace Sys2Proof.Machine

open Sys2Proof

/-! ## The owners of the fields -/

/-- Pulses leave the Writer, the Arbiter's bit and the rest alone (10 R20). -/
theorem exec_pulses_frame {i : Instr} {s u : State} (hi : deliversPulses i = true) (h : exec i s = .next u) :
    SameWriter s u ∧ SameRest s u :=
  exec_pulses_induct (P := fun u => SameWriter s u ∧ SameRest s u)
    (fun t v hv => have hp := pulse_frame t v; ⟨hv.1.trans hp.1, hv.2.trans hp.2⟩) hi h ⟨.refl s, .refl s⟩

/-- A service leaves the Writer's side alone (43 R162). -/
theorem service_sameWriter (s : State) : SameWriter s (serviceSent (serviceReceived (serviceLost s))) :=
  service_induct (P := SameWriter s) (fun _ _ hu => hu.trans ⟨rfl, rfl, rfl, rfl⟩)
    (fun _ hu => hu.trans ⟨rfl, rfl, rfl, rfl⟩) (.refl s)

/-- A start of the Reader writes on the Reader's side alone (41 R124). -/
theorem readerStart_frame (now : Time) (s : State) :
    SameWriter s (readerStart now s) ∧ SameRest s (readerStart now s) := by
  obtain ⟨r, e⟩ := readerStart_eq now s
  rw [e]
  exact ⟨⟨rfl, rfl, rfl, rfl⟩, ⟨rfl, rfl, rfl⟩⟩

/-- A start of the Writer writes the Writer's fields alone (42 R146). -/
theorem writerStart_frame (now : Time) (s : State) :
    SameReader s (writerStart now s) ∧ SameRest s (writerStart now s) := by
  obtain ⟨w, e⟩ := writerStart_eq now s
  rw [e]
  exact ⟨⟨rfl, rfl⟩, ⟨rfl, rfl, rfl⟩⟩

/-! ## Stopped and running -/

/-- A start never leaves the Reader stopped (41 R124). -/
theorem readerStart_running (now : Time) (s : State) : (readerStart now s).rd.state ≠ .idle := by
  unfold readerStart
  split
  · nofun
  · assumption

/-- What is no start and no stop leaves the Reader stopped or running (10 R22). -/
theorem exec_idle_iff {i : Instr} {s u : State} (hstop : i ≠ .rdStop ∧ i ≠ .lkStop)
    (hstart : ∀ now, i ≠ .rdStart now ∧ i ≠ .lkStart now) (h : exec i s = .next u) :
    u.rd.state = .idle ↔ s.rd.state = .idle := by
  cases i with
  | rdStop => exact absurd rfl hstop.1
  | lkStop => exact absurd rfl hstop.2
  | rdStart now => exact absurd rfl (hstart now).1
  | lkStart now => exact absurd rfl (hstart now).2
  | rdPulse _ | symZero | symOne | symPreamble | symInvalid _ | frame _ _ =>
    exact exec_pulses_induct (P := fun u => u.rd.state = .idle ↔ s.rd.state = .idle)
      (fun t v hv => (pulse_idle_iff t v).trans hv) rfl h .rfl
  | rdRestore blankLevel => cases h; exact restoreNext_idle_iff blankLevel _
  | lkRestore => cases h; exact restoreNext_idle_iff _ _
  | rdBlank => cases h; exact blankNext_idle_iff _
  | rdWatchdog now =>
    rcases execRdWatchdog_next h with ⟨hadb, rfl⟩ | rfl
    · simp [hadb]
    · rfl
  | lkSend buffer length now =>
    rcases execLkSend_next h with ⟨-, -, rfl⟩ | rfl
    · exact blankNext_idle_iff _
    · rfl
  | lkService =>
    cases h
    exact service_induct (P := fun u => u.rd.state = .idle ↔ s.rd.state = .idle) (fun _ _ hu => hu)
      (fun _ hu => (restoreNext_idle_iff false _).trans hu) .rfl
  | wrSend buffer length now =>
    rcases execWrSend_cases buffer length now s with ⟨-, e⟩ | ⟨-, e⟩ | e <;> cases e.symm.trans h <;> rfl
  | wrStart now => cases h; rw [(writerStart_frame now s).1.rd]
  | wrExpiry now => cases h; rw [(expiry_frame now s).1.rd]
  | classify _ | ispreamble _ | interval _ | rdHasincoming | rdIsblanking | rdCansend _ _ | lkCansend _ | wrStop =>
    cases h; rfl

/-- A start does not stop the Reader, whether it starts it or not (41 R124, 43 R164). -/
theorem exec_start_running {i : Instr} {now : Time} {s u : State} (hi : i = .rdStart now ∨ i = .lkStart now)
    (hs : s.rd.state ≠ .idle) (h : exec i s = .next u) : u.rd.state ≠ .idle := by
  rcases hi with rfl | rfl
  · cases h
    exact readerStart_running now s
  · rcases execLkStart_cases now s with ⟨-, e⟩ | ⟨-, p, rfl, e⟩ <;> cases e.symm.trans h
    · exact hs
    · simp only [State.setSig_rd, State.setTxBlank_rd, (writerStart_frame now _).1.rd]
      exact readerStart_running now s

/-- A stop does not start the Reader: it leaves it stopped (41 R125, 43 R165). -/
theorem exec_stop_idle {i : Instr} {s u : State} (hi : i = .rdStop ∨ i = .lkStop) (h : exec i s = .next u) :
    u.rd.state = .idle := by
  rcases hi with rfl | rfl <;> cases h <;> rfl

/-! ## Signal flags -/

/-- Every flag that is set stays set (10 R38). -/
structure FlagsKept (g g' : Signals) : Prop where
  received : g.receivedFlag = true → g'.receivedFlag = true
  lost : g.lostFlag = true → g'.lostFlag = true
  sent : g.sentFlag = true → g'.sentFlag = true

theorem FlagsKept.refl (g : Signals) : FlagsKept g g := ⟨id, id, id⟩

/-- Raising a signal sets its flag and no other changes (60 R188). -/
theorem FlagsKept.record {g g' : Signals} (h : FlagsKept g g') (x : Signal) : FlagsKept g (g'.record x) := by
  cases x with
  | received ts len => exact ⟨fun _ => rfl, h.lost, h.sent⟩
  | lost ts => exact ⟨h.received, fun _ => rfl, h.sent⟩
  | sent => exact ⟨h.received, h.lost, fun _ => rfl⟩

/-- All a pulse does to the signal cells is to raise one signal (41 R114). -/
theorem pulse_sig (t : Time) (s : State) :
    (pulse t s).sig = s.sig ∨ ∃ g, (pulse t s).sig = s.sig.record g := by
  rcases pulse_cases t s with ⟨-, e⟩ | ⟨-, e⟩ | ⟨-, e⟩ | ⟨-, -, e⟩ | ⟨-, b, -, e⟩ | ⟨-, e⟩ <;> rw [e]
  · exact .inl rfl
  · unfold pulseApe
    split <;> exact .inl rfl
  · unfold pulseAhe
    split
    · exact .inl rfl
    · obtain ⟨r, e⟩ := acceptHeaderBit_eq _ t s
      rw [e]
      exact .inl rfl
  · exact .inr ⟨.lost s.rd.startTs, rfl⟩
  · rcases acceptDataBit_cases b t s with ⟨-, e⟩ | ⟨-, e⟩ <;> rw [e]
    · rcases finishByte_cases t (storeRbuf s.rd.byteCursor.toNat (accumulate s.rd.asm b) s) with
        ⟨-, e⟩ | ⟨-, e⟩ <;> rw [e]
      · exact .inr ⟨_, by rw [raise_sig, State.setRd_sig, storeRbuf_sig]⟩
      · exact .inl (by rw [State.setRd_sig, storeRbuf_sig])
    · exact .inl rfl
  · exact .inl rfl

/-- All an expiry does to the signal cells is to raise `Sent` (42 R145). -/
theorem expiry_sig (now : Time) (s : State) :
    (expiry now s).sig = s.sig ∨ (expiry now s).sig = s.sig.record .sent := by
  rcases expiry_cases now s with ⟨-, e⟩ | ⟨-, ⟨-, e⟩ | ⟨-, e⟩ | ⟨-, e⟩⟩ <;> rw [e]
  · exact .inl rfl
  · obtain ⟨n, hn⟩ := drawIfBeyondHeader_eq (emitPulse now (fireTimer s))
    exact .inl (by simp [expirySh, hn])
  · obtain ⟨n, hn⟩ := drawIfAbsent_eq (emitPulse now (fireTimer s)).wr.byteCursor.toNat
      (emitPulse now (fireTimer s))
    exact .inl (by simp only [expirySd, hn, State.setWr_sig, scheduleAfter_sig, State.setFree_sig, emitPulse_sig,
      fireTimer_sig])
  · exact .inr rfl

/-- No instruction but a service and a start of the link clears a flag (10 R38, 60 R189). -/
theorem exec_flagsKept {i : Instr} {s u : State} (hservice : i ≠ .lkService) (hstart : ∀ now, i ≠ .lkStart now)
    (h : exec i s = .next u) : FlagsKept s.sig u.sig := by
  cases i with
  | lkService => exact absurd rfl hservice
  | lkStart now => exact absurd rfl (hstart now)
  | rdPulse _ | symZero | symOne | symPreamble | symInvalid _ | frame _ _ =>
    refine exec_pulses_induct (P := fun u => FlagsKept s.sig u.sig) (fun t v hv => ?_) rfl h (.refl _)
    rcases pulse_sig t v with e | ⟨g, e⟩ <;> rw [e]
    · exact hv
    · exact hv.record g
  | wrExpiry now =>
    cases h
    rcases expiry_sig now s with e | e <;> rw [e]
    · exact .refl _
    · exact (FlagsKept.refl _).record .sent
  | rdWatchdog now =>
    rcases execRdWatchdog_next h with ⟨-, rfl⟩ | rfl
    · exact (FlagsKept.refl s.sig).record (.lost s.rd.startTs)
    · exact .refl _
  | rdStart now =>
    cases h
    obtain ⟨r, e⟩ := readerStart_eq now s
    rw [e]
    exact .refl _
  | wrStart now =>
    cases h
    obtain ⟨w, e⟩ := writerStart_eq now s
    rw [e]
    exact .refl _
  | wrSend buffer length now =>
    rcases execWrSend_cases buffer length now s with ⟨-, e⟩ | ⟨-, e⟩ | e <;> cases e.symm.trans h <;>
      exact .refl _
  | lkSend buffer length now => rcases execLkSend_next h with ⟨-, -, rfl⟩ | rfl <;> exact .refl _
  | classify _ | ispreamble _ | interval _ | rdStop | rdHasincoming | rdRestore _ | rdBlank | rdIsblanking
  | rdCansend _ _ | wrStop | lkStop | lkCansend _ | lkRestore =>
    cases h; exact .refl _

end Sys2Proof.Machine
end

section
/-! CERTIFICATE. Who writes what (10 R20, R22, R38, R41). -/

open Sys2Proof Sys2Proof.Machine

/-- Settles O43: by unit, each instruction through what its operation leaves alone. -/
theorem unitsWriteTheirOwnFields : Obligations.UnitsWriteTheirOwnFields := by
  unfold Obligations.UnitsWriteTheirOwnFields
  intro i s u h
  refine ⟨fun hi => ?reader, fun hi => ?writer, fun hi => ?arbiter⟩
  case reader =>
    suffices hsame : SameReader s u from ⟨hsame.rd, hsame.rbuf⟩
    cases i with
    | classify _ | ispreamble _ | interval _ | wrStop | lkCansend _ | rdHasincoming | rdIsblanking
    | rdCansend _ _ => cases h; exact ⟨rfl, rfl⟩
    | wrStart now => cases h; exact (writerStart_frame now s).1
    | wrExpiry now => cases h; exact (expiry_frame now s).1
    | wrSend buffer length now =>
      rcases execWrSend_cases buffer length now s with ⟨-, e⟩ | ⟨-, e⟩ | e <;> cases e.symm.trans h <;>
        exact ⟨rfl, rfl⟩
    | _ => cases hi
  case writer =>
    suffices hsame : SameWriter s u from ⟨hsame.wr, hsame.wbuf, hsame.tmr⟩
    cases i with
    | wrStart _ | wrStop | wrSend _ _ _ | wrExpiry _ | lkStart _ | lkStop | lkSend _ _ _ => cases hi
    | rdPulse _ | symZero | symOne | symPreamble | symInvalid _ | frame _ _ => exact (exec_pulses_frame rfl h).1
    | rdStart now => cases h; exact (readerStart_frame now s).1
    | rdWatchdog now => rcases execRdWatchdog_next h with ⟨-, rfl⟩ | rfl <;> exact ⟨rfl, rfl, rfl, rfl⟩
    | lkService => cases h; exact service_sameWriter s
    | _ => cases h; exact ⟨rfl, rfl, rfl, rfl⟩
  case arbiter =>
    suffices hsame : SameRest s u from hsame.txBlank
    cases i with
    | lkStart _ | lkStop | lkSend _ _ _ | lkService => cases hi
    | rdPulse _ | symZero | symOne | symPreamble | symInvalid _ | frame _ _ => exact (exec_pulses_frame rfl h).2
    | rdStart now => cases h; exact (readerStart_frame now s).2
    | rdWatchdog now => rcases execRdWatchdog_next h with ⟨-, rfl⟩ | rfl <;> exact ⟨rfl, rfl, rfl⟩
    | wrStart now => cases h; exact (writerStart_frame now s).2
    | wrExpiry now => cases h; exact (expiry_frame now s).2.1
    | wrSend buffer length now =>
      rcases execWrSend_cases buffer length now s with ⟨-, e⟩ | ⟨-, e⟩ | e <;> cases e.symm.trans h <;>
        exact ⟨rfl, rfl, rfl⟩
    | _ => cases h; exact ⟨rfl, rfl, rfl⟩

/-- Settles O44: only a start and a stop change whether the Reader is stopped, and each in its own direction. -/
theorem idleIsEnteredByStopAlone : Obligations.IdleIsEnteredByStopAlone := by
  unfold Obligations.IdleIsEnteredByStopAlone
  intro i s u h
  by_cases hstart : ∃ now, i = .rdStart now ∨ i = .lkStart now
  · obtain ⟨now, hi⟩ := id hstart
    exact ⟨fun hs hu => absurd hu (exec_start_running hi hs h), fun _ _ => hstart⟩
  by_cases hstop : i = .rdStop ∨ i = .lkStop
  · exact ⟨fun _ _ => hstop, fun _ hu => absurd (exec_stop_idle hstop h) hu⟩
  have hsame : u.rd.state = .idle ↔ s.rd.state = .idle :=
    exec_idle_iff (not_or.1 hstop) (fun now => not_or.1 (not_exists.1 hstart now)) h
  exact ⟨fun hs hu => absurd (hsame.1 hu) hs, fun hs hu => absurd (hsame.2 hs) hu⟩

/-- Settles O45: the operations that raise signals keep every flag, and no other writes the signal cells. -/
theorem flagsAreClearedByTaskAlone : Obligations.FlagsAreClearedByTaskAlone := by
  unfold Obligations.FlagsAreClearedByTaskAlone
  intro i s u h hservice hstart
  obtain ⟨hreceived, hlost, hsent⟩ := exec_flagsKept hservice hstart h
  exact ⟨hreceived, hlost, hsent⟩

end

section
/-! SUPPORT. What the block stores in `RBUF` (20 R61, 41 R114). -/

namespace Sys2Proof.Machine

open Sys2Proof

/-- An interval that lies in no window has no bit (30 R80, R81). -/
theorem bitOf_classify_of_no_window {c : Cfg} {d : Time} (h : matchesNoWindow c d = true) :
    bitOf (classify c d) = none := by
  obtain ⟨⟨hzero, hone⟩, -⟩ : (inZero c d = false ∧ inOne c d = false) ∧ inPre c d = false := by
    simpa [matchesNoWindow] using h
  simp [classify, hzero, hone, bitOf]

/-- A pulse stores when it closes a valid interval that completes a byte within `CAPACITY` (20 R61, 41 R114). -/
structure CompletesByte (t : Time) (s : State) : Prop where
  state : s.rd.state = .adb
  lastBit : s.rd.bitCursor.toNat + 1 = byteBits
  valid : bitOf (classify s.cfg (elapsed s.cfg s.rd.lastTs t)) ≠ none
  within : s.rd.byteCursor.toNat < s.cfg.capacity

/-- A pulse that completes no byte leaves `RBUF` alone. -/
theorem pulse_rbuf_or_completesByte (t : Time) (s : State) :
    (pulse t s).rbuf = s.rbuf ∨ CompletesByte t s := by
  rcases pulse_cases t s with ⟨-, e⟩ | ⟨-, e⟩ | ⟨-, e⟩ | ⟨-, -, e⟩ | ⟨hadb, b, hb, e⟩ | ⟨-, e⟩ <;> rw [e]
  · exact .inl rfl
  · unfold pulseApe
    split <;> exact .inl rfl
  · unfold pulseAhe
    split
    · exact .inl rfl
    · obtain ⟨r, e⟩ := acceptHeaderBit_eq _ t s
      rw [e]
      exact .inl rfl
  · exact .inl rfl
  · rcases acceptDataBit_cases b t s with ⟨hlast, e⟩ | ⟨-, e⟩ <;> rw [e]
    · obtain ⟨-, -, hstored⟩ := finishByte_frame t (storeRbuf s.rd.byteCursor.toNat (accumulate s.rd.asm b) s)
      rw [hstored]
      rcases storeRbuf_cases s.rd.byteCursor.toNat (accumulate s.rd.asm b) s with ⟨hcap, e⟩ | ⟨-, e⟩ <;> rw [e]
      · exact .inr ⟨hadb, hlast, by simp [hb], hcap⟩
      · exact .inl rfl
    · exact .inl rfl
  · exact .inl rfl

/-- The one index a pulse can change is `rd.byte_cursor`, and only by completing a byte. -/
theorem pulse_stores {t : Time} {s : State} {k : Nat} (hk : (pulse t s).rbuf.read k ≠ s.rbuf.read k) :
    CompletesByte t s ∧ k = s.rd.byteCursor.toNat := by
  have hcursor : k = s.rd.byteCursor.toNat := by
    by_contra hother
    exact hk (pulse_rbuf t s hother)
  rcases pulse_rbuf_or_completesByte t s with e | hbyte
  · exact absurd (congrArg (Memory.read · k) e) hk
  · exact ⟨hbyte, hcursor⟩

/-- An `Invalid` wire symbol stores nothing (30 R88). -/
theorem closeInterval_invalid_rbuf {d : Time} {s : State} (hd : d < 2 ^ s.cfg.tsw)
    (h : matchesNoWindow s.cfg d = true) : (closeInterval d s).rbuf = s.rbuf := by
  rw [closeInterval_eq]
  rcases pulse_rbuf_or_completesByte (s.rd.lastTs + d) s with e | hbyte
  · exact e
  · refine absurd ?_ hbyte.valid
    rw [elapsed_add _ hd]
    exact bitOf_classify_of_no_window h

/-- What is no pulse leaves `RBUF` alone (20 R61). -/
theorem exec_rbuf_of_no_pulse {i : Instr} {s u : State} (hi : deliversPulses i = false)
    (h : exec i s = .next u) : u.rbuf = s.rbuf := by
  cases i with
  | rdPulse _ | symZero | symOne | symPreamble | symInvalid _ | frame _ _ => cases hi
  | rdStart now =>
    cases h
    obtain ⟨r, e⟩ := readerStart_eq now s
    rw [e]
    rfl
  | rdWatchdog now => rcases execRdWatchdog_next h with ⟨-, rfl⟩ | rfl <;> rfl
  | lkStart now =>
    rcases execLkStart_cases now s with ⟨-, e⟩ | ⟨-, p, rfl, e⟩ <;> cases e.symm.trans h
    · rfl
    · obtain ⟨r, e⟩ := readerStart_eq now s
      simp [(writerStart_frame now _).1.rbuf, e]
  | lkSend buffer length now => rcases execLkSend_next h with ⟨-, -, rfl⟩ | rfl <;> rfl
  | lkService =>
    cases h
    exact service_induct (P := fun u => u.rbuf = s.rbuf) (fun _ _ hu => hu) (fun _ hu => hu) rfl
  | rdStop | rdRestore _ | rdBlank | lkStop | lkRestore => cases h; rfl
  | classify _ | ispreamble _ | interval _ | wrStart _ | wrStop | wrSend _ _ _ | wrExpiry _ | lkCansend _
  | rdHasincoming | rdIsblanking | rdCansend _ _ =>
    obtain ⟨-, hrbuf⟩ := (unitsWriteTheirOwnFields _ s u h).1 rfl
    exact hrbuf

end Sys2Proof.Machine
end

section
/-! CERTIFICATE. What the block stores in `RBUF` (20 R61). -/

open Sys2Proof Sys2Proof.Machine

/-- Settles O46: an instruction that changes `RBUF` is one pulse, and a pulse stores only the byte it completes. -/
theorem onlyACompletedByteIsStored : Obligations.OnlyACompletedByteIsStored := by
  unfold Obligations.OnlyACompletedByteIsStored
  intro i s u h hframe k hk
  have stores : ∀ t, u = pulse t s → s.rd.state = .adb ∧ s.rd.bitCursor.toNat = 7 ∧
      k = s.rd.byteCursor.toNat ∧ k < s.cfg.capacity := by
    rintro t rfl
    obtain ⟨⟨hadb, hlast, -, hcap⟩, rfl⟩ := pulse_stores hk
    exact ⟨hadb, Nat.succ.inj hlast, rfl, hcap⟩
  cases i with
  | rdPulse t => cases h; exact ⟨.inl ⟨t, rfl⟩, stores t rfl⟩
  | symZero => cases h; exact ⟨.inr (.inl rfl), stores _ rfl⟩
  | symOne => cases h; exact ⟨.inr (.inr (.inl rfl)), stores _ rfl⟩
  | symPreamble => cases h; exact ⟨.inr (.inr (.inr rfl)), stores _ rfl⟩
  | symInvalid d =>
    rcases execSymInvalid_cases d s with ⟨hinvalid, e⟩ | ⟨-, e⟩ <;> cases e.symm.trans h
    exact absurd (congrArg (Memory.read · k) (closeInterval_invalid_rbuf (time_lt s.cfg d) hinvalid)) hk
  | frame t bytes => exact absurd rfl (hframe t bytes)
  | _ => exact absurd (congrArg (Memory.read · k) (exec_rbuf_of_no_pulse rfl h)) hk

end

section
/-! SUPPORT. Accesses at an index that has no byte, and sends with a short buffer (20 R64; log 9, 10). -/

namespace Sys2Proof.Machine

open Sys2Proof

/-- A valid interval in `AwaitingDataBits` is a data bit (41 R114, 30 R81). -/
theorem pulse_of_data_bit {t : Time} {s : State} {b : Bool} (hadb : s.rd.state = .adb)
    (hb : classify s.cfg (elapsed s.cfg s.rd.lastTs t) = if b then .one else .zero) :
    pulse t s = acceptDataBit b t s := by
  have hbit : bitOf (if b then .one else .zero) = some b := by cases b <;> rfl
  simp only [pulse, hadb, pulseAdb, hb, hbit]

/-- The eighth bit of a byte that has no place in `RBUF` completes the byte all the same (log 10). -/
theorem pulse_of_absent_byte {t : Time} {s : State} {b : Bool} (hadb : s.rd.state = .adb)
    (hlast : s.rd.bitCursor.toNat + 1 = byteBits) (habsent : s.cfg.capacity ≤ s.rd.byteCursor.toNat)
    (hb : classify s.cfg (elapsed s.cfg s.rd.lastTs t) = if b then .one else .zero) :
    pulse t s = finishByte t s := by
  rw [pulse_of_data_bit hadb hb, acceptDataBit, if_pos hlast, storeRbuf, if_neg (Nat.not_lt.2 habsent)]

/-- An expiry in `SendingData` that passes the gate (42 R141, R144). -/
theorem expiry_sd {now : Time} {s : State} (hactive : s.wr.active = true) (hpending : s.wr.txPending = true)
    (hsd : s.wr.state = .sd) : expiry now s = expirySd (emitPulse now (fireTimer s)) := by
  simp [expiry, hactive, hpending, hsd]

/-- Where the bound buffer has no byte, the fetch answers the free value that is drawn (log 10). -/
theorem fetchWbuf_of_absent {i : Nat} {s : State} (h : s.wbuf.read i = none) :
    fetchWbuf i s = Config.freeByte s.free ∧ drawIfAbsent i s = draw s := by
  simp [fetchWbuf, drawIfAbsent, h]

/-- The interval scheduled for a bit (30 R81, 40 R103). -/
theorem interval_symOf (c : Cfg) (b : Bool) : interval c (symOf b) = if b then c.tOne else c.tZero := by
  cases b <;> rfl

/-- The Writer's fields after a data bit, in `SendingData` (42 R144). -/
theorem advanceData_sd {w : Writer} (hsd : w.state = .sd) :
    advanceData w = if w.bitCursor.toNat = 7 then
        { w with bitCursor := 0, byteCursor := w.byteCursor + 1,
                 state := if w.byteCursor.toNat + 1 = w.length.toNat then .idle else .sd }
      else { w with bitCursor := w.bitCursor + 1 } := by
  simp [advanceData, hsd, byteBits]

/-- An expiry whose byte the caller did not supply schedules the bit of a free byte (42 R144, log 10). -/
theorem expirySd_of_absent {s : State} (hsd : s.wr.state = .sd)
    (habsent : s.wbuf.read s.wr.byteCursor.toNat = none) :
    expirySd s = scheduleAfter (interval s.cfg (symOf (dataBit (Config.freeByte s.free) s.wr.bitCursor)))
      ((draw s).setWr (if s.wr.bitCursor.toNat = 7 then
          { s.wr with bitCursor := 0, byteCursor := s.wr.byteCursor + 1,
                      state := if s.wr.byteCursor.toNat + 1 = s.wr.length.toNat then .idle else .sd }
        else { s.wr with bitCursor := s.wr.bitCursor + 1 })) := by
  obtain ⟨hfetch, hdraw⟩ := fetchWbuf_of_absent habsent
  simp only [expirySd, hfetch, hdraw, advanceData_sd hsd]
  rfl

theorem matchesNoWindow_eq_false_iff (c : Cfg) (d : Time) :
    matchesNoWindow c d = false ↔ inZero c d = true ∨ inOne c d = true ∨ inPre c d = true := by
  simp only [matchesNoWindow, Bool.and_eq_false_iff, Bool.not_eq_false', or_assoc]

/-- An acceptable `WR.SEND` with a short buffer is refused (20 R64, log 9). -/
theorem execWrSend_short {buffer : List Byte} {length : Nat} {now : Time} {s : State}
    (hok : sendAcceptable length s = true) (hshort : buffer.length < length) :
    exec (.wrSend buffer length now) s = .refused .shortBuffer := by
  simp only [exec, execWrSend, if_pos hok, if_neg (Nat.not_le.2 hshort)]

/-- So is an acceptable `LK.SEND`, before it blanks. -/
theorem execLkSend_short {buffer : List Byte} {length : Nat} {now : Time} {s : State}
    (hok : sendAcceptable length s = true) (hshort : buffer.length < length) :
    exec (.lkSend buffer length now) s = .refused .shortBuffer := by
  simp only [exec, execLkSend, if_pos hok, if_neg (Nat.not_le.2 hshort)]

end Sys2Proof.Machine
end

section
/-! CERTIFICATE. Absent bytes and ill-formed requests (20 R64; log 9, 10, 14, 15). -/

open Sys2Proof Sys2Proof.Machine

/-- Settles O25: the store that is skipped, then the two ways a byte is finished; and the fetch that draws. -/
theorem absentBytesDoNotStop : Obligations.AbsentBytesDoNotStop := by
  unfold Obligations.AbsentBytesDoNotStop
  intro now s hnow
  have htime : time s.cfg now = now := time_eq_self hnow
  refine ⟨fun b hadb hbit habsent hb => ?store, fun hactive hpending hsd habsent => ?fetch⟩
  case store =>
    have hpulse : exec (.rdPulse now) s = .next (finishByte now s) :=
      congrArg Host.Outcome.next (pulse_of_absent_byte hadb (by rw [hbit]) habsent hb)
    rw [hpulse]
    rcases finishByte_cases now s with ⟨hend, e⟩ | ⟨hmore, e⟩ <;> rw [e, htime]
    · exact ⟨fun hmore => absurd hend hmore, fun _ => rfl⟩
    · exact ⟨fun _ => rfl, fun hend => absurd hend hmore⟩
  case fetch =>
    have hexpiry : exec (.wrExpiry now) s = .next (expirySd (emitPulse now (fireTimer s))) :=
      congrArg Host.Outcome.next (expiry_sd hactive hpending hsd)
    refine ⟨dataBit (Config.freeByte s.free) s.wr.bitCursor, ?_⟩
    rw [hexpiry, expirySd_of_absent (s := emitPulse now (fireTimer s)) hsd habsent]
    simp only [interval_symOf, scheduleAfter_eq, State.setWr_trace, draw_eq, emitPulse_trace, htime, fireTimer_cfg,
      List.append_assoc]
    rfl

/-- Settles O38: each ill-formed request fails the test that its operation makes first. -/
theorem illFormedRequestsAreRefused : Obligations.IllFormedRequestsAreRefused := by
  unfold Obligations.IllFormedRequestsAreRefused
  intro d t length bytes s
  refine ⟨fun hactive hpos hcap hidle hshort => ?send, fun hd hwindow => ?symbol, fun hlength => ?frame⟩
  case send =>
    have hok : sendAcceptable length s = true := (sendAcceptable_iff length s).2 ⟨hactive, hpos, hcap, hidle⟩
    exact ⟨execWrSend_short hok hshort, execLkSend_short hok hshort⟩
  case symbol =>
    have hmatches : matchesNoWindow s.cfg (time s.cfg d) = false := by
      rw [time_eq_self hd]
      exact (matchesNoWindow_eq_false_iff s.cfg d).2 hwindow
    rcases execSymInvalid_cases d s with ⟨hinvalid, -⟩ | ⟨-, e⟩
    · simp [hmatches] at hinvalid
    · exact e
  case frame =>
    have hbad : ¬ (1 ≤ bytes.length ∧ bytes.length ≤ 2 ^ hdrBits) := by
      simp only [hdrBits]
      omega
    simp only [exec, execFrame, if_neg hbad]

end

section
/-! SUPPORT. What the host does to the two byte spaces (20 R60, R67, R68; log 7, 8, 10). -/

namespace Sys2Proof.Machine

open Sys2Proof

theorem consumerOwns_iff (s : State) : consumerOwns s = true ↔ s.rd.state = .ac ∨ s.rd.state = .blp := by
  simp [consumerOwns]

theorem nobodyOwns_iff (s : State) : nobodyOwns s = true ↔ s.rd.state = .idle ∨ s.rd.state = .bl := by
  simp [nobodyOwns]

/-- A byte of the packet held (20 R61, R67). -/
theorem packetByte_of_held {i : Nat} {s : State} (howns : s.rd.state = .ac ∨ s.rd.state = .blp)
    (hi : i < s.rd.length.toNat) : packetByte i s = s.rbuf.read i := by
  simp [packetByte, (consumerOwns_iff s).2 howns, hi]

/-- Where there is no byte of a packet held (20 R67, log 7, 8). -/
theorem packetByte_eq_none {i : Nat} {s : State}
    (h : ¬ (s.rd.state = .ac ∨ s.rd.state = .blp) ∨ s.rd.length.toNat ≤ i ∨ s.rbuf.read i = none) :
    packetByte i s = none := by
  rw [← consumerOwns_iff] at h
  unfold packetByte
  rcases h with hother | hbeyond | habsent
  · simp [hother]
  · simp [Nat.not_lt.2 hbeyond]
  · simp [habsent]

theorem hostConsumerLoad_of_some {i : Nat} {v : Byte} {s : State} (hi : i < s.cfg.capacity)
    (h : packetByte i s = some v) : hostConsumerLoad i s = .next (s.emit [.loaded i v]) := by
  simp only [hostConsumerLoad, if_pos hi, h]

theorem hostConsumerLoad_of_none {i : Nat} {s : State} (hi : i < s.cfg.capacity) (h : packetByte i s = none) :
    hostConsumerLoad i s = .next (draw (s.emit [.loaded i (Config.freeByte s.free)])) := by
  simp only [hostConsumerLoad, if_pos hi, h]

/-- The consumer's store where somebody owns `RBUF` (20 R67, 70 R216). -/
theorem hostConsumerStore_of_owned {s : State} (h : ¬ (s.rd.state = .idle ∨ s.rd.state = .bl)) (i : Nat)
    (v : Byte) : hostConsumerStore i v s =
      if i < s.cfg.capacity then .next (storeRbuf i v s) else .fault (.rbufOutOfRange i) :=
  if_neg (mt (nobodyOwns_iff s).1 h)

theorem hostCallerStore_of_some {i : Nat} {s : State} (h : s.wbuf.read i ≠ none) (v : Byte) :
    hostCallerStore i v s = .next (s.setWbuf (s.wbuf.write i v)) := by
  obtain ⟨w, hw⟩ := Option.ne_none_iff_exists'.1 h
  simp only [hostCallerStore, hw]

theorem hostCallerStore_of_none {i : Nat} {s : State} (h : s.wbuf.read i = none) (v : Byte) :
    hostCallerStore i v s = .fault (.wbufOutOfRange i) := by
  simp only [hostCallerStore, h]

end Sys2Proof.Machine
end

section
/-! CERTIFICATE. The actions of the host (20 R60, R67, R68, 70 R210, R215). -/

open Sys2Proof Sys2Proof.Machine

/-- Settles O56: each action by who owns the buffer and whether the index has a byte; a store that is made is a
write of that one byte. -/
theorem hostActions : Obligations.HostActions := by
  unfold Obligations.HostActions
  intro i v s owns unowned
  refine ⟨fun hi => ⟨fun howns hlen hread => ?held, fun hother => ?other⟩, fun hi => if_neg (Nat.not_lt.2 hi),
    fun hnobody => if_pos ((nobodyOwns_iff s).2 hnobody), fun hsomebody => ⟨fun hi => ?stores, fun hi => ?beyond⟩,
    fun hread => ?caller, fun hread => hostCallerStore_of_none hread v, ?powerOn⟩
  case held => exact hostConsumerLoad_of_some hi ((packetByte_of_held howns hlen).trans hread)
  case other => exact ⟨Config.freeByte s.free, hostConsumerLoad_of_none hi (packetByte_eq_none hother)⟩
  case stores =>
    refine ⟨s.rbuf.write i v, Memory.read_write_same _ i v, fun k hk => Memory.read_write_other _ v hk, ?_⟩
    rw [hostStep, hostConsumerStore_of_owned hsomebody, if_pos hi, storeRbuf, if_pos hi]
    rfl
  case beyond =>
    rw [hostStep, hostConsumerStore_of_owned hsomebody, if_neg (Nat.not_lt.2 hi)]
  case caller =>
    exact ⟨s.wbuf.write i v, Memory.read_write_same _ i v, fun k hk => Memory.read_write_other _ v hk,
      hostCallerStore_of_some hread v⟩
  case powerOn => rfl

end

section
/-! SUPPORT. The decoder on a record by the format of its first byte, and on the operands that follow (30 R89 to
R91; log 2). -/

namespace Sys2Proof

/-! ## The first byte -/

theorem decode_op {code : Nat} (h : code < 64) (bs : List Byte) :
    decode (BitVec.ofNat 8 code :: bs) = decodeOp code bs := by
  have hbyte : (BitVec.ofNat 8 code).toNat = code := Nat.mod_eq_of_lt (by omega)
  simp only [decode, hbyte, Nat.div_eq_of_lt h, Nat.mod_eq_of_lt h]

theorem decode_symbol {code : Nat} (h : code < 64) (bs : List Byte) :
    decode (BitVec.ofNat 8 (0x40 + code) :: bs) = decodeSymbol code bs := by
  have hbyte : (BitVec.ofNat 8 (0x40 + code)).toNat = 0x40 + code := Nat.mod_eq_of_lt (by omega)
  have hformat : (0x40 + code) / 64 = 1 := by omega
  have hcode : (0x40 + code) % 64 = code := by omega
  simp only [decode, hbyte, hformat, hcode]

theorem decode_frame {value : Nat} (h : value < 64) (bs : List Byte) :
    decode (BitVec.ofNat 8 (0x80 + value) :: bs) = decodeFrame value bs := by
  have hbyte : (BitVec.ofNat 8 (0x80 + value)).toNat = 0x80 + value := Nat.mod_eq_of_lt (by omega)
  have hformat : (0x80 + value) / 64 = 2 := by omega
  have hvalue : (0x80 + value) % 64 = value := by omega
  simp only [decode, hbyte, hformat, hvalue]

theorem decode_host {code : Nat} (h : code < 64) (bs : List Byte) :
    decode (BitVec.ofNat 8 (0xC0 + code) :: bs) = decodeHost code bs := by
  have hbyte : (BitVec.ofNat 8 (0xC0 + code)).toNat = 0xC0 + code := Nat.mod_eq_of_lt (by omega)
  have hformat : (0xC0 + code) / 64 = 3 := by omega
  have hcode : (0xC0 + code) % 64 = code := by omega
  simp only [decode, hbyte, hformat, hcode]

/-- The operation codes that the table does not list (30 R91). -/
abbrev UnlistedCode (code : Nat) : Prop :=
  (0x03 ≤ code ∧ code ≤ 0x0F) ∨ (0x19 ≤ code ∧ code ≤ 0x1F) ∨ (0x24 ≤ code ∧ code ≤ 0x2F) ∨
    (0x36 ≤ code ∧ code ≤ 0x3F)

theorem decodeOp_of_unlisted {code : Nat} (h : UnlistedCode code) (bs : List Byte) :
    decodeOp code bs = .reserved code := by
  unfold decodeOp
  split
  case h_23 => rfl
  all_goals omega

theorem decode_of_unlisted {code : Nat} (h : UnlistedCode code) (bs : List Byte) :
    decode (BitVec.ofNat 8 code :: bs) = .reserved code :=
  (decode_op (by omega) bs).trans (decodeOp_of_unlisted h bs)

/-! ## Operands one after another -/

section

variable (rest : List Byte)

theorem withTxSymbol_encodeTxSymbol (sym : TxSymbol) (k : TxSymbol → List Byte → Decoded) :
    withTxSymbol (encodeTxSymbol sym :: rest) k = k sym rest := by
  cases sym <;> rfl

theorem withBit_encodeBit (b : Bool) (k : Bool → List Byte → Decoded) :
    withBit ((if b then 1#8 else 0#8) :: rest) k = k b rest := by
  cases b <;> rfl

/-- Two number operands read back in their order. -/
theorem withNum_withNum {m n : Nat} (hm : m < operandBound) (hn : n < operandBound)
    (k : Nat → Nat → List Byte → Decoded) :
    withNum (encodeNum m ++ encodeNum n ++ rest) (fun x r => withNum r (k x)) = k m n rest := by
  rw [List.append_assoc, withNum_encodeNum hm, withNum_encodeNum hn]

/-- A number operand and a byte read back. -/
theorem withNum_withByte {n : Nat} (hn : n < operandBound) (v : Byte) (k : Nat → Byte → List Byte → Decoded) :
    withNum (encodeNum n ++ [v] ++ rest) (fun x r => withByte r (k x)) = k n v rest := by
  rw [List.append_assoc, withNum_encodeNum hn]
  rfl

theorem sendOperandsOk_iff (buffer : List Byte) (length : Nat) (now : Time) :
    sendOperandsOk buffer length now = true ↔
      buffer.length ≤ bufferBound ∧ length ≤ buffer.length ∧ now < operandBound := by
  simp only [sendOperandsOk, Bool.and_eq_true, decide_eq_true_eq, and_assoc]

/-- The operands of a send read back: its length is no more than its buffer's, so it fits in a number operand. -/
theorem withSend_encodeSend {buffer : List Byte} {length : Nat} {now : Time}
    (h : sendOperandsOk buffer length now = true) (k : Nat → Time → List Byte → List Byte → Decoded) :
    withNum (encodeNum length ++ encodeNum now ++ encodeBuffer buffer ++ rest)
      (fun len r => withNum r fun t r' => withBuffer r' (k len t)) = k length now buffer rest := by
  obtain ⟨hbuffer, hlength, hnow⟩ := (sendOperandsOk_iff buffer length now).1 h
  have hlen : length < operandBound := (hlength.trans hbuffer).trans_lt (by decide)
  rw [List.append_assoc, withNum_withNum (encodeBuffer buffer ++ rest) hlen hnow fun len t r => withBuffer r (k len t),
    withBuffer_encodeBuffer hbuffer]

/-- The record of a frame: the header value gives the number of bytes back (30 R84). -/
theorem decodeFrame_encode {t : Time} {bytes : List Byte} (ht : t < operandBound) (hpos : 1 ≤ bytes.length) :
    decodeFrame (bytes.length - 1) (encodeNum t ++ bytes ++ rest) = .instr (.frame t bytes) rest := by
  rw [decodeFrame, List.append_assoc, withNum_encodeNum ht, Nat.sub_add_cancel hpos, takeBytes_append]

end

/-! ## Whole records -/

/-- The decoder reads the record of a well-formed instruction back and stops where it ends. -/
theorem decode_encode {i : Instr} (h : i.wellFormed = true) (rest : List Byte) :
    decode (encode i ++ rest) = .instr i rest := by
  cases i with
  | rdStop | rdHasincoming | rdBlank | rdIsblanking | wrStop | lkStop | lkService | lkRestore =>
    exact decode_op (by decide) rest
  | symZero => exact decode_symbol (code := 0) (by decide) rest
  | symOne => exact decode_symbol (code := 1) (by decide) rest
  | symPreamble => exact decode_symbol (code := 2) (by decide) rest
  | classify n | ispreamble n | rdStart n | rdPulse n | rdWatchdog n | wrStart n | wrExpiry n | lkStart n
  | lkCansend n =>
    have hn : n < operandBound := of_decide_eq_true h
    rw [encode, List.cons_append, decode_op (by decide), decodeOp, withNum_encodeNum hn]
  | symInvalid d =>
    exact (decode_symbol (code := 3) (by decide) _).trans
      (withNum_encodeNum (of_decide_eq_true h) rest fun d => .instr (.symInvalid d))
  | interval sym =>
    exact (decode_op (by decide) _).trans (withTxSymbol_encodeTxSymbol rest sym fun sym => .instr (.interval sym))
  | rdRestore b =>
    exact (decode_op (by decide) _).trans (withBit_encodeBit rest b fun b => .instr (.rdRestore b))
  | rdCansend now silence =>
    obtain ⟨hnow, hsilence⟩ : now < operandBound ∧ silence < operandBound := by
      simpa only [Instr.wellFormed, Bool.and_eq_true, decide_eq_true_eq] using h
    exact (decode_op (by decide) _).trans
      (withNum_withNum rest hnow hsilence fun now silence => .instr (.rdCansend now silence))
  | wrSend buffer length now =>
    exact (decode_op (by decide) _).trans
      (withSend_encodeSend rest h fun length now buffer => .instr (.wrSend buffer length now))
  | lkSend buffer length now =>
    exact (decode_op (by decide) _).trans
      (withSend_encodeSend rest h fun length now buffer => .instr (.lkSend buffer length now))
  | frame t bytes =>
    obtain ⟨⟨ht, hpos⟩, hmax⟩ : (t < operandBound ∧ 1 ≤ bytes.length) ∧ bytes.length ≤ 2 ^ hdrBits := by
      simpa only [Instr.wellFormed, Bool.and_eq_true, decide_eq_true_eq] using h
    have hvalue : bytes.length - 1 < 64 := (Nat.sub_lt hpos Nat.one_pos).trans_le hmax
    exact (decode_frame hvalue _).trans (decodeFrame_encode rest ht hpos)

/-- So it reads the record of an action of the host. -/
theorem decode_encodeHost {e : HostEvent} (h : e.wellFormed = true) (rest : List Byte) :
    decode (encodeHost e ++ rest) = .host e rest := by
  cases e with
  | powerOn => exact decode_host (code := 0) (by decide) rest
  | callerStore i v =>
    exact (decode_host (code := 1) (by decide) _).trans
      (withNum_withByte rest (of_decide_eq_true h) v fun i v => .host (.callerStore i v))
  | consumerLoad i =>
    exact (decode_host (code := 2) (by decide) _).trans
      (withNum_encodeNum (of_decide_eq_true h) rest fun i => .host (.consumerLoad i))
  | consumerStore i v =>
    exact (decode_host (code := 3) (by decide) _).trans
      (withNum_withByte rest (of_decide_eq_true h) v fun i v => .host (.consumerStore i v))

end Sys2Proof
end

section
/-! CERTIFICATE. The records of the stimulus stream (30 R89 to R91; log 2). -/

open Sys2Proof Sys2Proof.Machine

/-- Settles O55: one record per constructor, its first byte and then its operands. -/
theorem decodeReadsEncodedRecords : Obligations.DecodeReadsEncodedRecords := by
  unfold Obligations.DecodeReadsEncodedRecords
  exact ⟨fun _ rest h => decode_encode h rest, fun _ rest h => decode_encodeHost h rest⟩

/-- Settles O53: the operation decoder has no case for such a code, and the step refuses what it reads. -/
theorem unlistedCodesAreRefused : Obligations.UnlistedCodesAreRefused := by
  unfold Obligations.UnlistedCodesAreRefused
  intro w rest s hw
  have hread : decode (BitVec.ofNat 8 w :: rest) = .reserved w := decode_of_unlisted hw rest
  exact ⟨hread, fun hadmitted => step_of_reserved hadmitted hread⟩

/-- Settles O54: each is the record that the encoder writes for its operation. -/
theorem writtenRecordsDecode : Obligations.WrittenRecordsDecode := by
  unfold Obligations.WrittenRecordsDecode
  exact ⟨decode_encode (i := .classify 75) (by decide) [], decode_encode (i := .rdPulse 1100) (by decide) [],
    decode_encode (i := .wrExpiry 1100) (by decide) [0x34#8], decode_encode (i := .lkService) rfl [],
    decode_encode (i := .symPreamble) rfl []⟩

end

section
/-! SUPPORT. The wire's symbols by what the Reader awaits (30 R80, R81, R88; log 13, 14). -/

namespace Sys2Proof.Machine

open Sys2Proof

/-- A valid interval in `AwaitingHeaderEnd` is a header bit (41 R113, 30 R81). -/
theorem pulse_of_header_bit {t : Time} {s : State} {b : Bool} (hahe : s.rd.state = .ahe)
    (hb : classify s.cfg (elapsed s.cfg s.rd.lastTs t) = if b then .one else .zero) :
    pulse t s = acceptHeaderBit b t s := by
  have hbit : bitOf (if b then .one else .zero) = some b := by cases b <;> rfl
  simp only [pulse, hahe, pulseAhe, hb, hbit]

/-- A bit that does not complete its field is shifted into it (41 R113, R114, R116). -/
theorem pulse_of_incomplete_field {t : Time} {s : State} {b : Bool}
    (hfield : (s.rd.state = .ahe ∧ s.rd.bitCursor.toNat < 5) ∨ (s.rd.state = .adb ∧ s.rd.bitCursor.toNat < 7))
    (hb : classify s.cfg (elapsed s.cfg s.rd.lastTs t) = if b then .one else .zero) :
    pulse t s = s.setRd { s.rd with asm := accumulate s.rd.asm b, bitCursor := s.rd.bitCursor + 1,
                                    lastTs := time s.cfg t } := by
  rcases hfield with ⟨hahe, hcursor⟩ | ⟨hadb, hcursor⟩
  · have hmore : s.rd.bitCursor.toNat + 1 ≠ 6 := by omega
    rw [pulse_of_header_bit hahe hb, acceptHeaderBit, if_neg hmore]
  · have hmore : s.rd.bitCursor.toNat + 1 ≠ 8 := by omega
    rw [pulse_of_data_bit hadb hb, acceptDataBit, if_neg hmore]

/-- A preamble interval after a start candidate opens the header (41 R112). -/
theorem pulse_of_preamble {t : Time} {s : State} (hape : s.rd.state = .ape)
    (hp : isPreamble s.cfg (elapsed s.cfg s.rd.lastTs t) = true) :
    pulse t s = s.setRd { s.rd with byteCursor := 0, bitCursor := 0, asm := 0, lastTs := time s.cfg t,
                                    state := .ahe } := by
  simp only [pulse, hape, pulseApe, if_pos hp]

theorem isPreamble_of_no_window {c : Cfg} {d : Time} (h : matchesNoWindow c d = true) :
    isPreamble c d = false := by
  obtain ⟨-, hpre⟩ : (inZero c d = false ∧ inOne c d = false) ∧ inPre c d = false := by
    simpa [matchesNoWindow] using h
  exact hpre

/-- An interval in no window resynchronises silently before the data (41 R112, R113; 30 R88). -/
theorem pulse_of_no_window_before_data {t : Time} {s : State} (hs : s.rd.state = .ahe ∨ s.rd.state = .ape)
    (h : matchesNoWindow s.cfg (elapsed s.cfg s.rd.lastTs t) = true) : pulse t s = resync t s := by
  rcases hs with hahe | hape
  · simp only [pulse, hahe, pulseAhe, bitOf_classify_of_no_window h]
  · simp only [pulse, hape, pulseApe, isPreamble_of_no_window h, Bool.false_eq_true, if_false]

/-- In the data it loses the packet, with the start timestamp of before the resynchronisation (41 R114). -/
theorem pulse_of_no_window_in_data {t : Time} {s : State} (hadb : s.rd.state = .adb)
    (h : matchesNoWindow s.cfg (elapsed s.cfg s.rd.lastTs t) = true) :
    pulse t s = resync t (raise (.lost s.rd.startTs) s) := by
  simp only [pulse, hadb, pulseAdb, bitOf_classify_of_no_window h]

end Sys2Proof.Machine
end

section
/-! CERTIFICATE. The wire's symbols (30 R80, R81, R84, R85, R88; log 13, 14). -/

open Sys2Proof Sys2Proof.Machine

/-- Settles O36: each nominal interval is measured exactly, so the pulse is the bit of its symbol. -/
theorem wireBitsAreAssembled : Obligations.WireBitsAreAssembled := by
  unfold Obligations.WireBitsAreAssembled
  intro s
  refine ⟨rfl, rfl, fun ⟨hzero, hone, _, hltZero, hltOne, _⟩ hfield => ⟨?zero, ?one⟩⟩
  case zero =>
    refine congrArg Host.Outcome.next (pulse_of_incomplete_field (b := false) hfield ?_)
    exact (congrArg (classify s.cfg) (elapsed_add s.rd.lastTs hltZero)).trans hzero
  case one =>
    refine congrArg Host.Outcome.next (pulse_of_incomplete_field (b := true) hfield ?_)
    exact (congrArg (classify s.cfg) (elapsed_add s.rd.lastTs hltOne)).trans hone

/-- Settles O37: an interval below the wrap is measured exactly, so its windows decide what the pulse does. -/
theorem wirePreambleAndInvalid : Obligations.WirePreambleAndInvalid := by
  unfold Obligations.WirePreambleAndInvalid
  intro d s hd
  refine ⟨rfl, fun ⟨_, _, hpre, _, _, hltPre⟩ hape => ?preamble, fun hnone => ?invalid⟩
  case preamble =>
    refine congrArg Host.Outcome.next (pulse_of_preamble hape ?_)
    exact (congrArg (isPreamble s.cfg) (elapsed_add s.rd.lastTs hltPre)).trans hpre
  case invalid =>
    intro t
    have hrun : exec (.symInvalid d) s = .next (pulse (s.rd.lastTs + d) s) := by
      rw [exec, execSymInvalid, time_eq_self hd, if_pos hnone, closeInterval_eq]
    have hmeasured : matchesNoWindow s.cfg (elapsed s.cfg s.rd.lastTs (s.rd.lastTs + d)) = true := by
      rwa [elapsed_add s.rd.lastTs hd]
    exact ⟨hrun, fun hs => hrun.trans (congrArg Host.Outcome.next (pulse_of_no_window_before_data hs hmeasured)),
      fun hadb => hrun.trans (congrArg Host.Outcome.next (pulse_of_no_window_in_data hadb hmeasured))⟩

end

section
/-! SUPPORT. What every step keeps of the records around the device: the configuration and the outputs so far
(40 R105, 10 R21). -/

namespace Sys2Proof.Machine

open Sys2Proof

/-- `u` runs under the configuration of `s` and its trace goes on from the trace of `s`. -/
def Extends (s u : State) : Prop := u.cfg = s.cfg ∧ s.trace <+: u.trace

theorem Extends.refl (s : State) : Extends s s := ⟨rfl, [], List.append_nil _⟩

/-- The one way in which the trace changes. -/
theorem Extends.emit {s u : State} (h : Extends s u) (os : List Output) : Extends s (u.emit os) :=
  ⟨h.1, h.2.trans ⟨os, rfl⟩⟩

section
variable {s u : State}

theorem Extends.raise (h : Extends s u) (g : Signal) : Extends s (raise g u) := h.emit [.raised g]

theorem Extends.consume (h : Extends s u) (g : Signal) : Extends s (consume g u) := h.emit [.callback g]

theorem Extends.scheduleAfter (h : Extends s u) (d : Time) : Extends s (scheduleAfter d u) :=
  h.emit [.timerSchedule d]

theorem Extends.cancelTimer (h : Extends s u) : Extends s (cancelTimer u) := h.emit [.timerCancel]

theorem Extends.emitPulse (h : Extends s u) (now : Time) : Extends s (emitPulse now u) :=
  h.emit [.pulse (time u.cfg now)]

theorem Extends.storeRbuf (h : Extends s u) (i : Nat) (v : Byte) : Extends s (storeRbuf i v u) := by
  rw [storeRbuf_eq]
  exact h

theorem Extends.finishByte (h : Extends s u) (t : Time) : Extends s (finishByte t u) := by
  rcases finishByte_cases t u with ⟨-, e⟩ | ⟨-, e⟩ <;> rw [e]
  · exact Extends.raise (u := u.setRd _) h _
  · exact h

/-- A pulse raises a signal or writes the Reader's fields and `RBUF` alone (41 R110). -/
theorem Extends.pulse (h : Extends s u) (t : Time) : Extends s (pulse t u) := by
  rcases pulse_cases t u with ⟨-, e⟩ | ⟨-, e⟩ | ⟨-, e⟩ | ⟨-, -, e⟩ | ⟨-, b, -, e⟩ | ⟨-, e⟩ <;> rw [e]
  · exact h
  · unfold pulseApe
    split <;> exact h
  · unfold pulseAhe
    split
    · exact h
    · obtain ⟨r, hr⟩ := acceptHeaderBit_eq _ t u
      rw [hr]
      exact h
  · exact h.raise (.lost u.rd.startTs)
  · rcases acceptDataBit_cases b t u with ⟨-, e⟩ | ⟨-, e⟩ <;> rw [e]
    · exact (h.storeRbuf _ _).finishByte t
    · exact h
  · exact h

/-- An expiry that passes the gate emits its pulse, then asks the Timer Service or completes (42 R142). -/
theorem Extends.expiry (h : Extends s u) (now : Time) : Extends s (expiry now u) := by
  have hpulse : Extends s (Machine.emitPulse now (fireTimer u)) := Extends.emitPulse (u := fireTimer u) h now
  have hask (n : Nat) (d : Time) :
      Extends s (Machine.scheduleAfter d ((Machine.emitPulse now (fireTimer u)).setFree n)) :=
    Extends.scheduleAfter (u := (Machine.emitPulse now (fireTimer u)).setFree n) hpulse d
  rcases expiry_cases now u with ⟨-, e⟩ | ⟨-, ⟨-, e⟩ | ⟨-, e⟩ | ⟨-, e⟩⟩ <;> rw [e]
  · exact h
  · unfold expirySh
    obtain ⟨n, hn⟩ := drawIfBeyondHeader_eq (Machine.emitPulse now (fireTimer u))
    rw [hn]
    exact hask n _
  · unfold expirySd
    obtain ⟨n, hn⟩ := drawIfAbsent_eq (Machine.emitPulse now (fireTimer u)).wr.byteCursor.toNat
      (Machine.emitPulse now (fireTimer u))
    dsimp only
    rw [hn]
    exact hask n _
  · exact Extends.cancelTimer (u := (Machine.raise .sent _).setWr _) (hpulse.raise .sent)

theorem Extends.acceptSend (h : Extends s u) (buffer : List Byte) (length : Nat) (now : Time) :
    Extends s (acceptSend buffer length now u) :=
  (Extends.emitPulse (u := (u.setWbuf _).setWr _) h now).scheduleAfter _

theorem Extends.readerStart (h : Extends s u) (now : Time) : Extends s (readerStart now u) := by
  obtain ⟨r, hr⟩ := readerStart_eq now u
  rw [hr]
  exact h

theorem Extends.writerStart (h : Extends s u) (now : Time) : Extends s (writerStart now u) := by
  obtain ⟨w, hw⟩ := writerStart_eq now u
  rw [hw]
  exact h

theorem Extends.writerStop (h : Extends s u) : Extends s (writerStop u) :=
  Extends.cancelTimer (u := u.setWr _) h

end

/-- No instruction changes the configuration or takes back an output (40 R105). -/
theorem exec_extends {i : Instr} {s u : State} (h : exec i s = .next u) : Extends s u := by
  have hs := Extends.refl s
  cases i with
  | classify _ | ispreamble _ | interval _ | rdHasincoming | rdIsblanking | rdCansend _ _ | lkCansend _ =>
    cases h; exact hs.emit _
  | rdStop | rdRestore _ | rdBlank | lkRestore => cases h; exact hs
  | rdPulse _ | symZero | symOne | symPreamble | symInvalid _ | frame _ _ =>
    exact exec_pulses_induct (P := Extends s) (fun t _ hv => hv.pulse t) rfl h hs
  | rdStart now => cases h; exact hs.readerStart now
  | rdWatchdog now =>
    rcases execRdWatchdog_next h with ⟨-, rfl⟩ | rfl
    · exact hs.raise (.lost s.rd.startTs)
    · exact hs
  | wrStart now => cases h; exact hs.writerStart now
  | wrStop => cases h; exact hs.writerStop
  | wrSend buffer length now =>
    rcases execWrSend_cases buffer length now s with ⟨-, e⟩ | ⟨-, e⟩ | e <;> cases e.symm.trans h
    · exact (hs.acceptSend buffer length now).emit _
    · exact hs.emit _
  | wrExpiry now => cases h; exact hs.expiry now
  | lkStart now =>
    rcases execLkStart_cases now s with ⟨-, e⟩ | ⟨-, p, rfl, e⟩ <;> cases e.symm.trans h
    · exact hs
    · exact (hs.readerStart now).writerStart now
  | lkStop => cases h; exact hs.writerStop
  | lkSend buffer length now =>
    rcases execLkSend_next h with ⟨-, -, rfl⟩ | rfl
    · have hblank : Extends s (blank (s.setTxBlank true)) := hs
      exact (hblank.acceptSend buffer length now).emit _
    · exact hs.emit _
  | lkService =>
    cases h
    exact service_induct (P := Extends s) (fun g _ hv => hv.consume g) (fun _ hv => hv) hs

/-- Nor does an action of the host; power-on keeps the outputs before it (log 19). -/
theorem hostStep_extends {e : HostEvent} {s u : State} (h : hostStep e s = .next u) : Extends s u := by
  have hs := Extends.refl s
  cases e with
  | powerOn => cases h; exact hs
  | callerStore i v =>
    simp only [hostStep, hostCallerStore] at h
    split at h <;> cases h
    exact hs
  | consumerLoad i =>
    simp only [hostStep, hostConsumerLoad] at h
    split at h
    · split at h <;> cases h <;> exact hs.emit _
    · cases h
  | consumerStore i v =>
    simp only [hostStep, hostConsumerStore] at h
    split at h
    · cases h
    · split at h <;> cases h
      exact hs.storeRbuf i v

theorem step_extends {s u : State} (h : step s = .next u) : Extends s u := by
  rcases step_next_cases h with ⟨i, rest, h⟩ | ⟨e, rest, h⟩ | rfl
  · exact exec_extends (s := s.setStim rest) h
  · exact hostStep_extends (s := s.setStim rest) h
  · exact .refl u

end Sys2Proof.Machine
end

section
/-! CERTIFICATE. The configuration is fixed and the trace only grows (40 R105, 10 R21). -/

open Sys2Proof Sys2Proof.Machine

/-- Settles O47: by what a step can do, each case an extension of the records before it. -/
theorem configurationIsFixed : Obligations.ConfigurationIsFixed := by
  unfold Obligations.ConfigurationIsFixed
  intro s u h
  obtain ⟨hcfg, os, htrace⟩ := step_extends h
  exact ⟨hcfg, os, htrace.symm⟩

end

section
/-! SUPPORT. The codec by its three open windows (40 R100 to R103). -/

namespace Sys2Proof.Machine

open Sys2Proof

section
variable {c : Cfg} {d : Time}

/-! ## The windows (40 R100) -/

theorem insideWindow_eq_decide (lo hi d : Time) : insideWindow lo hi d = decide (lo < d ∧ d < hi) :=
  (Bool.decide_and _ _).symm

theorem inZero_eq_decide (c : Cfg) (d : Time) :
    inZero c d = decide (c.tZero - c.tol < d ∧ d < c.tZero + c.tol) := insideWindow_eq_decide _ _ _

theorem inOne_eq_decide (c : Cfg) (d : Time) :
    inOne c d = decide (c.tOne - c.tol < d ∧ d < c.tOne + c.tol) := insideWindow_eq_decide _ _ _

theorem inPre_eq_decide (c : Cfg) (d : Time) :
    inPre c d = decide (c.tPre - c.tol < d ∧ d < c.tPre + c.tol) := insideWindow_eq_decide _ _ _

/-! ## The answers, one equation per case (40 R101, R102) -/

theorem classify_of_zero (hz : inZero c d = true) (ho : inOne c d = false) : classify c d = .zero := by
  simp only [classify, hz, ho]

theorem classify_of_one (hz : inZero c d = false) (ho : inOne c d = true) : classify c d = .one := by
  simp only [classify, hz, ho]

theorem classify_of_both (hz : inZero c d = true) (ho : inOne c d = true) : classify c d = c.overlapZO := by
  simp only [classify, hz, ho]

theorem classify_of_neither (hz : inZero c d = false) (ho : inOne c d = false) : classify c d = .invalid := by
  simp only [classify, hz, ho]

/-- A row of the table of 40 R106: the three windows, the classification that they give, and the preamble. -/
theorem row_of_windows {z o p : Bool} {r : BitSymbol} (hz : inZero c d = z) (ho : inOne c d = o)
    (hp : inPre c d = p) (hr : inZero c d = z → inOne c d = o → classify c d = r) :
    (inZero c d, inOne c d, inPre c d, classify c d, isPreamble c d) = (z, o, p, r, p) := by
  rw [hr hz ho, isPreamble, hz, ho, hp]

end

/-! ## The windows under the default literals (00 R6, 40 R106) -/

section
variable {c : Cfg}

theorem inZero_of_literals (hzero : c.tZero = 50) (htol : c.tol = 14) (d : Nat) :
    inZero c d = decide (36 < d ∧ d < 64) := by
  rw [inZero_eq_decide, hzero, htol]

theorem inOne_of_literals (hone : c.tOne = 75) (htol : c.tol = 14) (d : Nat) :
    inOne c d = decide (61 < d ∧ d < 89) := by
  rw [inOne_eq_decide, hone, htol]

theorem inPre_of_literals (hpre : c.tPre = 100) (htol : c.tol = 14) (d : Nat) :
    inPre c d = decide (86 < d ∧ d < 114) := by
  rw [inPre_eq_decide, hpre, htol]

end

/-! ## The operations, on an operand that is a reading of the counter -/

theorem exec_classify {d : Time} {s : State} (hd : d < 2 ^ s.cfg.tsw) :
    exec (.classify d) s = .next (s.emit [.retSymbol (classify s.cfg d)]) := by
  rw [exec, execClassify, time_eq_self hd]

theorem exec_ispreamble {d : Time} {s : State} (hd : d < 2 ^ s.cfg.tsw) :
    exec (.ispreamble d) s = .next (s.emit [.retBool (isPreamble s.cfg d)]) := by
  rw [exec, execIspreamble, time_eq_self hd]

end Sys2Proof.Machine
end

section
/-! CERTIFICATE. CODEC, the interval classifier (40 R101 to R107). -/

open Sys2Proof Sys2Proof.Machine

/-- Settles O1: each clause is the classifier's equation for that pair of windows. -/
theorem classifyFollowsItsWindows : Obligations.ClassifyFollowsItsWindows := by
  unfold Obligations.ClassifyFollowsItsWindows
  intro d s hd z o
  have inz (hz : z) : inZero s.cfg d = true := (inZero_eq_decide s.cfg d).trans (decide_eq_true hz)
  have outz (hz : ¬ z) : inZero s.cfg d = false := (inZero_eq_decide s.cfg d).trans (decide_eq_false hz)
  have ino (ho : o) : inOne s.cfg d = true := (inOne_eq_decide s.cfg d).trans (decide_eq_true ho)
  have outo (ho : ¬ o) : inOne s.cfg d = false := (inOne_eq_decide s.cfg d).trans (decide_eq_false ho)
  exact ⟨classify s.cfg d, exec_classify hd, fun hz ho => classify_of_zero (inz hz) (outo ho),
    fun ho hz => classify_of_one (outz hz) (ino ho), fun hz ho => classify_of_both (inz hz) (ino ho),
    fun hz ho => classify_of_neither (outz hz) (outo ho)⟩

/-- Settles O2: the preamble window decides the one answer, the nominal interval is the other. -/
theorem isPreambleAndIntervalAnswer : Obligations.IsPreambleAndIntervalAnswer := by
  unfold Obligations.IsPreambleAndIntervalAnswer
  intro d s
  refine ⟨fun hd => ?ispreamble, rfl, rfl, rfl⟩
  case ispreamble =>
    rw [exec_ispreamble hd, isPreamble, inPre_eq_decide]
    rfl

/-- Settles O3: in each row the literals place the duration inside or outside each window, and the row
follows. -/
theorem classificationTable : Obligations.ClassificationTable := by
  unfold Obligations.ClassificationTable
  intro c (d : Nat) hzero hone hpre htol row
  have hz := inZero_of_literals hzero htol d
  have ho := inOne_of_literals hone htol d
  have hp := inPre_of_literals hpre htol d
  refine ⟨fun (hhi : d ≤ 36) => ?below, fun (hlo : 37 ≤ d) (hhi : d ≤ 61) => ?zero,
    fun (hlo : 62 ≤ d) (hhi : d ≤ 63) => ?zeroOne, fun (hlo : 64 ≤ d) (hhi : d ≤ 86) => ?one,
    fun (hlo : 87 ≤ d) (hhi : d ≤ 88) => ?onePreamble, fun (hlo : 89 ≤ d) (hhi : d ≤ 113) => ?preamble,
    fun (hlo : 114 ≤ d) => ?above⟩
  case below =>
    exact row_of_windows (hz.trans (decide_eq_false (by omega))) (ho.trans (decide_eq_false (by omega)))
      (hp.trans (decide_eq_false (by omega))) classify_of_neither
  case zero =>
    exact row_of_windows (hz.trans (decide_eq_true (by omega))) (ho.trans (decide_eq_false (by omega)))
      (hp.trans (decide_eq_false (by omega))) classify_of_zero
  case zeroOne =>
    exact row_of_windows (hz.trans (decide_eq_true (by omega))) (ho.trans (decide_eq_true (by omega)))
      (hp.trans (decide_eq_false (by omega))) classify_of_both
  case one =>
    exact row_of_windows (hz.trans (decide_eq_false (by omega))) (ho.trans (decide_eq_true (by omega)))
      (hp.trans (decide_eq_false (by omega))) classify_of_one
  case onePreamble =>
    exact row_of_windows (hz.trans (decide_eq_false (by omega))) (ho.trans (decide_eq_true (by omega)))
      (hp.trans (decide_eq_true (by omega))) classify_of_one
  case preamble =>
    exact row_of_windows (hz.trans (decide_eq_false (by omega))) (ho.trans (decide_eq_false (by omega)))
      (hp.trans (decide_eq_true (by omega))) classify_of_neither
  case above =>
    exact row_of_windows (hz.trans (decide_eq_false (by omega))) (ho.trans (decide_eq_false (by omega)))
      (hp.trans (decide_eq_false (by omega))) classify_of_neither

/-- Settles O4: an interval within the margin of its symbol lies in that symbol's window alone; the widened
range of `Zero` adds the overlap, which `OVERLAP_ZO` decides. -/
theorem codecRoundTripAndMargins : Obligations.CodecRoundTripAndMargins := by
  unfold Obligations.CodecRoundTripAndMargins
  intro c e hzero hone hpre htol
  have hz := inZero_of_literals hzero htol
  have ho := inOne_of_literals hone htol
  have zero {d : Nat} (hlo : 37 ≤ d) (hhi : d ≤ 61) : classify c d = .zero :=
    classify_of_zero ((hz d).trans (decide_eq_true (by omega))) ((ho d).trans (decide_eq_false (by omega)))
  have one {d : Nat} (hlo : 64 ≤ d) (hhi : d ≤ 88) : classify c d = .one :=
    classify_of_one ((hz d).trans (decide_eq_false (by omega))) ((ho d).trans (decide_eq_true (by omega)))
  have both {d : Nat} (hlo : 62 ≤ d) (hhi : d ≤ 63) : classify c d = c.overlapZO :=
    classify_of_both ((hz d).trans (decide_eq_true (by omega))) ((ho d).trans (decide_eq_true (by omega)))
  have preamble {d : Nat} (hlo : 87 ≤ d) (hhi : d ≤ 113) : isPreamble c d = true :=
    (inPre_of_literals hpre htol d).trans (decide_eq_true (by omega))
  refine ⟨⟨?nominalZero, ?nominalOne, ?nominalPreamble⟩, fun hlo hhi => zero (by omega) (by omega),
    fun hlo hhi => one (by omega) (by omega), fun hlo hhi => preamble (by omega) (by omega),
    fun hoverlap hlo hhi => ?widened⟩
  case nominalZero => exact (congrArg (classify c) hzero).trans (zero (d := 50) (by omega) (by omega))
  case nominalOne => exact (congrArg (classify c) hone).trans (one (d := 75) (by omega) (by omega))
  case nominalPreamble => exact (congrArg (isPreamble c) hpre).trans (preamble (d := 100) (by omega) (by omega))
  case widened =>
    by_cases hmargin : e ≤ 11
    · exact zero (by omega) (by omega)
    · exact (both (by omega) (by omega)).trans hoverlap

end

section
/-! SUPPORT. The assembly register reads a field most significant bit first (41 R116, 20 R63). -/

namespace Sys2Proof.Machine

open Sys2Proof

/-- The number that bits spell, the most significant first, after those of `n`. -/
def msbFirst (n : Nat) (bits : List Bool) : Nat := bits.foldl (fun n b => 2 * n + b.toNat) n

theorem msbFirst_concat (n : Nat) (bits : List Bool) (b : Bool) :
    msbFirst n (bits ++ [b]) = 2 * msbFirst n bits + b.toNat := List.foldl_append

/-- The assembly register holds the number its bits spell, as long as no bit is shifted out. -/
theorem foldl_accumulate_toNat {a : Byte} {k : Nat} (ha : a.toNat < 2 ^ k) {bits : List Bool}
    (hk : k + bits.length ≤ 8) : (bits.foldl accumulate a).toNat = msbFirst a.toNat bits := by
  induction bits generalizing a k with
  | nil => rfl
  | cons b rest ih =>
    have hlen : k + 1 + rest.length ≤ 8 := by rw [List.length_cons] at hk; omega
    have hb : b.toNat < 2 := Bool.toNat_lt b
    have hroom : 2 ^ (k + 1) ≤ 2 ^ 8 := Nat.pow_le_pow_right (by decide) (by omega)
    have hshift : (accumulate a b).toNat = 2 * a.toNat + b.toNat := by
      rw [accumulate_toNat, Nat.mod_eq_of_lt (by omega)]
    rw [List.foldl_cons, ih (k := k + 1) (by omega) hlen, hshift]
    rfl

/-- The first `k` bits of a field spell its `k` high bits. -/
theorem msbFirst_high_bits {n : Nat} (v : BitVec n) {k : Nat} (hk : k ≤ n) :
    msbFirst 0 ((List.range k).map fun j => v.getLsbD (n - 1 - j)) = v.toNat / 2 ^ (n - k) := by
  induction k with
  | zero => exact (Nat.div_eq_of_lt v.isLt).symm
  | succ k ih =>
    have hbit : (v.getLsbD (n - 1 - k)).toNat = v.toNat / 2 ^ (n - (k + 1)) % 2 := by
      rw [← BitVec.testBit_toNat, Nat.toNat_testBit, Nat.sub_sub, Nat.add_comm 1 k]
    have hhalf : v.toNat / 2 ^ (n - k) = v.toNat / 2 ^ (n - (k + 1)) / 2 := by
      rw [Nat.div_div_eq_div_mul, ← Nat.pow_succ, Nat.succ_eq_add_one, show n - (k + 1) + 1 = n - k by omega]
    rw [List.range_succ, List.map_append, List.map_singleton, msbFirst_concat, ih (by omega), hhalf, hbit]
    exact Nat.div_add_mod _ 2

/-- A field of at most 8 bits that reaches an empty assembly register in wire order is read as its value. -/
theorem foldl_accumulate_bitsMsbFirst {n : Nat} (v : BitVec n) (hn : n ≤ 8) :
    (bitsMsbFirst v).foldl accumulate 0 = v.setWidth 8 := by
  have hvalue := msbFirst_high_bits v le_rfl
  rw [Nat.sub_self, Nat.pow_zero, Nat.div_one] at hvalue
  apply BitVec.eq_of_toNat_eq
  have hlen : 0 + (bitsMsbFirst v).length ≤ 8 := by simpa [bitsMsbFirst] using hn
  rw [foldl_accumulate_toNat (a := 0) (k := 0) Nat.one_pos hlen, BitVec.toNat_setWidth,
    Nat.mod_eq_of_lt (v.isLt.trans_le (Nat.pow_le_pow_right (by decide) hn))]
  exact hvalue

end Sys2Proof.Machine
end

section
/-! CERTIFICATE. The assembly step (41 R116). -/

open Sys2Proof Sys2Proof.Machine

/-- Settles O11: one step by the register's shift, a field by as many steps as leave its first bit in place. -/
theorem assemblyReadsMsbFirst : Obligations.AssemblyReadsMsbFirst := by
  unfold Obligations.AssemblyReadsMsbFirst
  refine ⟨accumulate_toNat, fun bits hlen => ?_⟩
  exact foldl_accumulate_toNat (a := 0) (k := 0) Nat.one_pos (by omega)

end

section
/-! SUPPORT. A train of pulses by the intervals it closes (30 R80 to R82), from the first pulse of a packet to the
last bit of its data. -/

namespace Sys2Proof.Machine

open Sys2Proof

/-- The Reader is in one of the four states that ignore pulses (41 R115). -/
abbrev IgnoresPulses (s : State) : Prop :=
  s.rd.state = .idle ∨ s.rd.state = .ac ∨ s.rd.state = .bl ∨ s.rd.state = .blp

/-! ## A train of pulses as one interval after another -/

/-- The Reader after the pulses that close the given intervals, each measured from the last pulse it processed. -/
def closeIntervals (gaps : List Time) (s : State) : State := gaps.foldl (fun u g => closeInterval g u) s

theorem closeIntervals_append (xs ys : List Time) (s : State) :
    closeIntervals (xs ++ ys) s = closeIntervals ys (closeIntervals xs s) := List.foldl_append

/-- What every pulse keeps, the pulses of a train keep. -/
theorem closeIntervals_induct {P : State → Prop} (hp : ∀ t s, P s → P (pulse t s)) (gaps : List Time)
    {s : State} (hs : P s) : P (closeIntervals gaps s) := by
  induction gaps generalizing s with
  | nil => exact hs
  | cons g rest ih => exact ih (hp _ s hs)

/-- A train of pulses leaves the Writer, the Arbiter and the rest alone (10 R20). -/
theorem closeIntervals_frame (gaps : List Time) (s : State) :
    SameWriter s (closeIntervals gaps s) ∧ SameRest s (closeIntervals gaps s) :=
  closeIntervals_induct (P := fun u => SameWriter s u ∧ SameRest s u)
    (fun t v hv => have hp := pulse_frame t v; ⟨hv.1.trans hp.1, hv.2.trans hp.2⟩) gaps ⟨.refl s, .refl s⟩

/-- A Reader that does not decode ignores a train of pulses (41 R115). -/
theorem closeIntervals_ignored (gaps : List Time) {s : State}
    (hs : IgnoresPulses s) : closeIntervals gaps s = s :=
  closeIntervals_induct (P := fun u => u = s) (fun _ _ hu => by rw [hu, pulse_ignored hs]) gaps rfl

theorem feed_ignored (t : Time) (gaps : List Time) {s : State} (hs : IgnoresPulses s) : feed t gaps s = s :=
  feed_induct (P := fun u => u = s) (fun _ _ hu => by rw [hu, pulse_ignored hs]) rfl

/-- To a Reader that decodes, pulses with gaps are the first one and then the intervals that the gaps are. -/
theorem feed_eq_closeIntervals (gaps : List Time) {t : Time} {s : State} (hs : Decoding s) :
    feed t gaps s = closeIntervals gaps (pulse t s) := by
  induction gaps generalizing t s with
  | nil => rfl
  | cons g rest ih =>
    obtain ⟨hlast, -⟩ := pulse_hears (t := t) hs
    have hnext : pulse (t + g) (pulse t s) = closeInterval g (pulse t s) := by
      refine pulse_congr ?_
      rw [hlast, (pulse_frame t s).2.cfg]
      exact time_add_congr (time_time s.cfg t).symm g
    show feed (t + g) rest (pulse t s) = closeIntervals rest (closeInterval g (pulse t s))
    rcases pulse_decoding (t := t) hs with hdecoding | hac
    · rw [ih hdecoding, hnext]
    · have hignoring : IgnoresPulses (pulse t s) := .inr (.inl hac)
      rw [feed_ignored _ _ hignoring, ← hnext, pulse_ignored hignoring, closeIntervals_ignored _ hignoring]

/-- One `RD.PULSE` after another, at the times of a train, feeds the train (30 R93). -/
theorem runInstrs_pulseTimes (gaps : List Time) (t : Time) (s : State) :
    runInstrs ((pulseTimes s.cfg t gaps).map Instr.rdPulse) s = .next (feed t gaps s) := by
  have hfirst (t : Time) (s : State) : pulse (time s.cfg t) s = pulse t s := pulse_congr (time_time s.cfg t)
  induction gaps generalizing t s with
  | nil => exact congrArg Host.Outcome.next (hfirst t s)
  | cons g rest ih =>
    have hrest := ih (t + g) (pulse t s)
    rw [(pulse_frame t s).2.cfg] at hrest
    show runInstrs ((pulseTimes s.cfg (t + g) rest).map Instr.rdPulse) (pulse (time s.cfg t) s) = _
    rw [hfirst]
    exact hrest

/-! ## Bits -/

/-- Gaps read as two sequences one after the other come one after the other. -/
theorem exists_append_of_forall₂_append {R : Time → Bool → Prop} {gaps : List Time} {xs ys : List Bool}
    (h : List.Forall₂ R gaps (xs ++ ys)) :
    ∃ gs later, List.Forall₂ R gs xs ∧ List.Forall₂ R later ys ∧ gaps = gs ++ later :=
  ⟨_, _, List.forall₂_take_append gaps xs ys h, List.forall₂_drop_append gaps xs ys h,
    (List.take_append_drop _ gaps).symm⟩

/-- The gap is read as the bit (30 R81, 40 R101). -/
abbrev ReadAsBit (c : Cfg) (g : Time) (b : Bool) : Prop :=
  g < 2 ^ c.tsw ∧ classify c g = if b then .one else .zero

/-- How many bits the field has that the Reader is in (30 R84, R85); outside a packet there is none. -/
def fieldBits (st : RdState) : Nat :=
  match st with
  | .ahe => hdrBits
  | .adb => byteBits
  | _ => 0

/-- The pulse that closes an interval read as a bit is measured as that interval. -/
theorem classify_of_readAsBit {s : State} {g : Time} {b : Bool} (h : ReadAsBit s.cfg g b) :
    classify s.cfg (elapsed s.cfg s.rd.lastTs (s.rd.lastTs + g)) = if b then .one else .zero := by
  rw [elapsed_add _ h.1]
  exact h.2

/-- A bit that does not complete its field is assembled (41 R113, R114, R116). -/
theorem closeInterval_of_incomplete_field {g : Time} {b : Bool} {s : State} (hbit : ReadAsBit s.cfg g b)
    (hmore : s.rd.bitCursor.toNat + 1 < fieldBits s.rd.state) :
    closeInterval g s = s.setRd { s.rd with asm := accumulate s.rd.asm b, bitCursor := s.rd.bitCursor + 1,
                                            lastTs := time s.cfg (s.rd.lastTs + g) } := by
  refine pulse_of_incomplete_field ?_ (classify_of_readAsBit hbit)
  cases hs : s.rd.state with
  | ahe => rw [hs] at hmore; exact .inl ⟨rfl, Nat.lt_of_succ_lt_succ hmore⟩
  | adb => rw [hs] at hmore; exact .inr ⟨rfl, Nat.lt_of_succ_lt_succ hmore⟩
  | _ => rw [hs] at hmore; cases hmore

/-- Bits that do not complete their field are assembled one after another. -/
theorem closeIntervals_of_incomplete_field {gaps : List Time} {bits : List Bool} {s : State}
    (hbits : List.Forall₂ (ReadAsBit s.cfg) gaps bits)
    (hmore : s.rd.bitCursor.toNat + bits.length < fieldBits s.rd.state) :
    ∃ last : Time, closeIntervals gaps s = s.setRd { s.rd with
      asm := bits.foldl accumulate s.rd.asm, bitCursor := s.rd.bitCursor + BitVec.ofNat 3 bits.length,
      lastTs := last } := by
  induction bits generalizing gaps s with
  | nil =>
    cases hbits
    exact ⟨s.rd.lastTs, by simp [closeIntervals, State.setRd]⟩
  | cons b rest ih =>
    obtain ⟨g, gs, hbit, hrest, rfl⟩ := List.forall₂_cons_right_iff.1 hbits
    have hsize : fieldBits s.rd.state ≤ 8 := by cases s.rd.state <;> decide
    rw [List.length_cons] at hmore
    have hcursor : (s.rd.bitCursor + 1).toNat = s.rd.bitCursor.toNat + 1 := by bv_omega
    have hsum : s.rd.bitCursor + BitVec.ofNat 3 (rest.length + 1) =
        s.rd.bitCursor + 1 + BitVec.ofNat 3 rest.length := by bv_omega
    have hroom : (s.rd.bitCursor + 1).toNat + rest.length < fieldBits s.rd.state := by omega
    have hfirst := closeInterval_of_incomplete_field hbit (by omega)
    obtain ⟨last, hlast⟩ := ih (s := closeInterval g s) (by rwa [hfirst]) (by rwa [hfirst])
    refine ⟨last, hlast.trans ?_⟩
    rw [hfirst, List.length_cons, hsum]
    rfl

/-- The bits of a whole field lead to a state `p` before its last one, with all before it assembled. -/
theorem closeIntervals_of_field {gaps : List Time} {bits : List Bool} {s : State}
    (hbits : List.Forall₂ (ReadAsBit s.cfg) gaps bits) (hsize : bits.length = fieldBits s.rd.state)
    (hne : bits ≠ []) (hcursor : s.rd.bitCursor = 0) :
    ∃ (p : State) (g : Time) (b : Bool), closeIntervals gaps s = closeInterval g p ∧ ReadAsBit s.cfg g b ∧
      accumulate p.rd.asm b = bits.foldl accumulate s.rd.asm ∧
      p.rd.bitCursor.toNat + 1 = fieldBits s.rd.state ∧
      ∃ asm cursor last, p = s.setRd { s.rd with asm := asm, bitCursor := cursor, lastTs := last } := by
  obtain ⟨before, b, rfl⟩ := (List.eq_nil_or_concat' bits).resolve_left hne
  obtain ⟨gs, lastGap, hbefore, hlastGap, rfl⟩ := exists_append_of_forall₂_append hbits
  obtain ⟨g, -, hbit, ⟨⟩, rfl⟩ := List.forall₂_cons_right_iff.1 hlastGap
  have hsmall : fieldBits s.rd.state ≤ 8 := by cases s.rd.state <;> decide
  rw [List.length_append, List.length_singleton] at hsize
  have hzero : s.rd.bitCursor.toNat = 0 := by rw [hcursor]; rfl
  obtain ⟨last, hlast⟩ := closeIntervals_of_incomplete_field hbefore (by omega)
  refine ⟨_, g, b, (closeIntervals_append gs [g] s).trans (congrArg (closeInterval g) hlast), hbit, ?_, ?_,
    _, _, last, rfl⟩
  · rw [List.foldl_append]
    rfl
  · rw [State.setRd_rd]
    bv_omega

/-! ## The header and the data -/

/-- The last header bit accepted (41 R113): the header value and one is the length, which must be within
`CAPACITY`. -/
theorem acceptHeaderBit_of_last (b : Bool) (t : Time) {s : State} (hlast : s.rd.bitCursor.toNat = 5) :
    acceptHeaderBit b t s =
      if s.cfg.capacity < (accumulate s.rd.asm b).toNat % 64 + 1 then resync t s
      else s.setRd { s.rd with length := BitVec.ofNat 7 ((accumulate s.rd.asm b).toNat % 64 + 1),
                               bitCursor := 0, asm := 0, lastTs := time s.cfg t, state := .adb } := by
  have hlength (a : Byte) : ((a.setWidth 6).setWidth 7 + 1 : BitVec 7) = BitVec.ofNat 7 (a.toNat % 64 + 1) := by
    apply BitVec.eq_of_toNat_eq
    simp
  have hvalue (a : Byte) : (BitVec.ofNat 7 (a.toNat % 64 + 1)).toNat = a.toNat % 64 + 1 := by
    rw [BitVec.toNat_ofNat]
    omega
  have hsix : s.rd.bitCursor.toNat + 1 = hdrBits := by rw [hlast]
  simp only [acceptHeaderBit, if_pos hsix, hlength, hvalue]

/-- The header of a packet read whole (41 R113): a length beyond `CAPACITY` makes its last pulse the candidate of a
new packet, and any other opens the data. -/
theorem closeIntervals_of_header {gaps : List Time} {h : BitVec 6} {s : State}
    (hbits : List.Forall₂ (ReadAsBit s.cfg) gaps (bitsMsbFirst h)) (hahe : s.rd.state = .ahe)
    (hcursor : s.rd.bitCursor = 0) (hasm : s.rd.asm = 0) :
    (s.cfg.capacity < h.toNat + 1 → ∃ r t, r.length = s.rd.length ∧
      closeIntervals gaps s = resync t (s.setRd r)) ∧
    (h.toNat + 1 ≤ s.cfg.capacity → ∃ last, closeIntervals gaps s = s.setRd { s.rd with
      length := BitVec.ofNat 7 (h.toNat + 1), bitCursor := 0, asm := 0, lastTs := last, state := .adb }) := by
  obtain ⟨p, g, b, hread, hbit, hvalue, hlast, asm, cursor, last, hp⟩ :=
    closeIntervals_of_field hbits (by rw [hahe]; rfl) (List.cons_ne_nil _ _) hcursor
  have hstate : p.rd.state = .ahe := by rw [hp]; exact hahe
  have hcfg : p.cfg = s.cfg := by rw [hp]; rfl
  have hheader : (accumulate p.rd.asm b).toNat % 64 = h.toNat := by
    rw [hvalue, hasm, foldl_accumulate_bitsMsbFirst h (by decide), BitVec.toNat_setWidth]
    omega
  have hsixth : p.rd.bitCursor.toNat + 1 = hdrBits := hlast.trans (congrArg fieldBits hahe)
  have haccept := (pulse_of_header_bit hstate (classify_of_readAsBit (hcfg ▸ hbit))).trans
    (acceptHeaderBit_of_last b (p.rd.lastTs + g) (Nat.succ.inj hsixth))
  rw [hheader] at haccept
  rw [hread, closeInterval_eq, haccept, hcfg]
  refine ⟨fun hover => ⟨p.rd, p.rd.lastTs + g, by rw [hp]; rfl, ?_⟩,
    fun hfits => ⟨time s.cfg (p.rd.lastTs + g), ?_⟩⟩
  · rw [if_pos hover, hp]
    rfl
  · rw [if_neg (Nat.not_lt.2 hfits), hp]
    rfl

/-- A byte of the data read whole (41 R114): stored where the byte cursor stands, which then moves. -/
theorem closeIntervals_of_byte {gaps : List Time} {v : Byte} {s : State}
    (hbits : List.Forall₂ (ReadAsBit s.cfg) gaps (bitsMsbFirst v)) (hadb : s.rd.state = .adb)
    (hcursor : s.rd.bitCursor = 0) (hasm : s.rd.asm = 0) :
    ∃ t, closeIntervals gaps s = finishByte t (storeRbuf s.rd.byteCursor.toNat v s) := by
  obtain ⟨p, g, b, hread, hbit, hvalue, hlast, asm, cursor, last, hp⟩ :=
    closeIntervals_of_field hbits (by rw [hadb]; rfl) (List.cons_ne_nil _ _) hcursor
  have hstate : p.rd.state = .adb := by rw [hp]; exact hadb
  have hcfg : p.cfg = s.cfg := by rw [hp]; rfl
  have hbyte : accumulate p.rd.asm b = v := by
    rw [hvalue, hasm, foldl_accumulate_bitsMsbFirst v (by decide), BitVec.setWidth_eq]
  have heighth : p.rd.bitCursor.toNat + 1 = byteBits := hlast.trans (congrArg fieldBits hadb)
  refine ⟨p.rd.lastTs + g, ?_⟩
  rw [hread, closeInterval_eq, pulse_of_data_bit hstate (classify_of_readAsBit (hcfg ▸ hbit)), acceptDataBit,
    hbyte, if_pos heighth, hp]
  simp only [finishByte, storeRbuf_eq]
  rfl

/-- The packet whose data the Reader awaits in `s`, from the byte at `k` on, is held in `u`: its bytes stored, no
other changed, and `Received` raised with its start and its length (41 R114). -/
structure Completes (k : Nat) (bytes : List Byte) (s u : State) : Prop where
  state : u.rd.state = .ac
  start : u.rd.startTs = s.rd.startTs
  length : u.rd.length = s.rd.length
  stored : ∀ i < bytes.length, u.rbuf.read (k + i) = bytes[i]?
  kept : ∀ i, i < k ∨ k + bytes.length ≤ i → u.rbuf.read i = s.rbuf.read i
  received : u.sig.receivedFlag = true ∧ u.sig.receivedTs = s.rd.startTs ∧ u.sig.receivedLen = s.rd.length

/-- The data of a packet read whole, by induction over the bytes still to come. -/
theorem closeIntervals_of_data {gaps : List Time} {bytes : List Byte} {s : State}
    (hbits : List.Forall₂ (ReadAsBit s.cfg) gaps (bytes.flatMap bitsMsbFirst)) (hne : bytes ≠ [])
    (hadb : s.rd.state = .adb) (hcursor : s.rd.bitCursor = 0) (hasm : s.rd.asm = 0)
    (hlength : s.rd.byteCursor.toNat + bytes.length = s.rd.length.toNat)
    (hfits : s.rd.length.toNat ≤ s.cfg.capacity) :
    Completes s.rd.byteCursor.toNat bytes s (closeIntervals gaps s) := by
  induction bytes generalizing gaps s with
  | nil => exact absurd rfl hne
  | cons v rest ih =>
    obtain ⟨gs, later, hv, hrest, rfl⟩ := exists_append_of_forall₂_append hbits
    obtain ⟨t, hbyte⟩ := closeIntervals_of_byte hv hadb hcursor hasm
    rw [List.length_cons] at hlength
    have hstore := storeRbuf_eq s.rd.byteCursor.toNat v s
    rw [if_pos (by omega)] at hstore
    rw [hstore] at hbyte
    rw [closeIntervals_append, hbyte]
    rcases finishByte_cases t (s.setRbuf (s.rbuf.write s.rd.byteCursor.toNat v)) with ⟨hlast, e⟩ | ⟨hmore, e⟩
    · obtain rfl : rest = [] := List.eq_nil_of_length_eq_zero (by rw [State.setRbuf_rd] at hlast; omega)
      cases hrest
      rw [e]
      refine ⟨rfl, rfl, rfl, fun i hi => ?_, fun i hi => ?_, rfl, rfl, rfl⟩
      · obtain rfl : i = 0 := Nat.lt_one_iff.1 hi
        exact Memory.read_write_same ..
      · rw [List.length_singleton] at hi
        exact Memory.read_write_other _ _ (by omega)
    · have hcons : rest ≠ [] := by
        rintro rfl
        exact hmore hlength
      rw [e]
      have hlater := List.length_pos_iff.2 hcons
      have hnext : (s.rd.byteCursor + 1).toNat = s.rd.byteCursor.toNat + 1 := by bv_omega
      have hdone := ih (gaps := later) (s := (s.setRbuf (s.rbuf.write s.rd.byteCursor.toNat v)).setRd
        { s.rd with byteCursor := s.rd.byteCursor + 1, bitCursor := 0, asm := 0, lastTs := time s.cfg t })
        hrest hcons hadb rfl rfl (by simp only [State.setRd_rd, hnext]; omega) hfits
      rw [State.setRd_rd, hnext] at hdone
      refine ⟨hdone.state, hdone.start, hdone.length, fun i hi => ?_, fun i hi => ?_, hdone.received⟩
      · cases i with
        | zero => exact (hdone.kept _ (.inl (Nat.lt_succ_self _))).trans (Memory.read_write_same ..)
        | succ i =>
          rw [Nat.add_comm i 1, ← Nat.add_assoc, Nat.add_comm 1 i]
          exact hdone.stored i (Nat.lt_of_succ_lt_succ hi)
      · rw [List.length_cons] at hi
        exact (hdone.kept i (by omega)).trans (Memory.read_write_other _ _ (by omega))

/-! ## A frame -/

/-- The header of a frame of `L` bytes holds `L - 1` (30 R84). -/
theorem headerOf_toNat {n : Nat} (hpos : 1 ≤ n) (hbound : n ≤ 64) :
    (headerOf (BitVec.ofNat 7 n)).toNat + 1 = n := by
  rw [headerOf, BitVec.toNat_setWidth]
  bv_omega

/-- From a start candidate, the gaps of a frame lead to its data, or beyond `CAPACITY` to a new candidate, at the last
bit of its header. -/
theorem closeIntervals_of_preamble_and_header {preamble : Time} {gaps : List Time} {h : BitVec 6} {s : State}
    (hpre : preamble < 2 ^ s.cfg.tsw ∧ isPreamble s.cfg preamble = true)
    (hbits : List.Forall₂ (ReadAsBit s.cfg) gaps (bitsMsbFirst h)) (hape : s.rd.state = .ape) :
    (s.cfg.capacity < h.toNat + 1 → ∃ r t, r.length = s.rd.length ∧
      closeIntervals (preamble :: gaps) s = resync t (s.setRd r)) ∧
    (h.toNat + 1 ≤ s.cfg.capacity → ∃ last, closeIntervals (preamble :: gaps) s = s.setRd { s.rd with
      length := BitVec.ofNat 7 (h.toNat + 1), byteCursor := 0, bitCursor := 0, asm := 0, lastTs := last,
      state := .adb }) := by
  have hopens := pulse_of_preamble (t := s.rd.lastTs + preamble) hape (by rw [elapsed_add _ hpre.1]; exact hpre.2)
  have hheader := closeIntervals_of_header (s := s.setRd { s.rd with
    byteCursor := 0, bitCursor := 0, asm := 0, lastTs := time s.cfg (s.rd.lastTs + preamble), state := .ahe })
    hbits rfl rfl rfl
  rw [show closeIntervals (preamble :: gaps) s = _ from congrArg (closeIntervals gaps) hopens]
  exact hheader

/-- The first pulse that a Reader awaiting a packet hears is the candidate of one (41 R111). -/
theorem pulse_of_awaiting (t : Time) {s : State} (haps : s.rd.state = .aps) : pulse t s = resync t s := by
  simp only [pulse, haps, pulseAps, resync]

/-- A pulse is the candidate of a new packet to a Reader that awaits one, and to a decoding Reader if the interval
before it matches no window; a packet lost by it was in its data (41 R111 to R114, R117). -/
theorem pulse_of_candidate {t : Time} {s : State} (hs : s.rd.state = .aps ∨
    (Decoding s ∧ matchesNoWindow s.cfg (elapsed s.cfg s.rd.lastTs t) = true)) :
    pulse t s = resync t s ∨ pulse t s = resync t (raise (.lost s.rd.startTs) s) := by
  rcases hs with haps | ⟨haps | hape | hahe | hadb, hquiet⟩
  · exact .inl (pulse_of_awaiting t haps)
  · exact .inl (pulse_of_awaiting t haps)
  · exact .inl (pulse_of_no_window_before_data (.inr hape) hquiet)
  · exact .inl (pulse_of_no_window_before_data (.inl hahe) hquiet)
  · exact .inr (pulse_of_no_window_in_data hadb hquiet)

/-- From a start candidate, the gaps of a frame within `CAPACITY` give the Reader its bytes. -/
theorem closeIntervals_of_frame {preamble : Time} {gaps : List Time} {bytes : List Byte} {s : State}
    (hread : ReadAsFrame s.cfg preamble gaps bytes) (hape : s.rd.state = .ape) (hpos : 1 ≤ bytes.length)
    (hfits : bytes.length ≤ s.cfg.capacity) (hbound : bytes.length ≤ 64) :
    ∃ d : State, d.rd.startTs = s.rd.startTs ∧ d.rd.length.toNat = bytes.length ∧ d.rbuf = s.rbuf ∧
      Completes 0 bytes d (closeIntervals (preamble :: gaps) s) := by
  obtain ⟨hpre, hbits⟩ := hread
  obtain ⟨gs, later, hheader, hdata, rfl⟩ := exists_append_of_forall₂_append hbits
  have hlength := headerOf_toNat hpos hbound
  obtain ⟨last, hopen⟩ := (closeIntervals_of_preamble_and_header hpre hheader hape).2 (by rwa [hlength])
  rw [← List.cons_append, closeIntervals_append, hopen, hlength]
  have hvalue : (BitVec.ofNat 7 bytes.length).toNat = bytes.length := by
    rw [BitVec.toNat_ofNat]
    omega
  generalize hd : s.setRd _ = d
  have hcfg : d.cfg = s.cfg := by rw [← hd]; rfl
  have hdlength : d.rd.length.toNat = bytes.length := by rw [← hd]; exact hvalue
  have hcursor : d.rd.byteCursor.toNat = 0 := by rw [← hd]; rfl
  have hdone := closeIntervals_of_data (s := d) (by rwa [hcfg]) (List.ne_nil_of_length_pos hpos) (by rw [← hd]; rfl)
    (by rw [← hd]; rfl) (by rw [← hd]; rfl) (by omega) (by rwa [hdlength, hcfg])
  rw [hcursor] at hdone
  exact ⟨d, by rw [← hd]; rfl, hdlength, by rw [← hd]; rfl, hdone⟩

/-- A train of pulses read as a frame within `CAPACITY` is received by a Reader that takes its first pulse as the
candidate (41 R127 item 1, R128). -/
theorem packetReceived_of_frame {t preamble : Time} {gaps : List Time} {bytes : List Byte} {s : State}
    (hs : s.rd.state = .aps ∨ (Decoding s ∧ matchesNoWindow s.cfg (elapsed s.cfg s.rd.lastTs t) = true))
    (hread : ReadAsFrame s.cfg preamble gaps bytes) (hpos : 1 ≤ bytes.length)
    (hfits : bytes.length ≤ s.cfg.capacity) (hbound : bytes.length ≤ 64) :
    PacketReceived (time s.cfg t) bytes s (feed t (preamble :: gaps) s) := by
  have hdecoding : Decoding s := hs.elim .inl And.left
  have hcandidate : (pulse t s).rd.state = .ape ∧
      (pulse t s).rd.startTs = time s.cfg t ∧ (pulse t s).rbuf = s.rbuf := by
    rcases pulse_of_candidate hs with e | e <;> rw [e]
    · exact ⟨rfl, rfl, rfl⟩
    · exact ⟨rfl, rfl, rfl⟩
  obtain ⟨hape, hstart, hrbuf⟩ := hcandidate
  obtain ⟨hwriter, hrest⟩ := pulse_frame t s
  obtain ⟨hwriter', hrest'⟩ := closeIntervals_frame (preamble :: gaps) (pulse t s)
  obtain ⟨d, hdstart, hdlength, hdrbuf, hdone⟩ := closeIntervals_of_frame (s := pulse t s)
    (by rwa [hrest.cfg]) hape hpos (by rwa [hrest.cfg]) hbound
  obtain ⟨hflag, hts, hlen⟩ := hdone.received
  rw [feed_eq_closeIntervals _ hdecoding]
  exact ⟨hdone.state, hdone.start.trans (hdstart.trans hstart), (congrArg _ hdone.length).trans hdlength,
    fun i hi => (congrArg _ (Nat.zero_add i).symm).trans (hdone.stored i hi),
    fun i hi => (hdone.kept i (.inr (by omega))).trans (by rw [hdrbuf, hrbuf]),
    hflag, hts.trans (hdstart.trans hstart), hlen.trans hdone.length.symm, (hwriter.trans hwriter').wr,
    (hwriter.trans hwriter').wbuf, (hwriter.trans hwriter').tmr, (hrest.trans hrest').txBlank⟩

/-- Under a codec that reads what it writes, the nominal gaps of a frame are read as it (40 R107). -/
theorem readAsFrame_of_nominal {c : Cfg} (hc : CodecRoundTrips c) (bytes : List Byte) :
    ReadAsFrame c (interval c .preamble) (bitGaps c (frameBits bytes)) bytes := by
  obtain ⟨hzero, hone, hpre, hltZero, hltOne, hltPre⟩ := hc
  refine ⟨⟨hltPre, hpre⟩, ?_⟩
  rw [bitGaps, List.forall₂_map_left_iff, List.forall₂_same]
  intro b _
  cases b with
  | false => exact ⟨hltZero, hzero⟩
  | true => exact ⟨hltOne, hone⟩

/-- A frame that is one runs (30 R82, R84). -/
theorem exec_frame (t : Time) {bytes : List Byte} (s : State) (hpos : 1 ≤ bytes.length)
    (hbound : bytes.length ≤ 64) :
    exec (.frame t bytes) s = .next (feed t (frameGaps s.cfg bytes) s) := if_pos ⟨hpos, hbound⟩

/-- Two pulses of one instant close an interval that is in no window (40 R100). -/
theorem matchesNoWindow_zero (c : Cfg) : matchesNoWindow c 0 = true := by
  simp [matchesNoWindow, inZero, inOne, inPre, insideWindow]

/-- From every decoding state a second pulse at the time of the last one, and then a frame of one byte, lead to a
packet that is held (41 R127 item 5). -/
theorem exists_pulses_to_packet {s : State} (hs : Decoding s) (hc : CodecRoundTrips s.cfg)
    (hcap : 1 ≤ s.cfg.capacity) :
    ∃ ts u, runInstrs (List.map Instr.rdPulse ts) s = .next u ∧ u.rd.state = .ac := by
  have hsame : elapsed s.cfg s.rd.lastTs (time s.cfg s.rd.lastTs) = 0 := by
    rw [elapsed_time_right]
    exact elapsed_add s.rd.lastTs (Nat.two_pow_pos _)
  obtain ⟨hac, -⟩ := packetReceived_of_frame (bytes := [0])
    (.inr ⟨hs, hsame ▸ matchesNoWindow_zero s.cfg⟩) (readAsFrame_of_nominal hc _) le_rfl hcap (by decide)
  exact ⟨_, _, runInstrs_pulseTimes _ _ _, hac⟩

/-! ## Beyond `CAPACITY` -/

/-- Intervals that are no preamble move a start candidate on and do nothing else (41 R112). -/
theorem closeIntervals_of_no_preamble {gaps : List Time} {s : State}
    (hgaps : ∀ g ∈ gaps, g < 2 ^ s.cfg.tsw ∧ isPreamble s.cfg g = false) (t : Time) :
    ∃ t', closeIntervals gaps (resync t s) = resync t' s := by
  induction gaps generalizing t with
  | nil => exact ⟨t, rfl⟩
  | cons g rest ih =>
    obtain ⟨⟨hg, hnot⟩, hrest⟩ := List.forall_mem_cons.1 hgaps
    have hmeasured : isPreamble s.cfg (elapsed s.cfg (time s.cfg t) (time s.cfg t + g)) = false := by
      rwa [elapsed_add _ hg]
    have hmoves : closeInterval g (resync t s) = resync (time s.cfg t + g) s := if_neg (Bool.eq_false_iff.1 hmeasured)
    obtain ⟨t', e⟩ := ih hrest (time s.cfg t + g)
    exact ⟨t', (congrArg (closeIntervals rest) hmoves).trans e⟩

/-- A frame beyond `CAPACITY` leaves a Reader that awaits a preamble with a start candidate, and nothing else but
what a header in progress holds (41 R113, 60 R182). -/
theorem feed_of_oversized_frame (t : Time) {bytes : List Byte} {s : State} (hc : CodecRoundTrips s.cfg)
    (hzero : isPreamble s.cfg s.cfg.tZero = false) (hone : isPreamble s.cfg s.cfg.tOne = false)
    (haps : s.rd.state = .aps) (hover : s.cfg.capacity < bytes.length) (hbound : bytes.length ≤ 64) :
    ∃ r t', r.length = s.rd.length ∧ feed t (frameGaps s.cfg bytes) s = resync t' (s.setRd r) := by
  obtain ⟨-, -, -, hltZero, hltOne, -⟩ := id hc
  obtain ⟨hpre, hbits⟩ := readAsFrame_of_nominal hc bytes
  obtain ⟨gs, later, hheader, -, hsplit⟩ := exists_append_of_forall₂_append hbits
  have hdata : ∀ g ∈ later, g < 2 ^ s.cfg.tsw ∧ isPreamble s.cfg g = false := by
    intro g hg
    obtain ⟨b, -, rfl⟩ := List.mem_map.1 (hsplit ▸ List.mem_append_right gs hg)
    cases b with
    | false => exact ⟨hltZero, hzero⟩
    | true => exact ⟨hltOne, hone⟩
  have hlength := headerOf_toNat (by omega : 1 ≤ bytes.length) hbound
  obtain ⟨r, t', hr, hdrops⟩ := (closeIntervals_of_preamble_and_header (s := resync t s) hpre hheader rfl).1
    (by rwa [hlength])
  obtain ⟨t'', hlast⟩ := closeIntervals_of_no_preamble (s := (resync t s).setRd r) hdata t'
  refine ⟨r, t'', hr, ?_⟩
  rw [feed_eq_closeIntervals _ (.inl haps), pulse_of_awaiting t haps, frameGaps, hsplit, ← List.cons_append,
    closeIntervals_append, hdrops, hlast]
  rfl

end Sys2Proof.Machine
end

section
/-! CERTIFICATE. A frame and the Reader (41 R127, R128; 60 R182). -/

open Sys2Proof Sys2Proof.Machine

/-- Settles O39: a train of pulses is its intervals one after another, the header gives the length and each byte of
the data is stored in turn. -/
theorem frameIsReceived : Obligations.FrameIsReceived := by
  unfold Obligations.FrameIsReceived
  refine ⟨fun t bytes s ht hcap hs => ?received,
    fun s hc hcap _ hs => ⟨?decodes, exists_pulses_to_packet hs hc hcap⟩,
    fun t bytes s hpos hbound hs => ?ignored⟩
  case received =>
    have received (hpos : 1 ≤ bytes.length) (hfits : bytes.length ≤ s.cfg.capacity) {preamble : Time}
        {gaps : List Time} (hread : ReadAsFrame s.cfg preamble gaps bytes) :
        PacketReceived t bytes s (feed t (preamble :: gaps) s) := by
      have hgiven := packetReceived_of_frame hs hread hpos hfits (hfits.trans hcap)
      rwa [time_eq_self ht] at hgiven
    refine ⟨fun hpos hfits preamble gaps hread => ?train, fun hc hpos hfits => ?frame⟩
    case train => exact ⟨_, runInstrs_pulseTimes _ _ _, received hpos hfits hread⟩
    case frame =>
      exact ⟨_, exec_frame t s hpos (hfits.trans hcap), received hpos hfits (readAsFrame_of_nominal hc bytes)⟩
  case decodes =>
    rintro t u ⟨⟩
    exact pulse_decoding hs
  case ignored =>
    rw [exec_frame t s hpos hbound, feed_ignored t _ hs]

/-- Settles O40: the last bit of the header is the candidate of a new packet, and the bits after it, none of them a
preamble, move the candidate on. -/
theorem oversizedFrameIsDroppedSilently : Obligations.OversizedFrameIsDroppedSilently := by
  unfold Obligations.OversizedFrameIsDroppedSilently
  intro t bytes s hc hzero hone haps hover hbound
  obtain ⟨r, t', hr, hdropped⟩ := feed_of_oversized_frame t hc hzero hone haps hover hbound
  refine ⟨_, exec_frame t s (by omega) hbound, ?_⟩
  rw [hdropped]
  exact ⟨rfl, rfl, hr, rfl, rfl, rfl⟩

end

section
/-! SUPPORT. A send in progress by the bits of its frame that are still to be scheduled (42 R143 to R145, R148). -/

namespace Sys2Proof.Machine

open Sys2Proof

/-! ## The bits still to be scheduled -/

/-- The bits of the frame of `bytes` that a Writer with the given fields has not yet scheduled. -/
def bitsLeft (bytes : List Byte) (w : Writer) : List Bool :=
  match w.state with
  | .sh => (bitsMsbFirst (headerOf w.length) ++ bytes.flatMap bitsMsbFirst).drop w.bitCursor.toNat
  | .sd => ((bytes.drop w.byteCursor.toNat).flatMap bitsMsbFirst).drop w.bitCursor.toNat
  | .idle => []

/-- The Writer is sending `bytes`: a send is in flight, its length is theirs, and `WBUF` holds them. -/
structure Sending (bytes : List Byte) (s : State) : Prop where
  inv : WriterInv s.wr s.tmr.armed s.wbuf
  active : s.wr.active = true
  pending : s.wr.txPending = true
  length : s.wr.length.toNat = bytes.length
  supplied : ∀ i < bytes.length, s.wbuf.read i = bytes[i]?

theorem length_bitsMsbFirst {n : Nat} (v : BitVec n) : (bitsMsbFirst v).length = n := by simp [bitsMsbFirst]

/-- The next bit of a field in wire order is the one that the cursor selects (20 R63). -/
theorem drop_bitsMsbFirst_append {n : Nat} (v : BitVec n) (later : List Bool) {k : Nat} (hk : k < n) :
    (bitsMsbFirst v ++ later).drop k = v.getLsbD (n - 1 - k) :: (bitsMsbFirst v ++ later).drop (k + 1) := by
  have hin : k < (bitsMsbFirst v).length := by rwa [length_bitsMsbFirst]
  have hlen : k < (bitsMsbFirst v ++ later).length := by rw [List.length_append]; omega
  rw [List.drop_eq_getElem_cons hlen, List.getElem_append_left hin]
  simp [bitsMsbFirst]

/-- Behind its last bit a field is over. -/
theorem drop_length_bitsMsbFirst_append {n : Nat} (v : BitVec n) (later : List Bool) :
    (bitsMsbFirst v ++ later).drop n = later := List.drop_left' (length_bitsMsbFirst v)

/-! ## One expiry -/

/-- What an expiry of a send does when it schedules the bit `b`: its pulse, the interval of the bit, and the frame
is one bit shorter (42 R142 to R144). -/
structure SendsBit (bytes : List Byte) (now : Time) (b : Bool) (s u : State) : Prop where
  sending : Sending bytes u
  left : bitsLeft bytes s.wr = b :: bitsLeft bytes u.wr
  delay : u.tmr.delay = interval s.cfg (symOf b)
  trace : u.trace = s.trace ++ [.pulse (time s.cfg now), .timerSchedule (interval s.cfg (symOf b))]

section
variable {bytes : List Byte} {s : State}

/-- The bits left after a header bit (42 R143). -/
theorem bitsLeft_of_header (h : Sending bytes s) (hsh : s.wr.state = .sh) (free : Bool) :
    bitsLeft bytes s.wr = headerBit (headerOf s.wr.length) s.wr.bitCursor free ::
      bitsLeft bytes (if s.wr.bitCursor.toNat + 1 = hdrBits then { s.wr with bitCursor := 0, state := .sd }
        else { s.wr with bitCursor := s.wr.bitCursor + 1 }) := by
  obtain ⟨hbyte, hbit, -⟩ := h.inv.header hsh
  have hhere : bitsLeft bytes s.wr =
      (bitsMsbFirst (headerOf s.wr.length) ++ bytes.flatMap bitsMsbFirst).drop s.wr.bitCursor.toNat := by
    simp only [bitsLeft, hsh]
  rw [hhere, drop_bitsMsbFirst_append _ _ hbit, headerBit, if_pos hbit]
  congr 1
  split
  · next hlast =>
    rw [hlast, drop_length_bitsMsbFirst_append]
    simp [bitsLeft, hbyte]
  · have hsix : s.wr.bitCursor.toNat < 6 := hbit
    have hnext : (s.wr.bitCursor + 1).toNat = s.wr.bitCursor.toNat + 1 := by bv_omega
    simp only [bitsLeft, hsh, hnext]

/-- The bits left after a data bit (42 R144). -/
theorem bitsLeft_of_data (h : Sending bytes s) (hsd : s.wr.state = .sd) {v : Byte}
    (hv : bytes[s.wr.byteCursor.toNat]? = some v) :
    bitsLeft bytes s.wr = dataBit v s.wr.bitCursor :: bitsLeft bytes (advanceData s.wr) := by
  have hcursor := h.inv.data hsd
  have hbit : s.wr.bitCursor.toNat < 8 := s.wr.bitCursor.isLt
  obtain ⟨hin, rfl⟩ := List.getElem?_eq_some_iff.1 hv
  have hhere : bitsLeft bytes s.wr = (bitsMsbFirst bytes[s.wr.byteCursor.toNat] ++
      (bytes.drop (s.wr.byteCursor.toNat + 1)).flatMap bitsMsbFirst).drop s.wr.bitCursor.toNat := by
    simp only [bitsLeft, hsd]
    rw [List.drop_eq_getElem_cons hin, List.flatMap_cons]
  rw [hhere, drop_bitsMsbFirst_append _ _ hbit, dataBit]
  congr 1
  rw [advanceData_sd hsd]
  split
  · next hlast =>
    rw [hlast, drop_length_bitsMsbFirst_append]
    have hnext : (s.wr.byteCursor + 1).toNat = s.wr.byteCursor.toNat + 1 := by bv_omega
    split
    · next hdone => simp [bitsLeft, hdone, h.length]
    · simp only [bitsLeft, hnext]
      rfl
  · have hnext : (s.wr.bitCursor + 1).toNat = s.wr.bitCursor.toNat + 1 := by bv_omega
    simp only [bitsLeft, hsd, hnext]
    rw [List.drop_eq_getElem_cons hin, List.flatMap_cons]

/-- An expiry that schedules the next bit of the frame and leaves the send in flight. -/
theorem sendsBit_of_schedule (h : Sending bytes s) {now : Time} {b : Bool} {n : Nat} {w : Writer}
    (e : expiry now s =
      (scheduleAfter (interval s.cfg (symOf b)) ((emitPulse now (fireTimer s)).setFree n)).setWr w)
    (hpending : w.txPending = true) (hlength : w.length = s.wr.length)
    (hleft : bitsLeft bytes s.wr = b :: bitsLeft bytes w) : SendsBit bytes now b s (expiry now s) := by
  have hwr : (expiry now s).wr = w := by rw [e]; rfl
  obtain ⟨-, -, hwbuf⟩ := expiry_frame now s
  have hinv := h.inv.expiry (fun _ => h.active) now
  refine ⟨⟨by rwa [hwbuf], (expiry_flags now s).1.trans h.active, by rwa [hwr], ?_,
    by rw [hwbuf]; exact h.supplied⟩, by rwa [hwr], by rw [e]; rfl, ?_⟩
  · rw [hwr, hlength]
    exact h.length
  · rw [e]
    simp

/-- Every expiry before the last bit is scheduled schedules one. -/
theorem expiry_sendsBit (h : Sending bytes s) (hbusy : s.wr.state ≠ .idle) (now : Time) :
    ∃ b, SendsBit bytes now b s (expiry now s) := by
  rcases expiry_cases now s with ⟨hgate, -⟩ | ⟨-, ⟨hsh, e⟩ | ⟨hsd, e⟩ | ⟨hidle, -⟩⟩
  · simp [h.active, h.pending] at hgate
  · obtain ⟨n, hn⟩ := drawIfBeyondHeader_eq (emitPulse now (fireTimer s))
    rw [expirySh, hn] at e
    refine ⟨_, sendsBit_of_schedule h e ?_ ?_ (bitsLeft_of_header h hsh (Config.freeBit s.free))⟩
    · split <;> exact h.pending
    · split <;> rfl
  · have hin : s.wr.byteCursor.toNat < bytes.length := h.length ▸ h.inv.data hsd
    have hread := (h.supplied _ hin).trans (List.getElem?_eq_getElem hin)
    obtain ⟨hfetch, hdraw⟩ := fetchWbuf_of_read (s := emitPulse now (fireTimer s)) hread
    simp only [expirySd, emitPulse_wr, fireTimer_wr, hfetch, hdraw] at e
    refine ⟨_, sendsBit_of_schedule h e ?_ ?_ (bitsLeft_of_data h hsd (List.getElem?_eq_getElem hin))⟩
    · unfold advanceData
      split <;> exact h.pending
    · unfold advanceData
      split <;> rfl
  · exact absurd hidle hbusy

/-- The expiry after the last bit is scheduled emits the last pulse and asks for no other (42 R145). -/
theorem expiry_completes (h : Sending bytes s) (hidle : s.wr.state = .idle) (now : Time) :
    (expiry now s).trace = s.trace ++ [.pulse (time s.cfg now), .raised .sent, .timerCancel] := by
  rcases expiry_cases now s with ⟨hgate, -⟩ | ⟨-, ⟨hsh, -⟩ | ⟨hsd, -⟩ | ⟨-, e⟩⟩
  · simp [h.active, h.pending] at hgate
  · simp [hsh] at hidle
  · simp [hsd] at hidle
  · rw [e]
    simp [expiryIdle]

/-- There are bits left to schedule until the Writer is idle. -/
theorem bitsLeft_eq_nil (h : Sending bytes s) (hleft : bitsLeft bytes s.wr = []) : s.wr.state = .idle := by
  by_contra hbusy
  obtain ⟨b, hb⟩ := expiry_sendsBit h hbusy 0
  exact List.cons_ne_nil _ _ (hb.left.symm.trans hleft)

end

end Sys2Proof.Machine
end

section
/-! SUPPORT. A whole send: its expiries, the pulses that they emit and the intervals between them (42 R148, R149). -/

namespace Sys2Proof.Machine

open Sys2Proof

/-! ## The pulses of a send -/

theorem pulsesIn_append (xs ys : List Output) : pulsesIn (xs ++ ys) = pulsesIn xs ++ pulsesIn ys :=
  List.filterMap_append

section
variable {bytes : List Byte} {s : State}

/-- One expiry more than bits are left, each emits one pulse at its own time (42 R142, R148). -/
theorem expiries_pulses (h : Sending bytes s) {ts : List Time}
    (hlen : ts.length = (bitsLeft bytes s.wr).length + 1) :
    ∃ os, (expiries ts s).trace = s.trace ++ os ∧ pulsesIn os = ts.map (time s.cfg) := by
  induction ts generalizing s with
  | nil => simp at hlen
  | cons t rest ih =>
    have hcfg : (expiry t s).cfg = s.cfg := (expiry_frame t s).2.1.cfg
    by_cases hidle : s.wr.state = .idle
    · obtain rfl : rest = [] := by simpa [bitsLeft, hidle] using hlen
      exact ⟨_, expiry_completes h hidle t, rfl⟩
    · obtain ⟨b, hb⟩ := expiry_sendsBit h hidle t
      obtain ⟨os, htrace, hpulses⟩ := ih hb.sending (by simpa [hb.left] using hlen)
      rw [hb.trace, List.append_assoc] at htrace
      refine ⟨_, htrace, ?_⟩
      rw [pulsesIn_append, hpulses, hcfg]
      rfl

/-- The exact timer delivers each expiry one interval after the one before (30 R93). -/
theorem runTx_eq_expiries (h : Sending bytes s) (now : Time) :
    runTx ((bitsLeft bytes s.wr).length + 1) now s =
      expiries (laterPulses now (s.tmr.delay :: bitGaps s.cfg (bitsLeft bytes s.wr))) s := by
  induction hleft : bitsLeft bytes s.wr generalizing s now with
  | nil =>
    rw [List.length_nil, runTx, if_pos (h.inv.timer.1 h.pending)]
    rfl
  | cons b rest ih =>
    have hbusy : s.wr.state ≠ .idle := by
      intro hidle
      simp [bitsLeft, hidle] at hleft
    obtain ⟨b', hb⟩ := expiry_sendsBit h hbusy (now + s.tmr.delay)
    obtain ⟨rfl, hrest⟩ := List.cons_eq_cons.1 (hleft.symm.trans hb.left)
    rw [List.length_cons, runTx, if_pos (h.inv.timer.1 h.pending), ih hb.sending _ hrest.symm, hb.delay,
      (expiry_frame _ s).2.1.cfg]
    rfl

end

/-! ## Times and intervals -/

/-- The times of a train are those of its pulses, on the counter (00 R11). -/
theorem pulseTimes_eq_laterPulses (c : Cfg) (t : Time) (gaps : List Time) :
    pulseTimes c t gaps = (t :: laterPulses t gaps).map (time c) := by
  induction gaps generalizing t with
  | nil => rfl
  | cons g rest ih => exact congrArg (time c t :: ·) (ih (t + g))

theorem length_laterPulses (t : Time) (gaps : List Time) : (laterPulses t gaps).length = gaps.length := by
  induction gaps generalizing t with
  | nil => rfl
  | cons g rest ih => exact congrArg (· + 1) (ih (t + g))

/-- The intervals between the pulse at `a` and those that follow it, as the counter measures them (00 R11). -/
def intervalsBetween (c : Cfg) (a : Time) (ts : List Time) : List Time :=
  match ts with
  | [] => []
  | t :: rest => elapsed c a t :: intervalsBetween c t rest

/-- Modular difference added back, on numbers. -/
theorem mod_add_sub {m : Nat} (a b : Nat) (hm : 0 < m) : (a + (b % m + m - a % m) % m) % m = b % m := by
  have ha : a % m < m := Nat.mod_lt a hm
  rw [Nat.add_mod_mod, ← Nat.mod_add_mod a m, show a % m + (b % m + m - a % m) = b % m + m by omega,
    Nat.add_mod_right, Nat.mod_mod]

/-- A difference on the counter leads from the earlier time to the later one (00 R11). -/
theorem time_add_elapsed (c : Cfg) (a b : Time) : time c (a + elapsed c a b) = time c b :=
  mod_add_sub a b (Nat.two_pow_pos _)

theorem pulseTimes_congr {c : Cfg} {t t' : Time} (h : time c t = time c t') (gaps : List Time) :
    pulseTimes c t gaps = pulseTimes c t' gaps := by
  induction gaps generalizing t t' with
  | nil => exact congrArg ([·]) h
  | cons g rest ih => exact congrArg₂ List.cons h (ih (time_add_congr h g))

/-- Pulses at the intervals between some times are at those times. -/
theorem pulseTimes_intervalsBetween (c : Cfg) (a : Time) (ts : List Time) :
    pulseTimes c a (intervalsBetween c a ts) = (a :: ts).map (time c) := by
  induction ts generalizing a with
  | nil => rfl
  | cons t rest ih =>
    refine congrArg (time c a :: ·) ?_
    exact (pulseTimes_congr (time_add_elapsed c a t) _).trans (ih t)

/-! ## Expiries off by no more than `JITTER` -/

/-- An interval is off from `d` by no more than `JITTER`. -/
abbrev WithinJitter (c : Cfg) (d g : Time) : Prop := d ≤ g + c.jitter ∧ g ≤ d + c.jitter

/-- An expiry that keeps the contract closes an interval off by no more than `JITTER` from the delay asked for
(42 R149), if that range stays clear of the wrap. -/
theorem withinJitter_of_onTime {s : State} {armedAt now : Time} (h : ExpiryOnTime s armedAt now)
    (hlo : s.cfg.jitter ≤ s.tmr.delay) (hhi : s.tmr.delay + s.cfg.jitter < 2 ^ s.cfg.tsw) :
    WithinJitter s.cfg s.tmr.delay (elapsed s.cfg armedAt now) := by
  have late {d e j : Nat} (he : e ≤ j) (hhi : d + j < 2 ^ s.cfg.tsw) :
      d + e < 2 ^ s.cfg.tsw ∧ d ≤ d + e + j ∧ d + e ≤ d + j := by omega
  have early {d e j : Nat} (he : e ≤ j) (hlo : j ≤ d) (hhi : d + j < 2 ^ s.cfg.tsw) :
      d - e < 2 ^ s.cfg.tsw ∧ d - e + e = d ∧ d ≤ d - e + j ∧ d - e ≤ d + j := by omega
  obtain ⟨-, hlate | hearly⟩ := h
  · obtain ⟨hlt, hwithin⟩ := late hlate hhi
    rwa [← elapsed_congr_right (time_add_elapsed s.cfg (armedAt + s.tmr.delay) now), Nat.add_assoc,
      elapsed_add _ hlt]
  · have hdue := time_add_elapsed s.cfg now (armedAt + s.tmr.delay)
    generalize elapsed s.cfg now (armedAt + s.tmr.delay) = e at hearly hdue
    obtain ⟨hlt, hback, hwithin⟩ := early hearly hlo hhi
    have hnow : time s.cfg now = time s.cfg (armedAt + (s.tmr.delay - e)) := by
      refine Nat.ModEq.add_right_cancel' e ?_
      rw [Nat.add_assoc, hback]
      exact hdue
    rwa [elapsed_congr_right hnow, elapsed_add _ hlt]

/-- A codec that reads every interval off by no more than `JITTER` asks for longer intervals than that, since it
reads nothing into the interval 0, and for intervals that stay clear of the wrap (40 R100, R107). -/
theorem interval_of_jitterTolerated {c : Cfg} (hc : JitterTolerated c) (sym : TxSymbol) :
    c.jitter ≤ interval c sym ∧ interval c sym + c.jitter < 2 ^ c.tsw := by
  obtain ⟨hzero, hone, hpre, hltZero, hltOne, hltPre⟩ := hc
  have hunread : bitOf (classify c 0) = none := bitOf_classify_of_no_window (matchesNoWindow_zero c)
  have hnone : isPreamble c 0 = false := isPreamble_of_no_window (matchesNoWindow_zero c)
  have above (n : Nat) (h : n < c.jitter → False) : c.jitter ≤ n := Nat.le_of_not_lt h
  cases sym with
  | zero =>
    refine ⟨above _ fun hlt => ?_, hltZero⟩
    have hread := hzero 0 (hlt.le.trans_eq (Nat.zero_add _).symm) (Nat.zero_le _)
    simp [hread, bitOf] at hunread
  | one =>
    refine ⟨above _ fun hlt => ?_, hltOne⟩
    have hread := hone 0 (hlt.le.trans_eq (Nat.zero_add _).symm) (Nat.zero_le _)
    simp [hread, bitOf] at hunread
  | preamble =>
    refine ⟨above _ fun hlt => ?_, hltPre⟩
    have hread := hpre 0 (hlt.le.trans_eq (Nat.zero_add _).symm) (Nat.zero_le _)
    simp [hread] at hnone

/-- Under such a codec, intervals off by no more than `JITTER` from those of a frame are read as it. -/
theorem readAsFrame_of_withinJitter {c : Cfg} (hc : JitterTolerated c) {bytes : List Byte} {intervals : List Time}
    (h : List.Forall₂ (WithinJitter c) (frameGaps c bytes) intervals) :
    ∃ preamble gaps, intervals = preamble :: gaps ∧ ReadAsFrame c preamble gaps bytes := by
  obtain ⟨hzero, hone, hpre, hltZero, hltOne, hltPre⟩ := hc
  obtain ⟨preamble, gaps, ⟨hlo, hhi⟩, hgaps, rfl⟩ := List.forall₂_cons_left_iff.1 h
  refine ⟨preamble, gaps, rfl, ⟨hhi.trans_lt hltPre, hpre _ hlo hhi⟩, ?_⟩
  refine (List.forall₂_map_left_iff.1 hgaps).flip.imp fun g b ⟨hlo, hhi⟩ => ?_
  cases b with
  | false => exact ⟨hhi.trans_lt hltZero, hzero g hlo hhi⟩
  | true => exact ⟨hhi.trans_lt hltOne, hone g hlo hhi⟩

/-- The expiries of a send that keep the contract close the intervals of its frame, each off by no more than
`JITTER` (42 R149). -/
theorem intervalsBetween_of_onTime {bytes : List Byte} {s : State} (h : Sending bytes s)
    (hc : JitterTolerated s.cfg) {sym : TxSymbol} (hdelay : s.tmr.delay = interval s.cfg sym) {armedAt : Time}
    {ts : List Time} (hlen : ts.length = (bitsLeft bytes s.wr).length + 1) (hts : ExpiriesOnTime armedAt ts s) :
    List.Forall₂ (WithinJitter s.cfg) (s.tmr.delay :: bitGaps s.cfg (bitsLeft bytes s.wr))
      (intervalsBetween s.cfg armedAt ts) := by
  induction ts generalizing s sym armedAt with
  | nil => simp at hlen
  | cons t rest ih =>
    obtain ⟨hfirst, hrest⟩ := hts
    obtain ⟨hlo, hhi⟩ := interval_of_jitterTolerated hc sym
    rw [← hdelay] at hlo hhi
    refine .cons (withinJitter_of_onTime hfirst hlo hhi) ?_
    have hcfg : (expiry t s).cfg = s.cfg := (expiry_frame t s).2.1.cfg
    by_cases hidle : s.wr.state = .idle
    · obtain rfl : rest = [] := by simpa [bitsLeft, hidle] using hlen
      simp only [bitsLeft, hidle]
      exact .nil
    · obtain ⟨b, hb⟩ := expiry_sendsBit h hidle t
      have hlater := ih hb.sending (by rwa [hcfg]) (by rw [hcfg]; exact hb.delay)
        (by simpa [hb.left] using hlen) hrest
      rw [hcfg, hb.delay] at hlater
      rw [hb.left]
      exact hlater

/-! ## An accepted send -/

/-- An acceptable send with a long enough buffer is accepted (42 R140). -/
theorem execWrSend_accepted {buffer : List Byte} {length : Nat} {now : Time} {s : State}
    (hok : sendAcceptable length s = true) (hbuffer : length ≤ buffer.length) :
    exec (.wrSend buffer length now) s = .next ((acceptSend buffer length now s).emit [.retSend true]) := by
  simp only [exec, execWrSend, if_pos hok, if_pos hbuffer]

/-- The header and the bytes of a frame (30 R82). -/
theorem length_frameBits (bytes : List Byte) : (frameBits bytes).length = 8 * bytes.length + 6 := by
  have hdata : (bytes.flatMap bitsMsbFirst).length = 8 * bytes.length := by
    rw [List.length_flatMap, List.map_congr_left fun v _ => length_bitsMsbFirst v, List.map_const',
      List.sum_replicate]
    exact Nat.mul_comm _ _
  rw [frameBits, List.length_append, length_bitsMsbFirst, hdata, Nat.add_comm]

/-- An accepted send has the whole frame of its bytes to schedule, after the preamble that it asks for. -/
theorem acceptSend_sending {buffer : List Byte} {length : Nat} {now : Time} {s w : State}
    (hw : w = (acceptSend buffer length now s).emit [.retSend true]) (hactive : s.wr.active = true)
    (hpos : 1 ≤ length) (hbound : length ≤ 64) (hbuffer : length ≤ buffer.length) :
    Sending (buffer.take length) w ∧ bitsLeft (buffer.take length) w.wr = frameBits (buffer.take length) := by
  have hlength : (buffer.take length).length = length := List.length_take_of_le hbuffer
  subst hw
  refine ⟨⟨acceptSend_writerInv now s hpos hbound hbuffer, hactive, rfl, ?_, fun i hi => ?_⟩, ?_⟩
  · rw [hlength]
    exact (BitVec.toNat_ofNat length 7).trans (Nat.mod_eq_of_lt (by omega))
  · rw [hlength] at hi
    rw [List.getElem?_take_of_lt hi]
    have hread := Memory.read_ofBytes buffer 0 i
    rwa [Nat.zero_add] at hread
  · rw [frameBits, hlength]
    rfl

/-- From an accepted send on, the Writer's pulses are the first one and one per expiry, up to the last of the frame
(42 R148). -/
theorem pulsesIn_of_send {buffer : List Byte} {length : Nat} {now : Time} {s w : State}
    (hw : w = (acceptSend buffer length now s).emit [.retSend true]) (hsending : Sending (buffer.take length) w)
    {ts : List Time} (hlen : ts.length = (bitsLeft (buffer.take length) w.wr).length + 1) :
    pulsesIn ((expiries ts w).trace.drop s.trace.length) = (now :: ts).map (time s.cfg) := by
  obtain ⟨os, htrace, hpulses⟩ := expiries_pulses hsending hlen
  have hfirst : w.trace = s.trace ++ [.pulse (time s.cfg now), .timerSchedule s.cfg.tPre, .retSend true] := by
    rw [hw, acceptSend_eq]
    simp
  have hcfg : w.cfg = s.cfg := by rw [hw]; rfl
  rw [htrace, hfirst, List.append_assoc, List.drop_left, pulsesIn_append, hpulses, hcfg]
  rfl

/-- A Reader that awaits a preamble and is fed the pulses of a send holds its bytes, if the times of the expiries
are those of a train that is read as its frame (41 R127 item 1). -/
theorem exists_received_of_send {buffer : List Byte} {length : Nat} {now : Time} {s w r : State}
    (hw : w = (acceptSend buffer length now s).emit [.retSend true]) (hactive : s.wr.active = true)
    (hpos : 1 ≤ length) (hbound : length ≤ 64) (hbuffer : length ≤ buffer.length) (hcfg : r.cfg = s.cfg)
    (hfits : length ≤ s.cfg.capacity) (haps : r.rd.state = .aps) {ts gaps : List Time} {preamble : Time}
    (hlen : ts.length = 8 * length + 7)
    (htimes : (now :: ts).map (time s.cfg) = pulseTimes s.cfg now (preamble :: gaps))
    (hread : ReadAsFrame s.cfg preamble gaps (buffer.take length)) :
    ∃ v, runInstrs ((pulsesIn ((expiries ts w).trace.drop s.trace.length)).map Instr.rdPulse) r = .next v ∧
      v.rd.state = .ac ∧ v.rd.length.toNat = length ∧ (∀ i, i < length → v.rbuf.read i = buffer[i]?) ∧
      v.sig.receivedFlag = true := by
  obtain ⟨hsending, hleft⟩ := acceptSend_sending hw hactive hpos hbound hbuffer
  have hlength : (buffer.take length).length = length := List.length_take_of_le hbuffer
  rw [pulsesIn_of_send hw hsending (by rw [hleft, length_frameBits, hlength, hlen]), htimes, ← hcfg,
    runInstrs_pulseTimes]
  obtain ⟨hac, -, hheld, hstored, -, hflag, -⟩ := packetReceived_of_frame (t := now) (bytes := buffer.take length)
    (.inl haps) (hcfg ▸ hread) (by rwa [hlength]) (by rwa [hlength, hcfg]) (by rwa [hlength])
  rw [hlength] at hheld hstored
  refine ⟨_, rfl, hac, hheld, fun i hi => ?_, hflag⟩
  rw [hstored i hi, List.getElem?_take_of_lt hi]

end Sys2Proof.Machine
end

section
/-! CERTIFICATE. A packet from one device to another (41 R127 item 1; 42 R148, R149). -/

open Sys2Proof Sys2Proof.Machine

/-- Settles O42: the Writer's pulses stand at the intervals of the frame, exactly or within `JITTER`, and intervals
that are read as the frame give the Reader its bytes. -/
theorem sentPacketIsReceived : Obligations.SentPacketIsReceived := by
  unfold Obligations.SentPacketIsReceived
  intro buffer length now s r hactive hpending hpos hfits hcap hbuffer hcfg haps
  have hok := (sendAcceptable_iff length s).2 ⟨hactive, hpos, hfits, hpending⟩
  have hbound := hfits.trans hcap
  have hlength : (buffer.take length).length = length := List.length_take_of_le hbuffer
  obtain ⟨w, hw⟩ : ∃ w, w = (acceptSend buffer length now s).emit [.retSend true] := ⟨_, rfl⟩
  obtain ⟨hsending, hleft⟩ := acceptSend_sending hw hactive hpos hbound hbuffer
  have hwcfg : w.cfg = s.cfg := by rw [hw]; rfl
  have hdelay : w.tmr.delay = interval s.cfg .preamble := by rw [hw]; rfl
  have hbits : (bitsLeft (buffer.take length) w.wr).length + 1 = 8 * length + 7 := by
    rw [hleft, length_frameBits, hlength]
  refine ⟨w, (execWrSend_accepted hok hbuffer).trans (congrArg _ hw.symm), fun hc => ?exact,
    fun ts hc hlen hts => ?jitter⟩
  case exact =>
    have hrun := runTx_eq_expiries hsending now
    rw [hbits, hdelay, hwcfg, hleft] at hrun
    rw [hrun]
    refine exists_received_of_send hw hactive hpos hbound hbuffer hcfg hfits haps ?_
      (pulseTimes_eq_laterPulses _ _ _).symm (readAsFrame_of_nominal hc _)
    rw [length_laterPulses, List.length_cons, bitGaps, List.length_map, length_frameBits, hlength]
  case jitter =>
    have hoff := intervalsBetween_of_onTime hsending (hwcfg ▸ hc) (by rw [hwcfg]; exact hdelay)
      (hlen.trans hbits.symm) hts
    rw [hwcfg, hdelay, hleft] at hoff
    obtain ⟨preamble, gaps, hgaps, hread⟩ := readAsFrame_of_withinJitter hc hoff
    refine exists_received_of_send hw hactive hpos hbound hbuffer hcfg hfits haps hlen ?_ hread
    rw [← hgaps, pulseTimes_intervalsBetween]

end

section
/-! SUPPORT. The pulses that end a preamble, break off a field or complete a byte (41 R112 to R114), and the
control states that the Reader's operations lead to (41 R126). -/

namespace Sys2Proof.Machine

open Sys2Proof

variable {t : Time} {s : State}

/-- An interval that is no preamble makes its pulse the new candidate (41 R112). -/
theorem pulse_of_no_preamble (hape : s.rd.state = .ape)
    (hnot : isPreamble s.cfg (elapsed s.cfg s.rd.lastTs t) = false) : pulse t s = resync t s := by
  simp only [pulse, hape, pulseApe, hnot, Bool.false_eq_true, if_false]

/-- An `Invalid` interval in the header resynchronises and raises nothing (41 R113). -/
theorem pulse_of_invalid_in_header (hahe : s.rd.state = .ahe)
    (hinvalid : classify s.cfg (elapsed s.cfg s.rd.lastTs t) = .invalid) : pulse t s = resync t s := by
  simp only [pulse, hahe, pulseAhe, hinvalid, bitOf]

/-- An `Invalid` interval in the data loses the packet and resynchronises (41 R114). -/
theorem pulse_of_invalid_in_data (hadb : s.rd.state = .adb)
    (hinvalid : classify s.cfg (elapsed s.cfg s.rd.lastTs t) = .invalid) :
    pulse t s = resync t (raise (.lost s.rd.startTs) s) := by
  simp only [pulse, hadb, pulseAdb, hinvalid, bitOf]

/-- The eighth bit of a byte within `CAPACITY` stores the byte and completes it (41 R114, 20 R61). -/
theorem pulse_of_stored_byte {b : Bool} (hadb : s.rd.state = .adb) (hlast : s.rd.bitCursor.toNat = 7)
    (hcap : s.rd.byteCursor.toNat < s.cfg.capacity)
    (hb : classify s.cfg (elapsed s.cfg s.rd.lastTs t) = if b then .one else .zero) :
    pulse t s =
      finishByte t (s.setRbuf (s.rbuf.write s.rd.byteCursor.toNat (accumulate s.rd.asm b))) := by
  have heighth : s.rd.bitCursor.toNat + 1 = byteBits := congrArg (· + 1) hlast
  rw [pulse_of_data_bit hadb hb, acceptDataBit, if_pos heighth, storeRbuf, if_pos hcap]

/-- The watchdog measures from the stamp that `WD_REF` names (41 R122). -/
theorem watchdogRef_eq (s : State) :
    watchdogRef s = if s.cfg.wdRef = .lastBit then s.rd.lastTs else s.rd.startTs := by
  unfold watchdogRef
  split
  · next h => rw [if_pos h]
  · next h => rw [h]; rfl

/-- A start moves a stopped Reader alone (41 R124). -/
theorem readerStart_state (now : Time) (s : State) :
    (readerStart now s).rd.state = if s.rd.state = .idle then .aps else s.rd.state := by
  unfold readerStart
  split
  · next hidle => rw [hidle]; rfl
  · next hrunning => rw [if_neg hrunning]

/-- The Reader after the operation of a column of 41 R126. -/
def readerColumnNext (col : ReaderColumn) (now : Time) (s : State) : State :=
  match col with
  | .restore0 => restore false s
  | .restore1 => restore true s
  | .blank => blank s
  | .start => readerStart now s
  | .stop => readerStop s

/-- Each column of 41 R126 row by row; where the table has a dash the state stays. -/
theorem readerColumnNext_state (col : ReaderColumn) (now : Time) (s : State) :
    (readerColumnNext col now s).rd.state = (readerTable col s.rd.state).getD s.rd.state := by
  have restored (blankLevel : Bool) : (restore blankLevel s).rd.state = restoreNext blankLevel s.rd.state := rfl
  have blanked : (blank s).rd.state = blankNext s.rd.state := rfl
  cases col with
  | restore0 => rw [readerColumnNext, restored]; cases s.rd.state <;> rfl
  | restore1 => rw [readerColumnNext, restored]; cases s.rd.state <;> rfl
  | blank => rw [readerColumnNext, blanked]; cases s.rd.state <;> rfl
  | start => rw [readerColumnNext, readerStart_state]; cases s.rd.state <;> rfl
  | stop => rw [readerColumnNext]; cases s.rd.state <;> rfl

/-- The states that one pulse can lead to (41 R126). -/
theorem pulse_next (t : Time) (s : State) :
    (pulse t s).rd.state = s.rd.state ∨
      (s.rd.state = .aps ∧ (pulse t s).rd.state = .ape) ∨ (s.rd.state = .ape ∧ (pulse t s).rd.state = .ahe) ∨
      (s.rd.state = .ahe ∧ ((pulse t s).rd.state = .ape ∨ (pulse t s).rd.state = .adb)) ∨
      (s.rd.state = .adb ∧ ((pulse t s).rd.state = .ape ∨ (pulse t s).rd.state = .ac)) := by
  rcases pulse_cases t s with
    ⟨haps, e⟩ | ⟨hape, e⟩ | ⟨hahe, e⟩ | ⟨hadb, -, e⟩ | ⟨hadb, b, -, e⟩ | ⟨-, e⟩ <;> rw [e]
  · exact .inr (.inl ⟨haps, rfl⟩)
  · unfold pulseApe
    split
    · exact .inr (.inr (.inl ⟨hape, rfl⟩))
    · exact .inl hape.symm
  · unfold pulseAhe
    split
    · exact .inr (.inr (.inr (.inl ⟨hahe, .inl rfl⟩)))
    · next b _ =>
      rcases acceptHeaderBit_cases b t s with ⟨-, e⟩ | e | ⟨len, -, -, e⟩ <;> rw [e]
      · exact .inl rfl
      · exact .inr (.inr (.inr (.inl ⟨hahe, .inl rfl⟩)))
      · exact .inr (.inr (.inr (.inl ⟨hahe, .inr rfl⟩)))
  · exact .inr (.inr (.inr (.inr ⟨hadb, .inl rfl⟩)))
  · rcases acceptDataBit_cases b t s with ⟨-, e⟩ | ⟨-, e⟩ <;> rw [e]
    · rcases finishByte_cases t (storeRbuf s.rd.byteCursor.toNat (accumulate s.rd.asm b) s) with
        ⟨-, e⟩ | ⟨-, e⟩ <;> rw [e]
      · exact .inr (.inr (.inr (.inr ⟨hadb, .inr rfl⟩)))
      · exact .inl (by simp)
    · exact .inl rfl
  · exact .inl rfl

end Sys2Proof.Machine
end

section
/-! CERTIFICATE. The Reader, one operation at a time (41 R110 to R126). -/

open Sys2Proof Sys2Proof.Machine

/-! ## The pulse event -/

/-- Settles O6: the first pulse is the candidate that a resynchronisation would make of it. -/
theorem pulseOpensACandidate : Obligations.PulseOpensACandidate := by
  unfold Obligations.PulseOpensACandidate
  intro t s haps ht
  refine congrArg Host.Outcome.next ?_
  rw [pulse_of_awaiting t haps, resync_eq, time_eq_self ht]

/-- Settles O7: the preamble window decides. -/
theorem pulseEndsThePreamble : Obligations.PulseEndsThePreamble := by
  unfold Obligations.PulseEndsThePreamble
  intro t s hape ht
  refine ⟨fun hpre => congrArg Host.Outcome.next ?preamble, fun hnot => congrArg Host.Outcome.next ?candidate⟩
  case preamble =>
    rw [pulse_of_preamble hape hpre, time_eq_self ht]
    rfl
  case candidate =>
    rw [pulse_of_no_preamble hape hnot, resync_eq, time_eq_self ht]

/-- Settles O8: the interval decides whether a bit came, the bit cursor whether it is the last of the header, and
`CAPACITY` whether the length is taken. -/
theorem pulseInTheHeader : Obligations.PulseInTheHeader := by
  unfold Obligations.PulseInTheHeader
  intro t s hahe ht
  have candidate : resync t s = { s with rd := { s.rd with startTs := t, lastTs := t, state := .ape } } := by
    rw [resync_eq, time_eq_self ht]
  refine ⟨fun hinvalid => congrArg Host.Outcome.next ?invalid, fun b hb =>
    ⟨fun hmore => congrArg Host.Outcome.next ?bit, fun hlast hfits => congrArg Host.Outcome.next ?length,
      fun hlast hover => congrArg Host.Outcome.next ?oversized⟩⟩
  case invalid => rw [pulse_of_invalid_in_header hahe hinvalid, candidate]
  case bit =>
    rw [pulse_of_incomplete_field (.inl ⟨hahe, hmore⟩) hb, time_eq_self ht]
    rfl
  case length =>
    rw [pulse_of_header_bit hahe hb, acceptHeaderBit_of_last b t hlast, if_neg (Nat.not_lt.2 hfits),
      time_eq_self ht]
    rfl
  case oversized =>
    rw [pulse_of_header_bit hahe hb, acceptHeaderBit_of_last b t hlast, if_pos hover, candidate]

/-- Settles O9: the interval decides whether a bit came, the bit cursor whether it completes a byte, and the byte
cursor whether the byte completes the packet. -/
theorem pulseInTheData : Obligations.PulseInTheData := by
  unfold Obligations.PulseInTheData
  intro t s hadb ht
  refine ⟨fun hinvalid => congrArg Host.Outcome.next ?invalid, fun b hb =>
    ⟨fun hmore => congrArg Host.Outcome.next ?bit, fun hlast hcap => ⟨_, Memory.read_write_same s.rbuf _ _,
      fun i hi => Memory.read_write_other s.rbuf _ hi, fun hnext => congrArg Host.Outcome.next ?byte,
      fun hdone => congrArg Host.Outcome.next ?packet⟩⟩⟩
  case invalid =>
    rw [pulse_of_invalid_in_data hadb hinvalid, resync_eq, raise_cfg, time_eq_self ht]
    rfl
  case bit =>
    rw [pulse_of_incomplete_field (.inr ⟨hadb, hmore⟩) hb, time_eq_self ht]
    rfl
  case byte =>
    rw [pulse_of_stored_byte hadb hlast hcap hb, finishByte, State.setRbuf_rd, if_neg hnext, State.setRbuf_cfg,
      time_eq_self ht]
    rfl
  case packet =>
    rw [pulse_of_stored_byte hadb hlast hcap hb, finishByte, State.setRbuf_rd, if_pos hdone, State.setRbuf_cfg,
      time_eq_self ht]
    rfl

/-- Settles O10: the four states stand outside the dispatch of 41 R110. -/
theorem pulseIgnoredUnlessDecoding : Obligations.PulseIgnoredUnlessDecoding := by
  unfold Obligations.PulseIgnoredUnlessDecoding
  exact fun t s hs => congrArg Host.Outcome.next (pulse_ignored hs)

/-! ## Queries, restore, blank, watchdog, start and stop -/

/-- Settles O12: each answer by the control state. -/
theorem readerQueriesAnswer : Obligations.ReaderQueriesAnswer := by
  unfold Obligations.ReaderQueriesAnswer
  intro now silence s
  refine ⟨fun hheld => ?held, fun hac hblp => ?nothing, ?blanking, fun hnow hsilence => ?silence⟩
  case held =>
    rcases hheld with h | h <;> simp only [exec, execRdHasincoming, h] <;> rfl
  case nothing =>
    cases h : s.rd.state with
    | ac => exact absurd h hac
    | blp => exact absurd h hblp
    | _ => simp only [exec, execRdHasincoming, h]; rfl
  case blanking =>
    have hanswer : isBlanking s = decide (s.rd.state = .bl ∨ s.rd.state = .blp) := by
      simp [isBlanking, Bool.decide_or, beq_eq_decide]
    rw [exec, execRdIsblanking, hanswer]
    rfl
  case silence =>
    have hanswer : readerCanSend now silence s = decide (s.rd.state ≠ .ahe ∧ s.rd.state ≠ .adb ∧
        silence < elapsed s.cfg s.rd.lastTs now) := by
      simp [readerCanSend, Bool.and_assoc, bne, beq_eq_decide]
    rw [exec, execRdCansend, time_eq_self hsilence, hanswer]
    rfl

/-- Settles O13: each table row by row, and a decoding state stands in no row of `RD.RESTORE`. -/
theorem restoreAndBlankFollowTheirTables : Obligations.RestoreAndBlankFollowTheirTables := by
  unfold Obligations.RestoreAndBlankFollowTheirTables
  intro s st
  have moves {next : RdState} (h : st = next) :
      s.setRd { s.rd with state := next } = { s with rd := { s.rd with state := st } } := by rw [h]; rfl
  refine ⟨fun h => ?restore, fun h => ?restoreBlanked, fun h => ?blank, fun hs blankLevel => ?idle⟩
  case restore =>
    refine congrArg Host.Outcome.next (moves (h.trans ?_))
    cases s.rd.state <;> rfl
  case restoreBlanked =>
    refine congrArg Host.Outcome.next (moves (h.trans ?_))
    cases s.rd.state <;> rfl
  case blank =>
    refine congrArg Host.Outcome.next (moves (h.trans ?_))
    cases s.rd.state <;> rfl
  case idle =>
    have hstays : restoreNext blankLevel s.rd.state = s.rd.state := by
      rcases hs with h | h | h | h <;> rw [h] <;> rfl
    rw [exec, execRdRestore, restore, hstays]
    rfl

/-- Settles O14: the data is the one state in which the watchdog looks at the clock. -/
theorem watchdogEndsAStuckPacket : Obligations.WatchdogEndsAStuckPacket := by
  unfold Obligations.WatchdogEndsAStuckPacket
  intro now s _ ref
  have href : watchdogRef s = ref := watchdogRef_eq s
  refine ⟨fun hadb hstuck => ?stuck, fun hnot => ?other⟩
  case stuck =>
    simp only [exec, execRdWatchdog, hadb, href, if_pos hstuck]
    rfl
  case other =>
    simp only [exec, execRdWatchdog, href]
    split
    · next hadb => rw [if_neg fun hstuck => hnot ⟨hadb, hstuck⟩]
    · rfl

/-- Settles O15: a start acts on a stopped Reader alone, a stop on every one. -/
theorem readerStartAndStop : Obligations.ReaderStartAndStop := by
  unfold Obligations.ReaderStartAndStop
  intro now s
  refine ⟨fun hidle hnow => congrArg Host.Outcome.next ?start,
    fun hrunning => congrArg Host.Outcome.next ?running, rfl⟩
  case start =>
    simp only [readerStart, hidle, time_eq_self hnow]
    rfl
  case running =>
    unfold readerStart
    split
    · exact absurd ‹_› hrunning
    · rfl

/-- Settles O16: one operation per column, and the pulse and the watchdog by everything each can do. -/
theorem readerNextStateTable : Obligations.ReaderNextStateTable := by
  unfold Obligations.ReaderNextStateTable
  refine ⟨fun col now s => ?columns, fun now s u h => ?events⟩
  case columns =>
    refine ⟨readerColumnNext col now s, ?_, readerColumnNext_state col now s⟩
    cases col <;> rfl
  case events =>
    rcases h with h | h
    · cases h
      rcases pulse_next now s with e | e | e | e | ⟨hadb, hape | hac⟩
      · exact .inl e
      · exact .inr (.inl e)
      · exact .inr (.inr (.inl e))
      · exact .inr (.inr (.inr (.inl e)))
      · exact .inr (.inr (.inr (.inr ⟨hadb, .inl hape⟩)))
      · exact .inr (.inr (.inr (.inr ⟨hadb, .inr (.inl hac)⟩)))
    · rcases execRdWatchdog_next h with ⟨hadb, rfl⟩ | rfl
      · exact .inr (.inr (.inr (.inr ⟨hadb, .inr (.inr rfl)⟩)))
      · exact .inl rfl

end

section
/-! SUPPORT. What an expiry past the gate does, by the state of the Writer (42 R141 to R145). -/

namespace Sys2Proof.Machine

open Sys2Proof

variable {s : State}

/-! ## What each state adds to the trace -/

theorem expirySh_trace (s : State) :
    (expirySh s).trace = s.trace ++ [.timerSchedule (interval s.cfg (symOf (nextHeaderBit s)))] := by
  obtain ⟨n, hn⟩ := drawIfBeyondHeader_eq s
  rw [expirySh, hn]
  rfl

theorem expirySd_trace (s : State) :
    (expirySd s).trace = s.trace ++
      [.timerSchedule (interval s.cfg (symOf (dataBit (fetchWbuf s.wr.byteCursor.toNat s) s.wr.bitCursor)))] := by
  obtain ⟨n, hn⟩ := drawIfAbsent_eq s.wr.byteCursor.toNat s
  rw [expirySd, hn]
  rfl

/-- Completion after its pulse: `Sent`, the end of the send, the timer cancelled (42 R145). -/
theorem expiryIdle_eq (now : Time) (s : State) :
    expiryIdle now s = { s with
      sig := { s.sig with sentFlag := true }
      wr := { s.wr with lastCompletionTs := time s.cfg now, txPending := false }
      tmr := { s.tmr with armed := false }
      trace := s.trace ++ [.raised .sent, .timerCancel] } := by
  rw [expiryIdle, cancelTimer_eq, State.setWr_trace, raise_trace, List.append_assoc]
  rfl

/-- Past the gate the pulse comes first and is the only one, whatever state the Writer is in (42 R142). -/
theorem expiry_trace (hactive : s.wr.active = true) (hpending : s.wr.txPending = true) (now : Time) :
    ∃ later, (expiry now s).trace = s.trace ++ .pulse (time s.cfg now) :: later ∧ pulsesIn later = [] := by
  rcases expiry_cases now s with ⟨hgate, -⟩ | ⟨-, ⟨-, e⟩ | ⟨-, e⟩ | ⟨-, e⟩⟩
  · simp [hactive, hpending] at hgate
  · exact ⟨_, by rw [e, expirySh_trace, emitPulse_trace, List.append_assoc]; rfl, rfl⟩
  · exact ⟨_, by rw [e, expirySd_trace, emitPulse_trace, List.append_assoc]; rfl, rfl⟩
  · exact ⟨_, by rw [e, expiryIdle_eq, emitPulse_trace, List.append_assoc]; rfl, rfl⟩

/-! ## What each state writes -/

/-- The pulse of an expiry and the interval of the bit `b` asked for after it, on the clock. -/
theorem schedule_after_pulse {now : Time} (hnow : now < 2 ^ s.cfg.tsw) (b : Bool) (n : Nat) (w : Writer) :
    (scheduleAfter (interval s.cfg (symOf b)) ((emitPulse now (fireTimer s)).setFree n)).setWr w =
      { s with
        tmr := { armed := true, delay := if b then s.cfg.tOne else s.cfg.tZero }
        trace := s.trace ++ [.pulse now, .timerSchedule (if b then s.cfg.tOne else s.cfg.tZero)]
        free := n
        wr := w } := by
  rw [interval_symOf, scheduleAfter_eq, State.setFree_trace, emitPulse_trace, fireTimer_cfg, time_eq_self hnow,
    List.append_assoc]
  rfl

/-- An expiry in `SendingHeader` that passes the gate (42 R141, R143). -/
theorem expiry_sh (hactive : s.wr.active = true) (hpending : s.wr.txPending = true) (hsh : s.wr.state = .sh)
    (now : Time) : expiry now s = expirySh (emitPulse now (fireTimer s)) := by
  simp [expiry, hactive, hpending, hsh]

/-- A cursor within the header selects a bit of `wr.length − 1` and draws nothing (42 R143). -/
theorem expirySh_of_header (hcursor : s.wr.bitCursor.toNat < 6) :
    expirySh s = (scheduleAfter
        (interval s.cfg (symOf ((headerOf s.wr.length).getLsbD (5 - s.wr.bitCursor.toNat)))) s).setWr
      (if s.wr.bitCursor.toNat = 5 then { s.wr with bitCursor := 0, state := .sd }
       else { s.wr with bitCursor := s.wr.bitCursor + 1 }) := by
  simp [expirySh, nextHeaderBit, headerBit, drawIfBeyondHeader, hdrBits, hcursor]

/-- A cursor beyond the header selects a free bit, which is drawn, and never ends the header (log 11, 12). -/
theorem expirySh_beyond_header (hcursor : 6 ≤ s.wr.bitCursor.toNat) :
    expirySh s = (scheduleAfter (interval s.cfg (symOf (Config.freeBit s.free))) (draw s)).setWr
      { s.wr with bitCursor := s.wr.bitCursor + 1 } := by
  have hbeyond : ¬ s.wr.bitCursor.toNat < 6 := by omega
  have hlast : s.wr.bitCursor.toNat ≠ 5 := by omega
  simp [expirySh, nextHeaderBit, headerBit, drawIfBeyondHeader, hdrBits, hbeyond, hlast]

/-- The bits of the header are the low six of `wr.length − 1` (30 R84). -/
theorem headerOf_getLsbD (length : BitVec 7) {k : Nat} (hk : k < 6) :
    (headerOf length).getLsbD k = (length - 1).toNat.testBit k := by
  rw [headerOf, BitVec.getLsbD_setWidth, BitVec.testBit_toNat, decide_eq_true hk, Bool.true_and]

/-- A length of 0 wraps to the header value 63, six ones (log 29). -/
theorem headerOf_zero_getLsbD {k : Nat} (hk : k < 6) : (headerOf 0).getLsbD k = true := by
  have hones : headerOf 0 = BitVec.allOnes 6 := by decide
  rw [hones, BitVec.getLsbD_allOnes, decide_eq_true hk]

/-- An expiry whose byte the caller supplied schedules its bit and draws nothing (42 R144). -/
theorem expirySd_of_read {v : Byte} (hsd : s.wr.state = .sd)
    (hread : s.wbuf.read s.wr.byteCursor.toNat = some v) :
    expirySd s = (scheduleAfter (interval s.cfg (symOf (v.toNat.testBit (7 - s.wr.bitCursor.toNat)))) s).setWr
      (if s.wr.bitCursor.toNat = 7 then
        { s.wr with bitCursor := 0, byteCursor := s.wr.byteCursor + 1,
                    state := if s.wr.byteCursor.toNat + 1 = s.wr.length.toNat then .idle else .sd }
      else { s.wr with bitCursor := s.wr.bitCursor + 1 }) := by
  obtain ⟨hfetch, hdraw⟩ := fetchWbuf_of_read hread
  simp only [expirySd, hfetch, hdraw, advanceData_sd hsd, dataBit, BitVec.testBit_toNat]
  rfl

/-- An expiry in `Idle` with a send pending (42 R141, R145). -/
theorem expiry_idle (hactive : s.wr.active = true) (hpending : s.wr.txPending = true)
    (hidle : s.wr.state = .idle) (now : Time) : expiry now s = expiryIdle now (emitPulse now (fireTimer s)) := by
  simp [expiry, hactive, hpending, hidle]

/-- A header bit of the Reader that is not the sixth is shifted in, at a cursor beyond the header too (41 R113,
log 12). -/
theorem acceptHeaderBit_of_not_last (b : Bool) (t : Time) (hcursor : s.rd.bitCursor.toNat ≠ 5) :
    acceptHeaderBit b t s = s.setRd { s.rd with asm := accumulate s.rd.asm b, bitCursor := s.rd.bitCursor + 1,
                                                lastTs := time s.cfg t } := by
  have hmore : s.rd.bitCursor.toNat + 1 ≠ hdrBits := fun hlast => hcursor (Nat.succ.inj hlast)
  rw [acceptHeaderBit, if_neg hmore]

end Sys2Proof.Machine
end

section
/-! SUPPORT. The delays that a send asks for, and the device after it (42 R145, R148). -/

namespace Sys2Proof.Machine

open Sys2Proof

variable {bytes : List Byte} {s : State}

theorem delaysIn_append (xs ys : List Output) : delaysIn (xs ++ ys) = delaysIn xs ++ delaysIn ys :=
  List.filterMap_append

/-- The Reader takes no part in a send (10 R20). -/
theorem expiries_sameReader (ts : List Time) (s : State) : SameReader s (expiries ts s) := by
  induction ts generalizing s with
  | nil => exact .refl s
  | cons t rest ih => exact (expiry_frame t s).1.trans (ih (expiry t s))

/-- The expiries of a send are one for each bit left, which asks for the interval of that bit and for no other, and
one more, which finds the Writer idle with the send pending (42 R143 to R145). -/
theorem expiries_delays (h : Sending bytes s) {ts : List Time}
    (hlen : ts.length = (bitsLeft bytes s.wr).length + 1) :
    ∃ p t os, expiries ts s = expiry t p ∧ Sending bytes p ∧ p.wr.state = .idle ∧ p.trace = s.trace ++ os ∧
      delaysIn os = bitGaps s.cfg (bitsLeft bytes s.wr) := by
  induction ts generalizing s with
  | nil => simp at hlen
  | cons t rest ih =>
    have hcfg : (expiry t s).cfg = s.cfg := (expiry_frame t s).2.1.cfg
    by_cases hidle : s.wr.state = .idle
    · obtain rfl : rest = [] := by simpa [bitsLeft, hidle] using hlen
      exact ⟨s, t, [], rfl, h, hidle, (List.append_nil _).symm, by simp only [bitsLeft, hidle]; rfl⟩
    · obtain ⟨b, hb⟩ := expiry_sendsBit h hidle t
      obtain ⟨p, t', os, hend, hp, hpidle, htrace, hdelays⟩ := ih hb.sending (by simpa [hb.left] using hlen)
      rw [hb.trace, List.append_assoc] at htrace
      refine ⟨p, t', _, hend, hp, hpidle, htrace, ?_⟩
      rw [delaysIn_append, hdelays, hcfg, hb.left]
      rfl

/-- A send whose expiries have all come is over, and `Sent` is raised (42 R145, R148). -/
theorem expiries_complete (h : Sending bytes s) {ts : List Time}
    (hlen : ts.length = (bitsLeft bytes s.wr).length + 1) :
    (expiries ts s).wr.state = .idle ∧ (expiries ts s).wr.txPending = false ∧
      (expiries ts s).tmr.armed = false ∧ (expiries ts s).sig.sentFlag = true := by
  obtain ⟨p, t, os, hend, hp, hidle, -⟩ := expiries_delays h hlen
  rw [hend, expiry_idle hp.active hp.pending hidle, expiryIdle_eq]
  exact ⟨hidle, rfl, rfl, rfl⟩

section
variable {buffer : List Byte} {length : Nat} {now : Time} {w : State}

/-- From an accepted send on, the Writer asks for the preamble and then for the interval of each bit of the frame
(42 R148). -/
theorem delaysIn_of_send (hw : w = (acceptSend buffer length now s).emit [.retSend true])
    (hsending : Sending (buffer.take length) w) {ts : List Time}
    (hlen : ts.length = (bitsLeft (buffer.take length) w.wr).length + 1) :
    delaysIn ((expiries ts w).trace.drop s.trace.length) =
      interval s.cfg .preamble :: bitGaps s.cfg (bitsLeft (buffer.take length) w.wr) := by
  obtain ⟨p, t, os, hend, hp, hidle, htrace, hdelays⟩ := expiries_delays hsending hlen
  have hfirst : w.trace = s.trace ++ [.pulse (time s.cfg now), .timerSchedule s.cfg.tPre, .retSend true] := by
    rw [hw, acceptSend_eq]
    simp
  have hcfg : w.cfg = s.cfg := by rw [hw]; rfl
  rw [hend, expiry_completes hp hidle, htrace, hfirst, List.append_assoc, List.append_assoc, List.drop_left,
    delaysIn_append, delaysIn_append, hdelays, hcfg]
  exact congrArg (s.cfg.tPre :: ·) (List.append_nil _)

/-- The exact timer delivers the expiries of a send at the times of the pulses of its frame (30 R93, 42 R148). -/
theorem runTx_of_send (hw : w = (acceptSend buffer length now s).emit [.retSend true])
    (hsending : Sending (buffer.take length) w)
    (hleft : bitsLeft (buffer.take length) w.wr = frameBits (buffer.take length)) (hbuffer : length ≤ buffer.length) :
    runTx (8 * length + 7) now w = expiries (laterPulses now (frameGaps s.cfg (buffer.take length))) w := by
  have hcfg : w.cfg = s.cfg := by rw [hw]; rfl
  have hdelay : w.tmr.delay = interval s.cfg .preamble := by rw [hw]; rfl
  have hrun := runTx_eq_expiries hsending now
  rwa [hleft, length_frameBits, List.length_take_of_le hbuffer, hdelay, hcfg] at hrun

end

end Sys2Proof.Machine
end

section
/-! CERTIFICATE. The Writer, one operation at a time, and a whole send (42 R140 to R148). -/

open Sys2Proof Sys2Proof.Machine

/-- Settles O41: the exact timer delivers one expiry for each bit of the frame and one more; the first ask for the
intervals of the bits, the last completes the send, and each emits its pulse. -/
theorem sendPutsItsFrameOnTheWire : Obligations.SendPutsItsFrameOnTheWire := by
  unfold Obligations.SendPutsItsFrameOnTheWire
  intro buffer length now s hactive hpending hpos hfits hcap hbuffer
  have hok := (sendAcceptable_iff length s).2 ⟨hactive, hpos, hfits, hpending⟩
  obtain ⟨w, hw⟩ : ∃ w, w = (acceptSend buffer length now s).emit [.retSend true] := ⟨_, rfl⟩
  obtain ⟨hsending, hleft⟩ := acceptSend_sending hw hactive hpos (hfits.trans hcap) hbuffer
  have hcount : (laterPulses now (frameGaps s.cfg (buffer.take length))).length =
      (bitsLeft (buffer.take length) w.wr).length + 1 := by
    rw [length_laterPulses, frameGaps, List.length_cons, bitGaps, List.length_map, hleft]
  obtain ⟨hidle, hdone, hdisarmed, hsent⟩ := expiries_complete hsending hcount
  have hreader : SameReader s (expiries (laterPulses now (frameGaps s.cfg (buffer.take length))) w) :=
    .trans (by rw [hw]; exact ⟨rfl, rfl⟩) (expiries_sameReader _ w)
  refine ⟨w, (execWrSend_accepted hok hbuffer).trans (congrArg _ hw.symm), ?_⟩
  rw [runTx_of_send hw hsending hleft hbuffer]
  refine ⟨?pulses, ?delays, hidle, hdone, hdisarmed, hsent, hreader.rd, hreader.rbuf⟩
  case pulses => rw [pulsesIn_of_send hw hsending hcount, pulseTimes_eq_laterPulses]
  case delays => rw [delaysIn_of_send hw hsending hcount, hleft, frameGaps]

/-- Settles O19: the pulse is emitted before the dispatch on the state, and no state emits another. -/
theorem expiryEmitsItsPulseFirst : Obligations.ExpiryEmitsItsPulseFirst := by
  unfold Obligations.ExpiryEmitsItsPulseFirst
  intro now s u hactive hpending hnow h
  cases h
  have hfirst := expiry_trace hactive hpending now
  rwa [time_eq_self hnow] at hfirst

/-- Settles O17: the acceptance test decides, and an accepted send holds the caller's bytes from index 0 on. -/
theorem writerSend : Obligations.WriterSend := by
  unfold Obligations.WriterSend
  intro buffer length now s hnow
  refine ⟨fun hactive hpos hfits hidle hbuffer => ⟨Memory.ofBytes 0 buffer, fun i => ?bytes, ?accepted⟩,
    fun hbad => ?rejected⟩
  case bytes =>
    have hread := Memory.read_ofBytes buffer 0 i
    rwa [Nat.zero_add] at hread
  case accepted =>
    have hok := (sendAcceptable_iff length s).2 ⟨hactive, hpos, hfits, hidle⟩
    rw [execWrSend_accepted hok hbuffer, acceptSend_eq, time_eq_self hnow, State.emit]
    simp only [List.append_assoc]
    rfl
  case rejected =>
    have hnot : ¬ sendAcceptable length s = true := by
      rw [sendAcceptable_iff]
      rintro ⟨hactive, hpos, hfits, hidle⟩
      rcases hbad with h | h | h | h
      · simp [hactive] at h
      · omega
      · omega
      · simp [hidle] at h
    rw [exec, execWrSend, if_neg hnot]
    rfl

/-- Settles O18: the gate is closed. -/
theorem strayExpiryDoesNothing : Obligations.StrayExpiryDoesNothing := by
  unfold Obligations.StrayExpiryDoesNothing
  intro now s hstray
  rcases expiry_cases now s with ⟨-, e⟩ | ⟨hgate, -⟩
  · exact congrArg Host.Outcome.next (e.trans (fireTimer_eq s))
  · obtain ⟨hactive, hpending⟩ := Bool.and_eq_true_iff.1 hgate
    rcases hstray with h | h
    · simp [hactive] at h
    · simp [hpending] at h

/-- Settles O20: the cursor selects a bit of the header, which is a bit of `wr.length − 1`. -/
theorem expirySchedulesAHeaderBit : Obligations.ExpirySchedulesAHeaderBit := by
  unfold Obligations.ExpirySchedulesAHeaderBit
  intro now s hactive hpending hsh _ hcursor hnow
  refine congrArg Host.Outcome.next ?_
  rw [expiry_sh hactive hpending hsh, expirySh_of_header (s := emitPulse now (fireTimer s)) hcursor,
    ← headerOf_getLsbD _ (by omega)]
  exact schedule_after_pulse hnow _ s.free _

/-- Settles O21: the byte is there, so its bit is scheduled and nothing is drawn. -/
theorem expirySchedulesADataBit : Obligations.ExpirySchedulesADataBit := by
  unfold Obligations.ExpirySchedulesADataBit
  intro now s v hactive hpending hsd hread hnow
  refine congrArg Host.Outcome.next ?_
  rw [expiry_sd hactive hpending hsd, expirySd_of_read (s := emitPulse now (fireTimer s)) hsd hread]
  exact schedule_after_pulse hnow _ s.free _

/-- Settles O22: the last expiry of a send, at a time on the clock. -/
theorem expiryCompletesTheSend : Obligations.ExpiryCompletesTheSend := by
  unfold Obligations.ExpiryCompletesTheSend
  intro now s hactive hpending hidle hnow
  refine congrArg Host.Outcome.next ?_
  rw [expiry_idle hactive hpending hidle, expiryIdle_eq, emitPulse_trace, emitPulse_cfg, fireTimer_cfg,
    time_eq_self hnow, List.append_assoc]
  rfl

/-- Settles O23: a start acts on a stopped Writer alone, a stop on every one. -/
theorem writerStartAndStop : Obligations.WriterStartAndStop := by
  unfold Obligations.WriterStartAndStop
  intro now s
  refine ⟨fun hstopped hnow => congrArg Host.Outcome.next ?start,
    fun hactive => congrArg Host.Outcome.next (if_pos hactive), rfl⟩
  case start =>
    rw [writerStart, if_neg (Bool.eq_false_iff.1 hstopped), time_eq_self hnow]
    rfl

/-- Settles O24: a cursor beyond the header selects the bit that is drawn, a length of 0 has six ones for its
header, and the Reader's test for the sixth bit fails beyond it. -/
theorem headerStatesOutOfRange : Obligations.HeaderStatesOutOfRange := by
  unfold Obligations.HeaderStatesOutOfRange
  intro now s hnow
  refine ⟨fun hactive hpending hsh hcursor => ⟨Config.freeBit s.free, congrArg Host.Outcome.next ?beyond⟩,
    fun hactive hpending hsh hcursor hzero => congrArg Host.Outcome.next ?zero,
    fun b hahe hcursor hb => congrArg Host.Outcome.next ?reader⟩
  case beyond =>
    rw [expiry_sh hactive hpending hsh, expirySh_beyond_header (s := emitPulse now (fireTimer s)) hcursor]
    exact schedule_after_pulse hnow _ (s.free + 1) _
  case zero =>
    have hone : (headerOf s.wr.length).getLsbD (5 - s.wr.bitCursor.toNat) = true := by
      rw [hzero]
      exact headerOf_zero_getLsbD (by omega)
    rw [expiry_sh hactive hpending hsh, expirySh_of_header (s := emitPulse now (fireTimer s)) hcursor,
      emitPulse_wr, fireTimer_wr, hone]
    exact schedule_after_pulse hnow true s.free _
  case reader =>
    rw [pulse_of_header_bit hahe hb, acceptHeaderBit_of_not_last b now (by omega), time_eq_self hnow]
    rfl

end

section
/-! SUPPORT. An `LK.SEND` that is accepted or rejected (43 R161, R166). -/

namespace Sys2Proof.Machine

open Sys2Proof

/-- A send is rejected by any one of the four tests (43 R161 step 1). -/
theorem sendAcceptable_eq_false_iff (length : Nat) (s : State) :
    sendAcceptable length s = false ↔
      s.wr.active = false ∨ length < 1 ∨ s.cfg.capacity < length ∨ s.wr.txPending = true := by
  simp only [sendAcceptable, Bool.and_eq_false_iff, Bool.not_eq_false', decide_eq_false_iff_not, Nat.not_le,
    or_assoc]

variable {buffer : List Byte} {length : Nat} {now : Time} {s u : State}

/-- An acceptable send with a long enough buffer blanks the Reader and sends (43 R161). -/
theorem execLkSend_accepted (hok : sendAcceptable length s = true) (hbuffer : length ≤ buffer.length) :
    exec (.lkSend buffer length now) s =
      .next ((acceptSend buffer length now (blank (s.setTxBlank true))).emit [.retSend true]) := by
  simp only [exec, execLkSend, if_pos hok, if_pos hbuffer]

/-- What an accepted send of the link writes (43 R161). -/
theorem acceptSend_of_blanked {st : RdState} {t : Time} (hst : blankNext s.rd.state = st) (ht : time s.cfg now = t) :
    (acceptSend buffer length now (blank (s.setTxBlank true))).emit [.retSend true] =
      { s with
        txBlank := true
        rd := { s.rd with state := st }
        wbuf := Memory.ofBytes 0 buffer
        wr := { s.wr with length := BitVec.ofNat 7 length, byteCursor := 0, bitCursor := 0,
                          txPending := true, state := .sh }
        tmr := { armed := true, delay := s.cfg.tPre }
        trace := s.trace ++ [.pulse t, .timerSchedule s.cfg.tPre, .retSend true] } := by
  subst hst ht
  rw [acceptSend_eq, State.emit]
  simp only [List.append_assoc]
  rfl

/-- A send that is not acceptable answers failure (43 R161). -/
theorem execLkSend_rejected (hbad : sendAcceptable length s = false) :
    exec (.lkSend buffer length now) s = .next (s.emit [.retSend false]) := by
  simp only [exec, execLkSend, hbad, Bool.false_eq_true, if_false]

/-- A send that begins to be pending was accepted: a rejected one leaves the Writer alone (43 R161). -/
theorem eq_of_execLkSend_pending (h : exec (.lkSend buffer length now) s = .next u)
    (hpending : u.wr.txPending = true) (hidle : s.wr.txPending = false) :
    u = (acceptSend buffer length now (blank (s.setTxBlank true))).emit [.retSend true] := by
  rcases execLkSend_next h with ⟨-, -, hu⟩ | rfl
  · exact hu
  · rw [State.emit_wr, hidle] at hpending
    cases hpending

/-- A Reader that is blanked hears no pulse, and a stopped one, which blanking leaves stopped, hears none either
(41 R115, R120). -/
theorem pulse_of_blanked {t : Time} {st : RdState} (hblanked : s.rd.state = blankNext st) : pulse t s = s := by
  refine pulse_ignored ?_
  rw [hblanked]
  rcases blankNext_cases st with ⟨-, e⟩ | ⟨-, e⟩ | ⟨-, e⟩ <;> simp [e]

/-- A device whose send was accepted ignores every pulse (43 R166). -/
theorem pulse_of_execLkSend_pending (h : exec (.lkSend buffer length now) s = .next u)
    (hpending : u.wr.txPending = true) (hidle : s.wr.txPending = false) (t : Time) : pulse t u = u := by
  refine pulse_of_blanked (st := s.rd.state) ?_
  rw [eq_of_execLkSend_pending h hpending hidle]
  rfl

/-- An accepted send emits one pulse (43 R161, 42 R140). -/
theorem pulsesEmitted_of_execLkSend_pending (h : exec (.lkSend buffer length now) s = .next u)
    (hpending : u.wr.txPending = true) (hidle : s.wr.txPending = false) : pulsesEmitted s u = 1 := by
  have htrace : u.trace = s.trace ++ [.pulse (time s.cfg now), .timerSchedule s.cfg.tPre, .retSend true] := by
    rw [eq_of_execLkSend_pending h hpending hidle, acceptSend_of_blanked rfl rfl]
  rw [pulsesEmitted, htrace, List.drop_left]
  rfl

end Sys2Proof.Machine
end

section
/-! SUPPORT. The lines of a network: pulses come onto them, wait in order of time and are heard (43 R169; log 20,
23, 28). -/

namespace Sys2Proof.Machine

open Sys2Proof

/-! ## The line of a device -/

/-- A pulse that can be told apart, or whose outcome is two events, is not merged (43 R169). -/
theorem merges_eq_false_of_two_events {m : Node} {t : Time}
    (h : coincides m t = false ∨ m.captures = [] ∨ m.captures.head? = some .apart) : merges m t = false := by
  refine Bool.eq_false_iff.2 fun hmerges => ?_
  obtain ⟨hcoincides, rearm, hhead⟩ := merges_eq_true_iff.1 hmerges
  rcases h with h | h | h
  · simp [h] at hcoincides
  · simp [h] at hhead
  · simp [h] at hhead

/-- Where no pulse waits, the one that comes is heard as soon as time has passed it. -/
theorem hearBefore_post_of_no_line {m : Node} {t later : Time} (hline : m.line = []) (ht : t < later) :
    (m.post t).hearBefore later = m.hear t := by
  have hnow : insertTime t m.line = [t] := by rw [hline]; rfl
  have hset : ({ m with line := [] } : Node) = m := by rw [← hline]
  rw [Node.hearBefore, post_line, hnow, List.takeWhile_cons_of_pos (by simpa using ht),
    List.dropWhile_cons_of_pos (by simpa using ht)]
  exact congrArg (Node.hear t) hset

/-- What a device makes of a train of pulses does not depend on what else waits on its line. -/
theorem foldl_hear_setLine (ps : List Time) (m : Node) (line : List Time) :
    ps.foldl (fun x p => x.hear p) { m with line := line } =
      { ps.foldl (fun x p => x.hear p) m with line := line } := by
  induction ps generalizing m with
  | nil => rfl
  | cons p rest ih => rw [List.foldl_cons, List.foldl_cons, hear_setLine, ih]

/-- As time passes to `t`, a device hears the pulses of an ordered line that lie before `t`, the earliest first. -/
theorem hearBefore_device {m : Node} (h : m.line.Pairwise (· ≤ ·)) (t : Time) :
    (m.hearBefore t).device =
      ((m.line.filter fun p => decide (p < t)).foldl (fun x p => x.hear p) m).device := by
  rw [Node.hearBefore, foldl_hear_setLine, (takeWhile_before h).1]

section
variable {m : Node} {clock p : Time} {rest : List Time}

/-- A pulse that is due is heard and leaves the line. -/
theorem hearNext_of_due (hline : m.line = p :: rest) (hdue : p ≤ clock) :
    m.hearNext clock = { m.hear p with line := rest } := by
  simp only [Node.hearNext, hline, if_pos hdue, hear_setLine]

/-- A pulse that the clock has not reached waits. -/
theorem hearNext_of_early (hline : m.line = p :: rest) (hearly : clock < p) : m.hearNext clock = m := by
  simp only [Node.hearNext, hline, if_neg (Nat.not_le.2 hearly)]

end

/-! ## Lines in order of time -/

/-- The pulses on the line of a device wait in order of time. -/
def Node.Ordered (m : Node) : Prop := m.line.Pairwise (· ≤ ·)

/-- So they do at every device of a network. -/
def Net.Ordered (n : Net) : Prop := ∀ m ∈ n.nodes, m.Ordered

theorem Node.Ordered.post {m : Node} (h : m.Ordered) (t : Time) : (m.post t).Ordered := insertTime_ordered h

theorem Node.Ordered.foldl_post {m : Node} (h : m.Ordered) (ts : List Time) :
    (ts.foldl (fun m p => m.post p) m).Ordered := by
  induction ts generalizing m with
  | nil => exact h
  | cons t rest ih => exact ih (h.post t)

theorem Node.Ordered.hearBefore {m : Node} (h : m.Ordered) (t : Time) : (m.hearBefore t).Ordered := by
  rw [Node.Ordered, hearBefore_line]
  exact h.sublist (List.dropWhile_sublist _)

theorem Node.Ordered.hearNext {m : Node} (h : m.Ordered) (clock : Time) : (m.hearNext clock).Ordered := by
  cases hline : m.line with
  | nil => rwa [Node.hearNext, hline]
  | cons p rest =>
    by_cases hdue : p ≤ clock
    · rw [hearNext_of_due hline hdue]
      rw [Node.Ordered, hline] at h
      exact h.of_cons
    · rwa [hearNext_of_early hline (Nat.lt_of_not_le hdue)]

section
variable {n : Net}

/-- What every device keeps in order, the network does. -/
theorem Net.Ordered.map (h : n.Ordered) {f : Node → Node} (hf : ∀ m : Node, m.Ordered → (f m).Ordered)
    (clock : Time) : Net.Ordered { nodes := n.nodes.map f, clock := clock } := by
  intro y hy
  obtain ⟨x, hx, rfl⟩ := List.mem_map.1 hy
  exact hf x (h x hx)

theorem Net.Ordered.set (h : n.Ordered) (k : Nat) {m : Node} (hm : m.Ordered) :
    Net.Ordered { n with nodes := n.nodes.set k m } := by
  intro x hx
  rcases List.mem_or_eq_of_mem_set hx with hx | rfl
  · exact h x hx
  · exact hm

theorem Net.Ordered.post (h : n.Ordered) (t : Time) : (n.post t).Ordered := h.map (fun _ hm => hm.post t) n.clock

theorem Net.Ordered.advance (h : n.Ordered) (t : Time) : (n.advance t).Ordered :=
  h.map (fun _ hm => hm.hearBefore t) (max n.clock t)

theorem Net.Ordered.deliver (h : n.Ordered) (k : Nat) : (n.deliver k).Ordered := by
  intro y hy
  obtain ⟨j, hj⟩ := List.mem_iff_getElem?.1 hy
  rw [Net.deliver, List.getElem?_modify] at hj
  obtain ⟨x, hx, rfl⟩ := Option.map_eq_some_iff.1 hj
  have hordered := h x (List.mem_of_getElem? hx)
  split
  · exact hordered.hearNext n.clock
  · exact hordered

theorem Net.Ordered.carry (h : n.Ordered) (j : Nat) (t : Time) : (Net.carry j t n).Ordered := by
  induction j generalizing n with
  | zero => exact h
  | succ j ih => exact ih (h.post t)

/-- A wire symbol is heard at once, a frame comes onto the line of its device, and the pulses of any other
instruction come onto every line. -/
theorem Net.Ordered.land (h : n.Ordered) (k : Nat) (i : Instr) (t : Time) {m : Node} (hm : m.Ordered) (s : State) :
    (n.land k i t m s).Ordered := by
  have hput : Net.Ordered { n with nodes := n.nodes.set k { m with device := s } } := h.set k hm
  cases i with
  | symZero | symOne | symPreamble | symInvalid _ => exact h.set k hm
  | frame _ _ => exact h.set k (hm.foldl_post _)
  | _ => exact hput.carry _ t

theorem Net.Ordered.run (h : n.Ordered) {k : Nat} {i : Instr} {t : Time} {n' : Net}
    (hrun : n.run k i t = .next n') : n'.Ordered := by
  unfold Net.run at hrun
  split at hrun
  · cases hrun
    exact h
  · next m hm =>
    split at hrun <;> cases hrun
    exact h.land k i t (h m (List.mem_of_getElem? hm)) _

/-- A network that answers runs under admitted configurations. -/
theorem Net.underAdmitted_eq_next {o : NetOutcome} {n' : Net} (h : n.underAdmitted o = .next n') : o = .next n' := by
  unfold Net.underAdmitted at h
  split at h
  · exact h
  · cases h

theorem Net.Ordered.act (h : n.Ordered) {k : Nat} {i : Instr} {n' : Net} (hact : n.act k i = .next n') :
    n'.Ordered := by
  have hnext := Net.underAdmitted_eq_next hact
  split at hnext
  · cases hnext
    exact h
  · exact (h.advance _).run hnext

theorem Net.Ordered.noise (h : n.Ordered) {t : Time} {n' : Net} (hnoise : n.noise t = .next n') : n'.Ordered := by
  cases Net.underAdmitted_eq_next hnoise
  exact (h.advance t).post t

end

/-! ## A send on a silent wire -/

/-- Time passes and no device hears anything: no pulse is under way. -/
theorem Net.advance_nodes_of_silent {n : Net} (h : ∀ x ∈ n.nodes, x.line = []) (t : Time) :
    (n.advance t).nodes = n.nodes := by
  refine (List.map_congr_left fun x hx => ?_).trans (List.map_id _)
  exact hearBefore_of_silent (by simp [h x hx])

/-- On a silent wire of admitted devices, an instruction with a reading runs at it on the device as it is. -/
theorem Net.act_of_silent {n : Net} {k : Nat} {i : Instr} {m : Node} {u : State}
    (hnet : ∀ x ∈ n.nodes, x.device.cfg.Admitted ∧ x.line = []) (hm : n.nodes[k]? = some m)
    (hu : exec i m.device = .next u) :
    n.act k i = .next ((n.advance (readingOn n.clock i m.device)).land k i (readingOn n.clock i m.device) m u) := by
  have hadvanced : (n.advance (readingOn n.clock i m.device)).nodes[k]? = some m := by
    rw [Net.advance_nodes_of_silent fun x hx => (hnet x hx).2, hm]
  simp only [Net.act, Net.underAdmitted, if_pos fun x hx => (hnet x hx).1, hm, Net.run_of_next hadvanced hu]

/-- The devices once time has passed an accepted send on a silent wire: the sender's, with the send, and every
other has heard one pulse at its reading (43 R169). -/
theorem Net.nodes_of_send {n : Net} {k : Nat} {buffer : List Byte} {length : Nat} {now later : Time} {m : Node}
    {u : State} (hnet : ∀ x ∈ n.nodes, x.device.cfg.Admitted ∧ x.line = []) (hm : n.nodes[k]? = some m)
    (hu : exec (.lkSend buffer length now) m.device = .next u) (hone : pulsesEmitted m.device u = 1)
    (hlater : now < later) :
    ∃ n', n.act k (.lkSend buffer length now) = .next n' ∧
      (n'.advance later).nodes = (n.nodes.set k { m with device := u }).map (Node.hear now) := by
  refine ⟨_, Net.act_of_silent hnet hm hu, ?_⟩
  have hsilent : ∀ x ∈ n.nodes.set k { m with device := u }, x.line = [] := by
    intro x hx
    rcases List.mem_or_eq_of_mem_set hx with hx | rfl
    · exact (hnet x hx).2
    · exact (hnet m (List.mem_of_getElem? hm)).2
  have hland : ((n.advance now).land k (.lkSend buffer length now) now m u).nodes =
      (n.nodes.set k { m with device := u }).map (Node.post now) := by
    simp only [Net.land, hone, Net.carry_succ, Net.carry_zero, Net.post,
      Net.advance_nodes_of_silent fun x hx => (hnet x hx).2]
  refine (congrArg (List.map (Node.hearBefore later)) hland).trans ?_
  rw [List.map_map]
  exact List.map_congr_left fun x hx => hearBefore_post_of_no_line (hsilent x hx) hlater

end Sys2Proof.Machine
end

section
/-! CERTIFICATE. A send and the wire (43 R166, R169). -/

open Sys2Proof Sys2Proof.Machine

/-- Settles O34: the accepted send left the Reader blanked, or stopped. -/
theorem ownPulsesAreNotHeard : Obligations.OwnPulsesAreNotHeard := by
  unfold Obligations.OwnPulsesAreNotHeard
  intro buffer length now t s u hsend hpending hidle
  exact congrArg Host.Outcome.next (pulse_of_execLkSend_pending hsend hpending hidle t)

/-- Settles O35: the first pulse is heard by every device once, the order of the lines is an invariant of the
network, and an ordered line is heard from its front. -/
theorem firstPulseReachesEveryDevice : Obligations.FirstPulseReachesEveryDevice := by
  unfold Obligations.FirstPulseReachesEveryDevice
  refine ⟨fun buffer length now later k n m u hm hsend hpending hidle hlater hnet => ?send,
    fun n (h : n.Ordered) => ⟨fun k i n' hact => h.act hact, fun t n' hnoise => h.noise hnoise,
      h.deliver, h.advance⟩,
    fun m h => ⟨fun t => ⟨?line, hearBefore_device h t⟩, fun clock p rest hline =>
      ⟨fun hdue => ?due, hearNext_of_early hline⟩⟩⟩
  case send =>
    obtain ⟨n', hact, hnodes⟩ := Net.nodes_of_send hnet hm hsend
      (pulsesEmitted_of_execLkSend_pending hsend hpending hidle) hlater
    refine ⟨n', hact, by simp [hnodes], ?sender, fun j x hj hx => ⟨x.hear now, ?_, fun htwo => ?two,
      fun rearm hcoincides hhead => ?merged⟩⟩
    case sender =>
      have hk : k < n.nodes.length := (List.getElem?_eq_some_iff.1 hm).1
      simp [hnodes, hk, hear_device, pulse_of_execLkSend_pending hsend hpending hidle now]
    case two =>
      rw [hear_device, merges_eq_false_of_two_events htwo]
      rfl
    case merged =>
      rw [hear_device, merges_eq_true_iff.2 ⟨hcoincides, rearm, hhead⟩]
      rfl
    · rw [hnodes, List.getElem?_map, List.getElem?_set_ne hj.symm, hx]
      rfl
  case line => rw [hearBefore_line, (takeWhile_before h).2]
  case due =>
    rw [hearNext_of_due hline hdue]
    exact ⟨rfl, rfl⟩

end

section
/-! SUPPORT. The answer of the link, its service, its starts and its stop (43 R160, R162 to R165). -/

namespace Sys2Proof.Machine

open Sys2Proof

/-! ## The answer of `LK.CANSEND` -/

theorem linkStarted_iff (s : State) : linkStarted s = true ↔ s.wr.active = true ∧ s.rd.state ≠ .idle := by
  simp [linkStarted]

/-- A link with one of its two units stopped is not started (43 R164). -/
theorem linkStarted_eq_false_iff (s : State) :
    linkStarted s = false ↔ s.wr.active = false ∨ s.rd.state = .idle := by
  rw [linkStarted, Bool.and_eq_false_iff, bne_eq_false_iff_eq]

theorem isBlanking_eq_false_iff (s : State) : isBlanking s = false ↔ s.rd.state ≠ .bl ∧ s.rd.state ≠ .blp := by
  simp [isBlanking]

theorem readerCanSend_iff (now silence : Time) (s : State) :
    readerCanSend now silence s = true ↔
      s.rd.state ≠ .ahe ∧ s.rd.state ≠ .adb ∧ silence < elapsed s.cfg s.rd.lastTs now := by
  simp [readerCanSend, and_assoc]

/-- The four terms of 43 R160. -/
theorem linkCanSend_iff (now : Time) (s : State) :
    linkCanSend now s = true ↔
      (s.wr.active = true ∧ s.rd.state ≠ .idle) ∧ (s.rd.state ≠ .bl ∧ s.rd.state ≠ .blp) ∧
      (s.rd.state ≠ .ahe ∧ s.rd.state ≠ .adb ∧ s.cfg.rxSilence < elapsed s.cfg s.rd.lastTs now) ∧
      s.cfg.txSilence < elapsed s.cfg s.wr.lastCompletionTs now := by
  simp only [linkCanSend, Bool.and_eq_true, Bool.not_eq_true', decide_eq_true_iff, linkStarted_iff,
    isBlanking_eq_false_iff, readerCanSend_iff, and_assoc]

/-! ## `LK.SERVICE` -/

section
variable (s : State)

/-- The outputs of step 1 of 43 R162, none where the flag is not set. -/
theorem serviceLost_eq :
    serviceLost s = { s with
      sig := { s.sig with lostFlag := false }
      trace := s.trace ++ if s.sig.lostFlag then [.callback (.lost s.sig.lostTs)] else [] } := by
  unfold serviceLost
  split
  · rfl
  · next hunset => rw [← Bool.eq_false_iff.2 hunset, List.append_nil]

/-- The outputs of step 2 of 43 R162. -/
theorem serviceReceived_eq :
    serviceReceived s = { s with
      sig := { s.sig with receivedFlag := false }
      trace := s.trace ++
        if s.sig.receivedFlag then [.callback (.received s.sig.receivedTs s.sig.receivedLen)] else [] } := by
  unfold serviceReceived
  split
  · rfl
  · next hunset => rw [← Bool.eq_false_iff.2 hunset, List.append_nil]

/-- With a new send in flight the blanking goes on (43 R162 step 3, item iii). -/
theorem endBlanking_of_pending (h : s.wr.txPending = true) : endBlanking s = s := if_pos h

/-- With none it ends, and the Reader is restored. -/
theorem endBlanking_of_no_send (h : s.wr.txPending = false) :
    endBlanking s = { s with
      txBlank := false
      rd := { s.rd with state := restoreNext false s.rd.state } } := if_neg (Bool.eq_false_iff.1 h)

/-- The end of blanking raises and delivers nothing. -/
theorem endBlanking_records : (endBlanking s).sig = s.sig ∧ (endBlanking s).trace = s.trace := by
  unfold endBlanking
  split <;> exact ⟨rfl, rfl⟩

/-- The outputs of step 3 of 43 R162. -/
theorem serviceSent_records :
    (serviceSent s).sig = { s.sig with sentFlag := false } ∧
      (serviceSent s).trace = s.trace ++ if s.sig.sentFlag then [.callback .sent] else [] := by
  obtain ⟨hsig, htrace⟩ := endBlanking_records s
  unfold serviceSent
  split
  · rw [consume_sig, consume_trace, hsig, htrace]
    exact ⟨rfl, rfl⟩
  · next hunset => exact ⟨by rw [← Bool.eq_false_iff.2 hunset], (List.append_nil _).symm⟩

/-- The sent signal ends the blanking if no new send is in flight. -/
theorem serviceSent_restores (hsent : s.sig.sentFlag = true) (hidle : s.wr.txPending = false) :
    (serviceSent s).txBlank = false ∧
      (serviceSent s).rd = { s.rd with state := restoreNext false s.rd.state } := by
  rw [serviceSent, if_pos hsent, endBlanking_of_no_send s hidle]
  exact ⟨rfl, rfl⟩

/-- Without it, or with a new send in flight, the Reader stays as it is. -/
theorem serviceSent_keeps_reader (h : s.sig.sentFlag = false ∨ s.wr.txPending = true) :
    (serviceSent s).txBlank = s.txBlank ∧ (serviceSent s).rd = s.rd := by
  unfold serviceSent
  split
  · next hset =>
    rw [endBlanking_of_pending s (h.resolve_left (by simp [hset]))]
    exact ⟨rfl, rfl⟩
  · exact ⟨rfl, rfl⟩

/-- No step of a service writes the configuration, `RBUF` or the stimuli. -/
theorem service_frame :
    (serviceSent (serviceReceived (serviceLost s))).cfg = s.cfg ∧
      (serviceSent (serviceReceived (serviceLost s))).rbuf = s.rbuf ∧
      (serviceSent (serviceReceived (serviceLost s))).stim = s.stim :=
  service_induct (P := fun u => u.cfg = s.cfg ∧ u.rbuf = s.rbuf ∧ u.stim = s.stim) (fun _ _ hu => hu)
    (fun _ hu => hu) ⟨rfl, rfl, rfl⟩

end

/-! ## `LK.START` -/

/-- The Reader's start on a time on the clock (41 R124). -/
theorem readerStart_eq_ite {now : Time} {s : State} (hnow : now < 2 ^ s.cfg.tsw) :
    readerStart now s =
      s.setRd (if s.rd.state = .idle then { s.rd with lastTs := now, state := .aps } else s.rd) := by
  unfold readerStart
  split
  · next hidle => rw [if_pos hidle, time_eq_self hnow]
  · next hrunning => exact congrArg s.setRd (if_neg hrunning).symm

/-- The Writer's start on a time on the clock (42 R146). -/
theorem writerStart_eq_ite {now : Time} {s : State} (hnow : now < 2 ^ s.cfg.tsw) :
    writerStart now s =
      s.setWr (if s.wr.active = false then
        { s.wr with active := true, state := .idle, txPending := false, lastCompletionTs := now }
      else s.wr) := by
  unfold writerStart
  split
  · next hactive => exact congrArg s.setWr (if_neg (by simp [hactive])).symm
  · next hstopped => rw [if_pos (Bool.eq_false_iff.2 hstopped), time_eq_self hnow]

end Sys2Proof.Machine
end

section
/-! CERTIFICATE. The Arbiter, one operation at a time (43 R160 to R165). -/

open Sys2Proof Sys2Proof.Machine

/-- Settles O26: term by term; a difference of times reads the low `TSW` bits of every time, on the clock or not. -/
theorem linkCanSendAnswers : Obligations.LinkCanSendAnswers := by
  unfold Obligations.LinkCanSendAnswers
  intro now s _
  refine congrArg (fun b => Host.Outcome.next (s.emit [.retBool b])) ?_
  rw [Bool.eq_iff_iff, linkCanSend_iff, decide_eq_true_iff]

/-- Settles O27: the acceptance test comes first, then the blanking, then the send. -/
theorem linkSend : Obligations.LinkSend := by
  unfold Obligations.LinkSend
  intro buffer length now s hnow
  refine ⟨fun hactive hpos hfits hidle hbuffer => ⟨Memory.ofBytes 0 buffer, fun i => ?bytes, ?accepted⟩,
    fun hbad => execLkSend_rejected ((sendAcceptable_eq_false_iff length s).2 hbad)⟩
  case bytes => simpa using Memory.read_ofBytes buffer 0 i
  case accepted =>
    have hok := (sendAcceptable_iff length s).2 ⟨hactive, hpos, hfits, hidle⟩
    refine (execLkSend_accepted hok hbuffer).trans
      (congrArg Host.Outcome.next (acceptSend_of_blanked ?_ (time_eq_self hnow)))
    cases s.rd.state <;> rfl

/-- Settles O28: the three steps one after another; only the third writes the Reader's side. -/
theorem serviceDeliversPendingSignals : Obligations.ServiceDeliversPendingSignals := by
  unfold Obligations.ServiceDeliversPendingSignals
  intro s
  have hwriter := service_sameWriter s
  obtain ⟨hcfg, hrbuf, hstim⟩ := service_frame s
  obtain ⟨hsig, htrace⟩ := serviceSent_records (serviceReceived (serviceLost s))
  have hsteps : serviceReceived (serviceLost s) = { s with
      sig := { s.sig with lostFlag := false, receivedFlag := false }
      trace := s.trace ++ (if s.sig.lostFlag then [.callback (.lost s.sig.lostTs)] else []) ++
        (if s.sig.receivedFlag then [.callback (.received s.sig.receivedTs s.sig.receivedLen)] else []) } := by
    rw [serviceReceived_eq, serviceLost_eq]
  refine ⟨_, rfl, ?sig, ?trace, fun hsent hidle => ?restored, fun h => ?kept, hcfg, hrbuf, hwriter.wr,
    hwriter.wbuf, hwriter.tmr, hstim, hwriter.free⟩
  case sig => rw [hsig, hsteps]
  case trace => rw [htrace, hsteps, List.append_assoc, List.append_assoc]
  case restored =>
    obtain ⟨hblank, hrd⟩ := serviceSent_restores (serviceReceived (serviceLost s)) (by rw [hsteps]; exact hsent)
      (by rw [hsteps]; exact hidle)
    refine ⟨hblank, hrd.trans ?_⟩
    rw [hsteps]
    cases s.rd.state <;> rfl
  case kept =>
    obtain ⟨hblank, hrd⟩ := serviceSent_keeps_reader (serviceReceived (serviceLost s)) (by rw [hsteps]; exact h)
    rw [hblank, hrd, hsteps]
    exact ⟨rfl, rfl⟩

/-- Settles O29: a release restores to the Arbiter's level, a start acts on the stopped units alone, and a stop
stops both. -/
theorem linkRestoreStartStop : Obligations.LinkRestoreStartStop := by
  unfold Obligations.LinkRestoreStartStop
  intro now s
  refine ⟨fun h => congrArg (fun b => Host.Outcome.next (restore b s)) h,
    fun h => congrArg (fun b => Host.Outcome.next (restore b s)) h, ⟨_, rfl⟩,
    fun hactive hrunning => if_pos ((linkStarted_iff s).2 ⟨hactive, hrunning⟩), fun hstopped hnow => ?start, rfl⟩
  case start =>
    have hnot := Bool.eq_false_iff.1 ((linkStarted_eq_false_iff s).2 hstopped)
    have hwriter (r : Reader) := writerStart_eq_ite (s := s.setRd r) hnow
    rw [exec, execLkStart, if_neg hnot, readerStart_eq_ite hnow, hwriter]
    rfl

end

section
/-! SUPPORT. A signal raised, a device with no signal pending, and the answer to each detected error (60 R180 to
R184, R188, R189). -/

namespace Sys2Proof.Machine

open Sys2Proof

/-! ## Raising and delivering -/

/-- Raising a signal writes its cell and the trace, and nothing else of the device (60 R188). -/
theorem raise_eq (g : Signal) (s : State) :
    raise g s = { s with sig := s.sig.record g, trace := s.trace ++ [.raised g] } := rfl

/-- The second of two losses overwrites the first (60 R188). -/
theorem Signals.record_lost_lost (c : Signals) (ts ts' : Time) :
    (c.record (.lost ts)).record (.lost ts') = c.record (.lost ts') := rfl

/-- The second of two packets overwrites the first, its length too (60 R188). -/
theorem Signals.record_received_received (c : Signals) (ts ts' : Time) (len len' : BitVec 7) :
    (c.record (.received ts len)).record (.received ts' len') = c.record (.received ts' len') := rfl

/-- A service leaves no flag set (43 R162, 60 R189). -/
theorem service_flags (s : State) :
    (serviceSent (serviceReceived (serviceLost s))).sig.lostFlag = false ∧
      (serviceSent (serviceReceived (serviceLost s))).sig.receivedFlag = false ∧
      (serviceSent (serviceReceived (serviceLost s))).sig.sentFlag = false := by
  rw [(serviceSent_records _).1, serviceReceived_eq, serviceLost_eq]
  exact ⟨rfl, rfl, rfl⟩

/-- With no flag set a service delivers nothing and changes nothing (43 R162). -/
theorem service_of_none_pending {s : State} (hlost : s.sig.lostFlag = false) (hreceived : s.sig.receivedFlag = false)
    (hsent : s.sig.sentFlag = false) : serviceSent (serviceReceived (serviceLost s)) = s := by
  have skipLost : serviceLost s = s := if_neg (Bool.eq_false_iff.1 hlost)
  have skipReceived : serviceReceived s = s := if_neg (Bool.eq_false_iff.1 hreceived)
  have skipSent : serviceSent s = s := if_neg (Bool.eq_false_iff.1 hsent)
  rw [skipLost, skipReceived, skipSent]

/-! ## Errors -/

section
variable {i : Instr} {e : LinkError} {t : Time} {s : State}

/-- A length beyond `CAPACITY` makes the pulse that completes the header a candidate (41 R113). -/
theorem acceptHeaderBit_of_oversized {b : Bool} (hlast : s.rd.bitCursor.toNat + 1 = hdrBits)
    (hover : s.cfg.capacity < ((accumulate s.rd.asm b).setWidth 6).toNat + 1) :
    acceptHeaderBit b t s = resync t s := by
  rw [BitVec.toNat_setWidth] at hover
  rw [acceptHeaderBit_of_last b t (Nat.succ.inj hlast), if_pos hover]

/-- Every error that a pulse can make the Reader detect, and what it then does (60 R180 rows 1 to 4): it
resynchronises on the pulse, after a loss in the data alone. -/
theorem pulse_of_error (h : pulseError t s = some e) :
    (e = .oversizedLength ∧ pulse t s = resync t s) ∨
    (e = .invalidInterval ∧ s.rd.state ≠ .adb ∧ pulse t s = resync t s) ∨
    (e = .invalidInterval ∧ s.rd.state = .adb ∧ pulse t s = resync t (raise (.lost s.rd.startTs) s)) := by
  cases hs : s.rd.state with
  | ape =>
    simp only [pulseError, hs] at h
    split at h
    · cases h
    · next hnot =>
      cases h
      exact .inr (.inl ⟨rfl, nofun, pulse_of_no_preamble hs (Bool.eq_false_iff.2 hnot)⟩)
  | ahe =>
    cases hbit : bitOf (classify s.cfg (elapsed s.cfg s.rd.lastTs t)) with
    | none =>
      simp only [pulseError, hs, hbit] at h
      cases h
      exact .inr (.inl ⟨rfl, nofun, by simp only [pulse, hs, pulseAhe, hbit]⟩)
    | some b =>
      have hpulse : pulse t s = acceptHeaderBit b t s := by simp only [pulse, hs, pulseAhe, hbit]
      simp only [pulseError, hs, hbit] at h
      split at h
      · next hoversized =>
        obtain ⟨hlast, hover⟩ := hoversized
        cases h
        exact .inl ⟨rfl, hpulse.trans (acceptHeaderBit_of_oversized hlast hover)⟩
      · cases h
  | adb =>
    simp only [pulseError, hs] at h
    split at h
    · next hinvalid =>
      cases h
      exact .inr (.inr ⟨rfl, rfl, pulse_of_invalid_in_data hs hinvalid⟩)
    · cases h
  | _ => simp [pulseError, hs] at h

/-- An unacceptable send of the Writer answers failure and does nothing else (42 R140). -/
theorem execWrSend_rejected {buffer : List Byte} {length : Nat} {now : Time}
    (hbad : sendAcceptable length s = false) :
    exec (.wrSend buffer length now) s = .next (s.emit [.retSend false]) :=
  if_neg (Bool.eq_false_iff.1 hbad)

/-- Everything an operation that detects an error does (60 R180 to R184): each answers a next state, so none
stops the machine or diverts it. -/
theorem exec_of_error (h : errorOf i s = some e) :
    (e = .oversizedLength ∧ ∃ t, exec i s = .next (resync t s)) ∨
    (e = .invalidInterval ∧ s.rd.state ≠ .adb ∧ ∃ t, exec i s = .next (resync t s)) ∨
    (e = .invalidInterval ∧ s.rd.state = .adb ∧
      ∃ t, exec i s = .next (resync t (raise (.lost s.rd.startTs) s))) ∨
    (e = .stuckPacket ∧
      exec i s = .next ((raise (.lost s.rd.startTs) s).setRd { s.rd with state := .aps })) ∨
    (e = .sendMisuse ∧ exec i s = .next (s.emit [.retSend false])) := by
  cases i with
  | rdPulse t =>
    rcases pulse_of_error h with ⟨he, hp⟩ | ⟨he, hs, hp⟩ | ⟨he, hs, hp⟩
    · exact .inl ⟨he, t, congrArg Host.Outcome.next hp⟩
    · exact .inr (.inl ⟨he, hs, t, congrArg Host.Outcome.next hp⟩)
    · exact .inr (.inr (.inl ⟨he, hs, t, congrArg Host.Outcome.next hp⟩))
  | rdWatchdog now =>
    simp only [errorOf] at h
    split at h
    · next hstuck =>
      obtain ⟨hadb, htimeout⟩ := hstuck
      cases h
      refine .inr (.inr (.inr (.inl ⟨rfl, ?_⟩)))
      simp only [exec, execRdWatchdog, hadb, if_pos htimeout]
    · cases h
  | wrSend buffer length now =>
    simp only [errorOf] at h
    split at h
    · cases h
    · next hbad =>
      cases h
      exact .inr (.inr (.inr (.inr ⟨rfl, execWrSend_rejected (Bool.eq_false_iff.2 hbad)⟩)))
  | lkSend buffer length now =>
    simp only [errorOf] at h
    split at h
    · cases h
    · next hbad =>
      cases h
      exact .inr (.inr (.inr (.inr ⟨rfl, execLkSend_rejected (Bool.eq_false_iff.2 hbad)⟩)))
  | _ => cases h

/-- A pulse that completes an oversized header resynchronises, and does nothing else (41 R127 item 3). -/
theorem oversizedIsSilent (t : Time) (s : State) : OversizedIsSilent t s := by
  intro h
  rcases pulse_of_error h with ⟨-, hp⟩ | ⟨he, -⟩ | ⟨he, -⟩
  · exact ⟨resync t s, congrArg Host.Outcome.next hp, rfl, rfl, rfl, rfl, rfl⟩
  · cases he
  · cases he

/-- An `Invalid` interval in either field resynchronises, which leaves the Reader decoding (41 R127 item 4). -/
theorem invalidLosesOnce (t : Time) (s : State) : InvalidLosesOnce t s := by
  refine fun hinvalid => ⟨fun hadb => ?data, fun hahe => ?header⟩
  case data =>
    exact ⟨_, congrArg Host.Outcome.next (pulse_of_invalid_in_data hadb hinvalid), rfl, .inr (.inl rfl)⟩
  case header =>
    exact ⟨_, congrArg Host.Outcome.next (pulse_of_invalid_in_header hahe hinvalid), rfl, rfl, .inr (.inl rfl)⟩

end

end Sys2Proof.Machine
end

section
/-! CERTIFICATE. Signals and errors (60 R180 to R189). -/

open Sys2Proof Sys2Proof.Machine

/-- Settles O31: what each detected error does, and what that leaves unchanged. -/
theorem errorsAreHandledInPlace : Obligations.ErrorsAreHandledInPlace := by
  unfold Obligations.ErrorsAreHandledInPlace
  refine ⟨fun i e s h => ?_, fun t s => ⟨oversizedIsSilent t s, invalidLosesOnce t s⟩⟩
  rcases exec_of_error h with
    ⟨rfl, t, hexec⟩ | ⟨rfl, hnot, t, hexec⟩ | ⟨rfl, hadb, t, hexec⟩ | ⟨rfl, hexec⟩ | ⟨rfl, hexec⟩ <;>
    refine ⟨_, hexec, rfl, rfl, rfl, rfl, rfl, rfl, ?_⟩
  · exact ⟨rfl, rfl, rfl, rfl⟩
  · exact ⟨rfl, rfl, fun hadb => absurd hadb hnot, fun _ => ⟨rfl, rfl⟩⟩
  · exact ⟨rfl, rfl, fun _ => ⟨rfl, rfl⟩, fun hnot => absurd hadb hnot⟩
  · exact ⟨rfl, rfl, rfl⟩
  · exact ⟨rfl, rfl, rfl⟩

/-- Settles O30: the flag is not read first, so nothing of the first raise's payload is left. -/
theorem raiseRecordsOneSignal : Obligations.RaiseRecordsOneSignal := by
  unfold Obligations.RaiseRecordsOneSignal
  exact fun s ts ts' len len' => ⟨raise_eq _ s, raise_eq _ s, raise_eq _ s,
    s.sig.record_lost_lost ts ts', s.sig.record_received_received ts ts' len len'⟩

/-- Settles O32: the first service leaves no flag set, and with none set there is nothing to deliver. -/
theorem secondServiceDeliversNothing : Obligations.SecondServiceDeliversNothing := by
  unfold Obligations.SecondServiceDeliversNothing
  intro s u h
  cases h
  obtain ⟨hlost, hreceived, hsent⟩ := service_flags s
  exact congrArg Host.Outcome.next (service_of_none_pending hlost hreceived hsent)

end

section
/-! SUPPORT. What a service delivers, what the operations do on a unit that is stopped, and a stopped link that
starts (43 R160, R162 to R165; 70 R211, R213, R221). -/

namespace Sys2Proof.Machine

open Sys2Proof

/-! ## The callbacks of a service -/

theorem callbacksIn_append (xs ys : List Output) : callbacksIn (xs ++ ys) = callbacksIn xs ++ callbacksIn ys :=
  List.filterMap_append

/-- A callback that is made where a flag is set. -/
theorem callbacksIn_of_flag (flag : Bool) (g : Signal) :
    callbacksIn (if flag then [.callback g] else []) = if flag then [g] else [] := by
  cases flag <;> rfl

/-- The signals whose flags are set, in the order of 43 R162. -/
def Signals.pending (c : Signals) : List Signal :=
  (if c.lostFlag then [.lost c.lostTs] else []) ++
    ((if c.receivedFlag then [.received c.receivedTs c.receivedLen] else []) ++
      (if c.sentFlag then [.sent] else []))

/-- A service delivers what is pending, each signal once and with the payload of its cell (43 R162, 60 R189). -/
theorem callbacksIn_service {s w : State} (h : exec .lkService s = .next w) :
    callbacksIn (w.trace.drop s.trace.length) = s.sig.pending := by
  obtain ⟨u, hu, -, htrace, -⟩ := serviceDeliversPendingSignals s
  cases hu.symm.trans h
  rw [htrace, List.drop_left, callbacksIn_append, callbacksIn_append, callbacksIn_of_flag, callbacksIn_of_flag,
    callbacksIn_of_flag]
  rfl

/-- However many losses were raised, one at most is pending. -/
theorem Signals.losses_pending {isLoss : Signal → Bool} (c : Signals) (hlost : ∀ ts, isLoss (.lost ts) = true)
    (hreceived : ∀ ts len, isLoss (.received ts len) = false) (hsent : isLoss .sent = false) :
    c.pending.filter isLoss = if c.lostFlag then [.lost c.lostTs] else [] := by
  simp [pending, apply_ite (List.filter isLoss), hlost, hreceived, hsent]

/-! ## Stopped units -/

section
variable {s : State}

/-- A stopped Reader has nothing to release (41 R119). -/
theorem restore_of_stopped (h : s.rd.state = .idle) (blankLevel : Bool) : restore blankLevel s = s := by
  rw [restore, (restoreNext_idle_iff blankLevel _).2 h, ← h]
  rfl

/-- A stopped Reader is not blanked (41 R120). -/
theorem blank_of_stopped (h : s.rd.state = .idle) : blank s = s := by
  rw [blank, (blankNext_idle_iff _).2 h, ← h]
  rfl

/-- On a stopped Reader the watchdog has no packet to watch (41 R122). -/
theorem execRdWatchdog_of_stopped (h : s.rd.state = .idle) (now : Time) : exec (.rdWatchdog now) s = .next s := by
  simp only [exec, execRdWatchdog, h]

/-- A link that is not started cannot send (43 R160). -/
theorem linkCanSend_of_not_started (h : linkStarted s = false) (now : Time) : linkCanSend now s = false := by
  simp only [linkCanSend, h, Bool.false_and]

/-- `LK.START` with both units stopped starts both (43 R164). -/
theorem execLkStart_of_stopped (hwriter : s.wr.active = false) (hreader : s.rd.state = .idle) {now : Time}
    (hnow : now < 2 ^ s.cfg.tsw) :
    exec (.lkStart now) s = .next { s with
      rd := { s.rd with lastTs := now, state := .aps }
      wr := { s.wr with active := true, state := .idle, txPending := false, lastCompletionTs := now }
      txBlank := false
      sig := s.sig.clearAll } := by
  obtain ⟨-, -, -, -, hstart, -⟩ := linkRestoreStartStop now s
  rw [hstart (.inl hwriter) hnow, if_pos hreader, if_pos hwriter]
  rfl

end

end Sys2Proof.Machine
end

section
/-! CERTIFICATE. Reset, the operations after it, and the hazard of losses in a row (70 R210 to R221). -/

open Sys2Proof Sys2Proof.Machine

/-- Settles O33: the second raise overwrites the first, whose flag it does not read, and the service delivers what
the cell then holds. -/
theorem lossesCoalesceUntilServiced : Obligations.LossesCoalesceUntilServiced := by
  unfold Obligations.LossesCoalesceUntilServiced
  intro t s u w hadb _ hinvalid hpulse hservice
  have hu : pulse t s = resync t (raise (.lost s.rd.startTs) s) := pulse_of_invalid_in_data hadb hinvalid
  cases hpulse
  rw [callbacksIn_service hservice, hu, resync_sig, raise_sig]
  exact Signals.losses_pending _ (fun _ => rfl) (fun _ _ => rfl) rfl

/-- Settles O49: field by field; the configuration is the one field that reset takes from outside. -/
theorem resetLeavesTheDeviceStopped : Obligations.ResetLeavesTheDeviceStopped := by
  unfold Obligations.ResetLeavesTheDeviceStopped
  refine ⟨rfl, fun c => ⟨rfl, rfl, rfl, rfl, rfl, rfl, ?flags, ?timestamps, ?cursors, ?lengths, rfl, rfl⟩⟩
  case flags => exact ⟨rfl, rfl, rfl⟩
  case timestamps => exact ⟨rfl, rfl, rfl, rfl, rfl⟩
  case cursors => exact ⟨rfl, rfl, rfl, rfl⟩
  case lengths => exact ⟨rfl, rfl, rfl⟩

/-- Settles O50: both units are stopped and no signal is pending, and each operation finds one of these. -/
theorem afterResetNothingHappens : Obligations.AfterResetNothingHappens := by
  unfold Obligations.AfterResetNothingHappens
  intro c t b buffer length s
  have hreader : s.rd.state = .idle := rfl
  have hwriter : s.wr.active = false := rfl
  have hrejected : sendAcceptable length s = false := (sendAcceptable_eq_false_iff length s).2 (.inl hwriter)
  have hcannot : linkCanSend t s = false :=
    linkCanSend_of_not_started ((linkStarted_eq_false_iff s).2 (.inl hwriter)) t
  obtain ⟨-, hnothing, hblanking, -⟩ := readerQueriesAnswer t 0 s
  refine ⟨?pulse, ?expiry, execWrSend_rejected hrejected, execLkSend_rejected hrejected, ?cansend,
    hnothing nofun nofun, hblanking, execRdWatchdog_of_stopped hreader t, ?blank, ?rdRestore, ?lkRestore, ?service⟩
  case pulse => exact pulseIgnoredUnlessDecoding t s (.inl hreader)
  case expiry => exact strayExpiryDoesNothing t s (.inl hwriter)
  case cansend => exact congrArg (fun answer => Host.Outcome.next (s.emit [.retBool answer])) hcannot
  case blank => exact congrArg Host.Outcome.next (blank_of_stopped hreader)
  case rdRestore => exact congrArg Host.Outcome.next (restore_of_stopped hreader b)
  case lkRestore => exact congrArg Host.Outcome.next (restore_of_stopped hreader s.txBlank)
  case service => exact congrArg Host.Outcome.next (service_of_none_pending rfl rfl rfl)

/-- Settles O51: the stop leaves both units stopped, so the start that follows starts both. -/
theorem restartReinitialises : Obligations.RestartReinitialises := by
  unfold Obligations.RestartReinitialises
  intro now s hnow
  have hstart := execLkStart_of_stopped (s := (readerStop (writerStop s)).setTxBlank false) rfl rfl hnow
  rw [runInstrs, exec, execLkStop, andThen_next, runInstrs, hstart]
  rfl

end
